-- ==== Sys2Proof/Word.lean ====
section
/-! DEFINITION. The word types, register indices and small named alternatives of MM256 (spec 00 R7, R9, R12, R14; 10 R21 to R26). -/

namespace Sys2Proof

/-- A 256-bit operand (00 R7, `W`): a modulus, a curve parameter, a register value, `DBUF`. -/
abbrev Word := BitVec 256

/-- A 32-bit word of the host window: a command word, `STATUS`, one word of `DBUF` (00 R7). -/
abbrev Word32 := BitVec 32

/-- A field register index, `F0` to `F15` (10 R24). -/
abbrev FIdx := Fin 16

/-- A point register index, `P0` to `P7` (10 R26). -/
abbrev PIdx := Fin 8

/-- A modulus bank: `FP`, the coordinate field, or `FN`, the scalar field (10 R21). -/
inductive Bank where
  | fp
  | fn
  deriving DecidableEq, Repr

/-- A curve bank, `C0` or `C1` (10 R23). -/
inductive CurveIdx where
  | c0
  | c1
  deriving DecidableEq, Repr

/-- The domain mark of a field register (10 R24, R25). The fourth 2-bit value never occurs, so it has no name here. -/
inductive Tag where
  | fp
  | fn
  | raw
  deriving DecidableEq, Repr

/-- The tag of the elements of a bank (00 R14). -/
def Bank.tag : Bank → Tag
  | .fp => .fp
  | .fn => .fn

/-- A point (00 R12): `INFINITY`, or a pair of coordinates. Point registers hold pairs of words, the group law works on pairs of
naturals. The constructor is the spec's `inf` bit (10 R26): one coordinate without the other cannot be held. -/
inductive Point (α : Type) where
  | infinity
  | affine (x y : α)
  deriving DecidableEq, Repr

end Sys2Proof
end

