-- ==== Sys2Proof/Syntax.lean ====
section
/-! DEFINITION. The 26 commands of MM256, one constructor per row of the opcode table (30 R95). -/

namespace Sys2Proof

/-- A command with its operands, in the order of the fields `d`, `a`, `b` and then the selectors of `imm` (30 R91 to R93).
Register indices carry their bound in their type, so that a command naming `P9` cannot be written; the raw words that would
spell one are refused by the decoder (`Fields.check`). `LDP` keeps its `a` and `b` fields also where they are free
(30 R104): they are bits of the word. -/
inductive Instr where
  -- data movement (spec file 40)
  | ldmod (s : Bank)
  | ldcrv (a b : FIdx) (c : CurveIdx)
  | ldf (d : FIdx) (s : Bank)
  | ldi (d : FIdx)
  | stf (a : FIdx)
  | movf (d a : FIdx)
  | red (d a : FIdx) (s : Bank)
  -- field arithmetic (spec file 41)
  | add (d a b : FIdx)
  | sub (d a b : FIdx)
  | mul (d a b : FIdx)
  | pow (d a b : FIdx) (neg : Bool)
  | inv (d a : FIdx)
  | div (d a b : FIdx)
  | cmpf (a b : FIdx)
  -- Montgomery domain (spec file 42)
  | mmul (d a b : FIdx)
  | tomont (d a : FIdx)
  | frommont (d a : FIdx)
  -- points (spec file 43)
  | ldp (d : PIdx) (a b : FIdx) (c : CurveIdx) (px py : Bool)
  | getx (d : FIdx) (a : PIdx)
  | gety (d : FIdx) (a : PIdx)
  | movp (d a : PIdx)
  | tstp (a : PIdx)
  | cmpp (a b : PIdx)
  | padd (d a b : PIdx)
  | pdbl (d a : PIdx)
  | smul (d a : PIdx) (b : FIdx)
  deriving DecidableEq, Repr

end Sys2Proof
end

