-- ==== Sys2Proof/WellFormed.lean ====
section
/-! DEFINITION. When the raw fields of a command word are well formed (30 R91 to R93, R96): the checks a decoder makes, each with its
own name. A command of type `Instr` is well formed by its types; the term that can be ill formed is the word's field tuple. -/

namespace Sys2Proof

/-- The fields of the one format `C` (30 R91). -/
structure Fields where
  op : BitVec 8
  d : BitVec 4
  a : BitVec 4
  b : BitVec 4
  z : BitVec 4
  imm : BitVec 8
  deriving DecidableEq, Repr

/-- What a command makes of a register field (30 R92, R104): an F-index, a P-index, unused (must be zero), or not checked. -/
inductive FieldUse where
  | fIndex
  | pIndex
  | unused
  | free
  deriving DecidableEq, Repr

/-- One row's use of the fields (30 R95): `imm` has a 1 in each selector bit the command reads. -/
structure Usage where
  d : FieldUse
  a : FieldUse
  b : FieldUse
  imm : BitVec 8
  deriving DecidableEq, Repr

/-- Why a word spells no command (30 R96, R108; 93 U6). Each of them makes the word fault with `E_ILLEGAL`. -/
inductive Illegal where
  | zNotZero
  | reservedOp
  | fieldD
  | fieldA
  | fieldB
  | unusedImm
  deriving DecidableEq, Repr

/-- 30 R92: every value of an F-index, 0 to 7 of a P-index, 0 of an unused field, every value of a free field. -/
def FieldUse.admits (u : FieldUse) (v : BitVec 4) : Bool :=
  match u with
  | .fIndex => true
  | .pIndex => v.toNat < 8
  | .unused => v == 0#4
  | .free => true

/-- The checks of 30 R96 after the opcode is known, in that rule's order; `none` means that every check passes. -/
def Fields.check (f : Fields) (u : Usage) : Option Illegal :=
  if f.z ≠ 0#4 then some .zNotZero
  else if u.d.admits f.d = false then some .fieldD
  else if u.a.admits f.a = false then some .fieldA
  else if u.b.admits f.b = false then some .fieldB
  else if f.imm &&& ~~~u.imm ≠ 0#8 then some .unusedImm
  else none

/-- The field tuple passes every check of its row. -/
def Fields.wellFormed (f : Fields) (u : Usage) : Bool := (f.check u).isNone

end Sys2Proof
end

