-- ==== Sys2Proof/Decode.lean ====
section
/-! DEFINITION. The decoder, total on all 2^32 words and rejecting by name (30 R96), and after it the encoder. Both are written from the
opcode table of 30 R95. -/

namespace Sys2Proof

/-- A field read as an F-index: all 16 values are legal (30 R92). -/
def fIdxOf (v : BitVec 4) : FIdx := v.toFin

/-- A field read as a P-index: bit 3 has been checked to be zero (30 R92). -/
def pIdxOf (v : BitVec 4) : PIdx := Fin.ofNat 8 v.toNat

/-- `imm[0]` as a modulus bank: 0 is `FP`, 1 is `FN` (30 R93). -/
def bankOf (imm : BitVec 8) : Bank := if imm.getLsbD 0 then .fn else .fp

/-- `imm[0]` as a curve bank (30 R93). -/
def curveIdxOf (imm : BitVec 8) : CurveIdx := if imm.getLsbD 0 then .c1 else .c0

/-- One row of the opcode table of 30 R95. -/
structure OpRow where
  op : BitVec 8
  mnemonic : String
  usage : Usage
  build : Fields → Instr

/-- 30 R95, ops 0x10 to 0x16. -/
def opRowsMovement : List OpRow :=
  [ ⟨0x10#8, "LDMOD", ⟨.unused, .unused, .unused, 0x01#8⟩, fun w => .ldmod (bankOf w.imm)⟩,
    ⟨0x11#8, "LDCRV", ⟨.unused, .fIndex, .fIndex, 0x01#8⟩, fun w => .ldcrv (fIdxOf w.a) (fIdxOf w.b) (curveIdxOf w.imm)⟩,
    ⟨0x12#8, "LDF", ⟨.fIndex, .unused, .unused, 0x01#8⟩, fun w => .ldf (fIdxOf w.d) (bankOf w.imm)⟩,
    ⟨0x13#8, "LDI", ⟨.fIndex, .unused, .unused, 0x00#8⟩, fun w => .ldi (fIdxOf w.d)⟩,
    ⟨0x14#8, "STF", ⟨.unused, .fIndex, .unused, 0x00#8⟩, fun w => .stf (fIdxOf w.a)⟩,
    ⟨0x15#8, "MOVF", ⟨.fIndex, .fIndex, .unused, 0x00#8⟩, fun w => .movf (fIdxOf w.d) (fIdxOf w.a)⟩,
    ⟨0x16#8, "RED", ⟨.fIndex, .fIndex, .unused, 0x01#8⟩, fun w => .red (fIdxOf w.d) (fIdxOf w.a) (bankOf w.imm)⟩ ]

/-- 30 R95, ops 0x20 to 0x26. -/
def opRowsField : List OpRow :=
  [ ⟨0x20#8, "ADD", ⟨.fIndex, .fIndex, .fIndex, 0x00#8⟩, fun w => .add (fIdxOf w.d) (fIdxOf w.a) (fIdxOf w.b)⟩,
    ⟨0x21#8, "SUB", ⟨.fIndex, .fIndex, .fIndex, 0x00#8⟩, fun w => .sub (fIdxOf w.d) (fIdxOf w.a) (fIdxOf w.b)⟩,
    ⟨0x22#8, "MUL", ⟨.fIndex, .fIndex, .fIndex, 0x00#8⟩, fun w => .mul (fIdxOf w.d) (fIdxOf w.a) (fIdxOf w.b)⟩,
    ⟨0x23#8, "POW", ⟨.fIndex, .fIndex, .fIndex, 0x01#8⟩,
      fun w => .pow (fIdxOf w.d) (fIdxOf w.a) (fIdxOf w.b) (w.imm.getLsbD 0)⟩,
    ⟨0x24#8, "INV", ⟨.fIndex, .fIndex, .unused, 0x00#8⟩, fun w => .inv (fIdxOf w.d) (fIdxOf w.a)⟩,
    ⟨0x25#8, "DIV", ⟨.fIndex, .fIndex, .fIndex, 0x00#8⟩, fun w => .div (fIdxOf w.d) (fIdxOf w.a) (fIdxOf w.b)⟩,
    ⟨0x26#8, "CMPF", ⟨.unused, .fIndex, .fIndex, 0x00#8⟩, fun w => .cmpf (fIdxOf w.a) (fIdxOf w.b)⟩ ]

/-- 30 R95, ops 0x30 to 0x32. -/
def opRowsMontgomery : List OpRow :=
  [ ⟨0x30#8, "MMUL", ⟨.fIndex, .fIndex, .fIndex, 0x00#8⟩, fun w => .mmul (fIdxOf w.d) (fIdxOf w.a) (fIdxOf w.b)⟩,
    ⟨0x31#8, "TOMONT", ⟨.fIndex, .fIndex, .unused, 0x00#8⟩, fun w => .tomont (fIdxOf w.d) (fIdxOf w.a)⟩,
    ⟨0x32#8, "FROMMONT", ⟨.fIndex, .fIndex, .unused, 0x00#8⟩, fun w => .frommont (fIdxOf w.d) (fIdxOf w.a)⟩ ]

/-- 30 R95, ops 0x40 to 0x4A. -/
def opRowsPoint : List OpRow :=
  [ ⟨0x40#8, "LDP", ⟨.pIndex, .free, .free, 0x07#8⟩,
      fun w => .ldp (pIdxOf w.d) (fIdxOf w.a) (fIdxOf w.b) (curveIdxOf w.imm) (w.imm.getLsbD 1) (w.imm.getLsbD 2)⟩,
    ⟨0x41#8, "GETX", ⟨.fIndex, .pIndex, .unused, 0x00#8⟩, fun w => .getx (fIdxOf w.d) (pIdxOf w.a)⟩,
    ⟨0x42#8, "GETY", ⟨.fIndex, .pIndex, .unused, 0x00#8⟩, fun w => .gety (fIdxOf w.d) (pIdxOf w.a)⟩,
    ⟨0x43#8, "MOVP", ⟨.pIndex, .pIndex, .unused, 0x00#8⟩, fun w => .movp (pIdxOf w.d) (pIdxOf w.a)⟩,
    ⟨0x44#8, "TSTP", ⟨.unused, .pIndex, .unused, 0x00#8⟩, fun w => .tstp (pIdxOf w.a)⟩,
    ⟨0x45#8, "CMPP", ⟨.unused, .pIndex, .pIndex, 0x00#8⟩, fun w => .cmpp (pIdxOf w.a) (pIdxOf w.b)⟩,
    ⟨0x48#8, "PADD", ⟨.pIndex, .pIndex, .pIndex, 0x00#8⟩, fun w => .padd (pIdxOf w.d) (pIdxOf w.a) (pIdxOf w.b)⟩,
    ⟨0x49#8, "PDBL", ⟨.pIndex, .pIndex, .unused, 0x00#8⟩, fun w => .pdbl (pIdxOf w.d) (pIdxOf w.a)⟩,
    ⟨0x4A#8, "SMUL", ⟨.pIndex, .pIndex, .fIndex, 0x00#8⟩, fun w => .smul (pIdxOf w.d) (pIdxOf w.a) (fIdxOf w.b)⟩ ]

/-- The complete opcode table (30 R95). -/
def opTable : List OpRow := opRowsMovement ++ opRowsField ++ opRowsMontgomery ++ opRowsPoint

/-- The row of an opcode, if it has one (30 R94: every other value is reserved). -/
def opRow (op : BitVec 8) : Option OpRow := opTable.find? (fun r => r.op == op)

/-- Split a command word into its fields (30 R91). -/
def fieldsOf (w : Word32) : Fields :=
  { op := w.extractLsb' 24 8
    d := w.extractLsb' 20 4
    a := w.extractLsb' 16 4
    b := w.extractLsb' 12 4
    z := w.extractLsb' 8 4
    imm := w.extractLsb' 0 8 }

/-- `w = op * 2^24 + d * 2^20 + a * 2^16 + b * 2^12 + z * 2^8 + imm` (30 R91). -/
def wordOf (f : Fields) : Word32 := f.op ++ f.d ++ f.a ++ f.b ++ f.z ++ f.imm

/-- 30 R96 on a field tuple: the row of its opcode, then the checks of that row, then the command. -/
def decodeFields (f : Fields) : Except Illegal Instr :=
  match opRow f.op with
  | none => .error .reservedOp
  | some r =>
    match f.check r.usage with
    | some why => .error why
    | none => .ok (r.build f)

/-- The decoding procedure of 30 R96, total on all 2^32 words. -/
def decode (w : Word32) : Except Illegal Instr := decodeFields (fieldsOf w)

/-- An F-index as a field (30 R92). -/
def ofF (i : FIdx) : BitVec 4 := BitVec.ofFin i

/-- A P-index as a field, bit 3 zero (30 R92). -/
def ofP (i : PIdx) : BitVec 4 := BitVec.ofNat 4 i.val

/-- A modulus bank as `imm` (30 R93). -/
def ofBank : Bank → BitVec 8
  | .fp => 0x00#8
  | .fn => 0x01#8

/-- A curve bank as `imm[0]` (30 R93). -/
def ofCurve : CurveIdx → BitVec 8
  | .c0 => 0x00#8
  | .c1 => 0x01#8

/-- A selector at bit `k` of `imm` (30 R93). -/
def ofSel (k : Nat) (b : Bool) : BitVec 8 := if b then 1#8 <<< k else 0#8

/-- The fields of a command (30 R95; `imm = c + 2*px + 4*py` for `LDP`, 43 R204); every field a command does not use is zero. -/
def fieldsOfInstr : Instr → Fields
  | .ldmod s => ⟨0x10#8, 0, 0, 0, 0, ofBank s⟩
  | .ldcrv a b c => ⟨0x11#8, 0, ofF a, ofF b, 0, ofCurve c⟩
  | .ldf d s => ⟨0x12#8, ofF d, 0, 0, 0, ofBank s⟩
  | .ldi d => ⟨0x13#8, ofF d, 0, 0, 0, 0⟩
  | .stf a => ⟨0x14#8, 0, ofF a, 0, 0, 0⟩
  | .movf d a => ⟨0x15#8, ofF d, ofF a, 0, 0, 0⟩
  | .red d a s => ⟨0x16#8, ofF d, ofF a, 0, 0, ofBank s⟩
  | .add d a b => ⟨0x20#8, ofF d, ofF a, ofF b, 0, 0⟩
  | .sub d a b => ⟨0x21#8, ofF d, ofF a, ofF b, 0, 0⟩
  | .mul d a b => ⟨0x22#8, ofF d, ofF a, ofF b, 0, 0⟩
  | .pow d a b neg => ⟨0x23#8, ofF d, ofF a, ofF b, 0, ofSel 0 neg⟩
  | .inv d a => ⟨0x24#8, ofF d, ofF a, 0, 0, 0⟩
  | .div d a b => ⟨0x25#8, ofF d, ofF a, ofF b, 0, 0⟩
  | .cmpf a b => ⟨0x26#8, 0, ofF a, ofF b, 0, 0⟩
  | .mmul d a b => ⟨0x30#8, ofF d, ofF a, ofF b, 0, 0⟩
  | .tomont d a => ⟨0x31#8, ofF d, ofF a, 0, 0, 0⟩
  | .frommont d a => ⟨0x32#8, ofF d, ofF a, 0, 0, 0⟩
  | .ldp d a b c px py => ⟨0x40#8, ofP d, ofF a, ofF b, 0, ofCurve c ||| ofSel 1 px ||| ofSel 2 py⟩
  | .getx d a => ⟨0x41#8, ofF d, ofP a, 0, 0, 0⟩
  | .gety d a => ⟨0x42#8, ofF d, ofP a, 0, 0, 0⟩
  | .movp d a => ⟨0x43#8, ofP d, ofP a, 0, 0, 0⟩
  | .tstp a => ⟨0x44#8, 0, ofP a, 0, 0, 0⟩
  | .cmpp a b => ⟨0x45#8, 0, ofP a, ofP b, 0, 0⟩
  | .padd d a b => ⟨0x48#8, ofP d, ofP a, ofP b, 0, 0⟩
  | .pdbl d a => ⟨0x49#8, ofP d, ofP a, 0, 0, 0⟩
  | .smul d a b => ⟨0x4A#8, ofP d, ofP a, ofF b, 0, 0⟩

/-- The command word of a command (30 R91, R95). -/
def encode (i : Instr) : Word32 := wordOf (fieldsOfInstr i)

/-- The fields of a command pass the checks of its own row. -/
def wellFormed (i : Instr) : Bool :=
  match opRow (fieldsOfInstr i).op with
  | none => false
  | some r => (fieldsOfInstr i).wellFormed r.usage

/-- The mnemonic of a command's row (30 R95). -/
def mnemonic (i : Instr) : String :=
  match opRow (fieldsOfInstr i).op with
  | none => ""
  | some r => r.mnemonic

/-- One row of the `match`/`mask` columns of 30 R95, copied from there as a second description of the encodings. -/
structure MaskRow where
  mnemonic : String
  matchWord : Word32
  mask : Word32

/-- The `match` and `mask` columns of 30 R95: a word `w` spells the command iff `w & mask == match`. -/
def maskTable : List MaskRow :=
  [ ⟨"LDMOD", 0x10000000#32, 0xFFFFFFFE#32⟩, ⟨"LDCRV", 0x11000000#32, 0xFFF00FFE#32⟩,
    ⟨"LDF", 0x12000000#32, 0xFF0FFFFE#32⟩, ⟨"LDI", 0x13000000#32, 0xFF0FFFFF#32⟩,
    ⟨"STF", 0x14000000#32, 0xFFF0FFFF#32⟩, ⟨"MOVF", 0x15000000#32, 0xFF00FFFF#32⟩,
    ⟨"RED", 0x16000000#32, 0xFF00FFFE#32⟩ ] ++
  [ ⟨"ADD", 0x20000000#32, 0xFF000FFF#32⟩, ⟨"SUB", 0x21000000#32, 0xFF000FFF#32⟩,
    ⟨"MUL", 0x22000000#32, 0xFF000FFF#32⟩, ⟨"POW", 0x23000000#32, 0xFF000FFE#32⟩,
    ⟨"INV", 0x24000000#32, 0xFF00FFFF#32⟩, ⟨"DIV", 0x25000000#32, 0xFF000FFF#32⟩,
    ⟨"CMPF", 0x26000000#32, 0xFFF00FFF#32⟩ ] ++
  [ ⟨"MMUL", 0x30000000#32, 0xFF000FFF#32⟩, ⟨"TOMONT", 0x31000000#32, 0xFF00FFFF#32⟩,
    ⟨"FROMMONT", 0x32000000#32, 0xFF00FFFF#32⟩ ] ++
  [ ⟨"LDP", 0x40000000#32, 0xFF800FF8#32⟩, ⟨"GETX", 0x41000000#32, 0xFF08FFFF#32⟩,
    ⟨"GETY", 0x42000000#32, 0xFF08FFFF#32⟩, ⟨"MOVP", 0x43000000#32, 0xFF88FFFF#32⟩,
    ⟨"TSTP", 0x44000000#32, 0xFFF8FFFF#32⟩, ⟨"CMPP", 0x45000000#32, 0xFFF88FFF#32⟩,
    ⟨"PADD", 0x48000000#32, 0xFF888FFF#32⟩, ⟨"PDBL", 0x49000000#32, 0xFF88FFFF#32⟩,
    ⟨"SMUL", 0x4A000000#32, 0xFF880FFF#32⟩ ]

/-- The instruction the decoder reads from a word numbered as spec/opcode_table.json numbers it: every row is one 32-bit number, written
by the host to `CMD` as such (30 R90), so there are no later words and no byte order of a fetch (20 R64). -/
def decodeTableWord (nbits w : Nat) : Option Instr :=
  (decode (BitVec.ofNat 32 (w % 2 ^ nbits))).toOption

end Sys2Proof
end

