-- ==== Sys2Proof/Config.lean ====
section
/-! DEFINITION. What an implementation of MM256 fixes, and the free values of the spec (10 R37). Nothing here has a body where the spec
gives no value: a claim holds whatever these constants are. -/

namespace Sys2Proof

/-- The number of the 64-byte block in which the platform places the register window (20 R60: `BASE` is OPEN). -/
opaque Config.baseBlock : Nat

/-- `BASE`, the address of the register window, a multiple of 64 (20 R60). -/
def Config.base : Nat := 64 * Config.baseBlock

/-- The word returned by the n-th free draw, a read of `DBUFk` while `RUN == BUSY` (20 R68; 93 U1): under no law. Log entry 5. -/
opaque Config.busyRead : Nat → Word32

/-- Whether the point written by the n-th free draw, a point command over a composite modulus (43 R201; 93 U3), is infinity.
Log entry 6. -/
opaque Config.freeInf : Nat → Bool

/-- The x coordinate of that point, before it is brought below the modulus (43 R201). Log entry 6. -/
opaque Config.freeX : Nat → Word

/-- The y coordinate of that point, before it is brought below the modulus (43 R201). Log entry 6. -/
opaque Config.freeY : Nat → Word

end Sys2Proof
end

