-- ==== Sys2Proof/Machine/Arith.lean ====
section
/-! DEFINITION. The modular arithmetic of one modulus, on exact naturals (00 R8, 41 R150): the field helpers of 43 R200 and the
exponentiation of 41 R156, R166. -/

namespace Sys2Proof.Arith

/-- A natural narrowed to a 256-bit word; every value the commands write is below 2^256 (41 R150). -/
def toWord (n : Nat) : Word := BitVec.ofNat 256 n

/-- `(u + v) mod M` (41 R152, 43 R200). -/
def fadd (M u v : Nat) : Nat := (u + v) % M

/-- `(u + M - v) mod M`: the modulus is added before the subtraction (41 R153, 43 R200). -/
def fsub (M u v : Nat) : Nat := (u + M - v) % M

/-- `(u * v) mod M` (41 R154, 43 R200). -/
def fmul (M u v : Nat) : Nat := (u * v) % M

/-- The value of a power as 41 R156 defines it: `powmod(x, 0, M) = 1`, `powmod(x, e, M) = (x * powmod(x, e - 1, M)) mod M`. -/
def powmodSpec (M x : Nat) : Nat → Nat
  | 0 => 1
  | e + 1 => (x * powmodSpec M x e) % M

/-- The loop of 41 R166, least significant bit first, for at most `fuel` iterations, over a multiplication `mul` on the number form in which
it runs (42 R188). -/
def powLoopWith (mul : Nat → Nat → Nat) : Nat → Nat → Nat → Nat → Nat
  | 0, res, _, _ => res
  | fuel + 1, res, base, e =>
    if e = 0 then res
    else powLoopWith mul fuel (if e % 2 = 1 then mul res base else res) (mul base base) (e / 2)

/-- The loop of 41 R166 on plain residues. -/
def powLoop (M fuel res base e : Nat) : Nat := powLoopWith (fmul M) fuel res base e

/-- `powmod(x, e, M)` as the engine computes it (41 R166): at most 256 iterations, since an exponent has 256 bits. -/
def powmod (M x e : Nat) : Nat := powLoop M 256 1 x e

/-- The exponent of `POW` reduced modulo `M - 1` and, for a negative exponent, taken from `M - 1` (41 R156). -/
def reduceExp (M e : Nat) (neg : Bool) : Nat :=
  let order := M - 1
  let e1 := e % order
  if neg then (order - e1) % order else e1

/-- The inverse of the Fermat engine, `powmod(u, M - 2, M)` (41 R158, 43 R200). -/
def finv (M u : Nat) : Nat := powmod M u (M - 2)

/-- `u * finv(v)` (41 R160, 43 R200). -/
def fdiv (M u v : Nat) : Nat := fmul M u (finv M v)

end Sys2Proof.Arith
end

