-- ==== Sys2Proof/Machine/Group.lean ====
section
/-! DEFINITION. The affine group law of a Weierstrass curve (43 R211), the double-and-add loop (43 R216) and the curve equation
(00 R12, 43 R204). -/

namespace Sys2Proof

/-- Change the kind of coordinates of a point, word by word. -/
def Point.map {α β : Type} (g : α → β) : Point α → Point β
  | .infinity => .infinity
  | .affine x y => .affine (g x) (g y)

/-- The point is `INFINITY`. -/
def Point.isInf {α : Type} : Point α → Bool
  | .infinity => true
  | .affine _ _ => false

end Sys2Proof

namespace Sys2Proof.Arith

/-- `(y * y) mod M == (x * x * x + A * x + B) mod M` (00 R12, 43 R204). -/
def onCurve (M A B x y : Nat) : Bool := (y * y) % M == (x * x * x + A * x + B) % M

/-- The third point of the line through `(x1, y1)` with slope `sl` and with second abscissa `x2`, reflected: `x3 = sl^2 - x1 - x2`,
`y3 = sl * (x1 - x3) - y1` (cases 3 and 5 of 43 R211). -/
def lineThird (M sl x1 y1 x2 : Nat) : Point Nat :=
  let x3 := fsub M (fsub M (fmul M sl sl) x1) x2
  .affine x3 (fsub M (fmul M sl (fsub M x1 x3)) y1)

/-- Group addition, by case, in the precedence order of 43 R211. -/
def padd (M A : Nat) (P Q : Point Nat) : Point Nat :=
  match P, Q with
  | .infinity, Q => Q
  | P, .infinity => P
  | .affine x1 y1, .affine x2 y2 =>
    if x1 = x2 ∧ y1 ≠ y2 then .infinity
    else if x1 ≠ x2 then lineThird M (fdiv M (fsub M y2 y1) (fsub M x2 x1)) x1 y1 x2
    else if y1 = 0 then .infinity
    else lineThird M (fdiv M ((3 * x1 * x1 + A) % M) ((2 * y1) % M)) x1 y1 x1

/-- The loop of 43 R216, least significant bit first, for at most `fuel` iterations. -/
def smulLoop (M A : Nat) : Nat → Point Nat → Point Nat → Nat → Point Nat
  | 0, acc, _, _ => acc
  | fuel + 1, acc, cur, k =>
    if k = 0 then acc
    else smulLoop M A fuel (if k % 2 = 1 then padd M A acc cur else acc) (padd M A cur cur) (k / 2)

/-- The scalar multiple by double-and-add (43 R216): at most 256 iterations, since a scalar has 256 bits. -/
def smul (M A : Nat) (P : Point Nat) (k : Nat) : Point Nat := smulLoop M A 256 .infinity P k

/-- The `k`-fold sum of a point, by repeated addition (43 R216 "naive repeated addition", R218). -/
def nfold (M A : Nat) (P : Point Nat) : Nat → Point Nat
  | 0 => .infinity
  | k + 1 => padd M A (nfold M A P k) P

end Sys2Proof.Arith
end

