-- ==== Sys2Proof/Machine/State.lean ====
section
/-! DEFINITION. The state of one MM256 instance as plain data (10 R20 to R34), the events still to come from outside it, the reasons for a
stop, and the state after reset (10 R45). -/

namespace Sys2Proof.Machine

/-- What a valid field register holds (10 R24, R25). -/
structure FReg where
  tag : Tag
  val : Word
  deriving DecidableEq, Repr

/-- What a valid point register holds: its curve bank and an affine point with plain residues (10 R26). -/
structure PReg where
  crv : CurveIdx
  pt : Point Word
  deriving DecidableEq, Repr

/-- What a valid curve bank holds: the parameters of `y^2 = x^3 + a*x + b` (10 R23). -/
structure Curve where
  a : Word
  b : Word
  deriving DecidableEq, Repr

/-- The run state (10 R33). -/
inductive Run where
  | idle
  | busy
  | fault
  deriving DecidableEq, Repr

/-- The twelve causes of a fault (60 R262); "none" is `none` in `State.err`. -/
inductive ErrCode where
  | illegal
  | uninit
  | nomod
  | nocrv
  | badmod
  | range
  | notOnCurve
  | partialPoint
  | domain
  | curve
  | zeroInv
  | infCoord
  deriving DecidableEq, Repr

/-- A register of the host window (20 R61). The host has no other place to access (20 R63). -/
inductive WinReg where
  | id
  | ctrl
  | status
  | cmd
  | reserved (k : Fin 4)
  | dbuf (k : Fin 8)
  deriving DecidableEq, Repr

/-- One event of the total order of 20 R71: a host access (20 R62), a change of the reset input (70 R300), or the unit's turn,
at which its one enabled step, if it has one, happens (20 R70). -/
inductive Event where
  | read (r : WinReg)
  | write (r : WinReg) (v : Word32)
  | assertReset
  | releaseReset
  | unitTurn
  deriving DecidableEq, Repr

/-- Why the machine stops. Each is safe: the model stops where no effect is given, or in a state that no run reaches. -/
inductive Fault where
  /-- Raised by `step` when `RUN == FAULT` and no event is left: the unit has no enabled step and only reset leaves that state
  (60 R270, R271; 93 U12 "stuck"). Safe: nothing is claimed of what follows. -/
  | stuckInFault
  /-- Raised by a command that needs the modulus of a valid register whose bank is not valid. No reachable state has one (10 R35 I2, I4).
  Safe. -/
  | noModulus
  /-- Raised by a command that needs the curve of a valid point whose curve bank is not valid. No reachable state has one (10 R35 I5).
  Safe. -/
  | noCurve
  deriving DecidableEq, Repr

/-- Why an instruction has no meaning. -/
inductive Refusal where
  /-- Raised by an arm of `exec` whose instruction is not modelled yet; no arm does now. Safe. -/
  | notModelled (mnemonic : String)
  deriving DecidableEq, Repr

/-- The state. A valid bit and the contents it covers are one `Option`: the contents of an invalid register or bank are unobservable and
have no value (10 R38, R45; 93 U2). -/
structure State where
  /-- `MOD[FP]` (10 R21). -/
  modFP : Option Word
  /-- `MOD[FN]` (10 R21). -/
  modFN : Option Word
  /-- `CRV[0]` (10 R23). -/
  crv0 : Option Curve
  /-- `CRV[1]` (10 R23). -/
  crv1 : Option Curve
  /-- `F[0..15]` (10 R24). -/
  f : Vector (Option FReg) 16
  /-- `P[0..7]` (10 R26). -/
  p : Vector (Option PReg) 8
  /-- `DBUF` (10 R27). -/
  dbuf : Word
  /-- `CMD` (10 R30). -/
  cmd : Word32
  /-- `RUN` (10 R33). -/
  run : Run
  /-- The zero flag `Z` (10 R29). -/
  z : Bool
  /-- The infinity flag `INF` (10 R29). -/
  inf : Bool
  /-- The equality flag `EQ` (10 R29). -/
  eq : Bool
  /-- The sticky flag `OVR`: a host write was dropped (10 R29, 20 R67). -/
  ovr : Bool
  /-- `ERRCODE`, with `none` for 0x00 (10 R34). -/
  err : Option ErrCode
  /-- The reset input is held asserted (70 R300). -/
  inReset : Bool
  /-- The model's own: the events still to come, in the order the unit receives them (20 R71). Log entry 3. -/
  events : List Event
  /-- The model's own: the words the host's reads have returned, newest first (20 R62). Log entry 4. -/
  replies : List Word32
  /-- The model's own: how many free values have been drawn. Log entry 5. -/
  draws : Nat
  deriving DecidableEq, Repr

/-- The machine right after reset (10 R45): idle, flags and codes clear, `CMD` and `DBUF` zero, nothing valid; the reset input is released,
and no event is pending. -/
def State.reset : State :=
  { modFP := none
    modFN := none
    crv0 := none
    crv1 := none
    f := Vector.replicate 16 none
    p := Vector.replicate 8 none
    dbuf := 0#256
    cmd := 0#32
    run := .idle
    z := false
    inf := false
    eq := false
    ovr := false
    err := none
    inReset := false
    events := []
    replies := []
    draws := 0 }

/-- A modulus bank by its number (10 R21). -/
def State.modulus (b : Bank) (s : State) : Option Word :=
  match b with
  | .fp => s.modFP
  | .fn => s.modFN

/-- A curve bank by its number (10 R23). -/
def State.curve (c : CurveIdx) (s : State) : Option Curve :=
  match c with
  | .c0 => s.crv0
  | .c1 => s.crv1

/-- `F[i]` (10 R24). -/
def State.fReg (i : FIdx) (s : State) : Option FReg := s.f[i]

/-- `P[i]` (10 R26). -/
def State.pReg (i : PIdx) (s : State) : Option PReg := s.p[i]

end Sys2Proof.Machine
end

