-- ==== Sys2Proof/Machine/Flags.lean ====
section
/-! DEFINITION. The flags (10 R29), the fault codes (60 R262) and the `STATUS` view of them (10 R28). -/

namespace Sys2Proof.Machine

/-- `Z <- (value written == 0)` (10 R29). -/
def zFlag (v : Word) : Bool := v == 0#256

/-- `INF <- (the point written, or tested, is the point at infinity)` (10 R29). -/
def infFlag (q : Point Word) : Bool := q.isInf

/-- The numeric fault codes (60 R262). -/
def errCode : ErrCode → BitVec 8
  | .illegal => 0x01#8
  | .uninit => 0x02#8
  | .nomod => 0x03#8
  | .nocrv => 0x04#8
  | .badmod => 0x05#8
  | .range => 0x10#8
  | .notOnCurve => 0x11#8
  | .partialPoint => 0x12#8
  | .domain => 0x20#8
  | .curve => 0x21#8
  | .zeroInv => 0x30#8
  | .infCoord => 0x31#8

/-- `ERRCODE` as eight bits, 0x00 while no fault has occurred (10 R34). -/
def errByte : Option ErrCode → BitVec 8
  | none => 0x00#8
  | some e => errCode e

/-- `STATUS` (10 R28): bit 0 `BUSY`, 1 `FAULT`, 2 `OVR`, 4 `Z`, 5 `INF`, 6 `EQ`, 15:8 `ERRCODE`, all others 0. -/
def statusWord (s : State) : Word32 :=
  0#16 ++ errByte s.err ++ 0#1 ++ BitVec.ofBool s.eq ++ BitVec.ofBool s.inf ++ BitVec.ofBool s.z ++ 0#1
    ++ BitVec.ofBool s.ovr ++ BitVec.ofBool (s.run == .fault) ++ BitVec.ofBool (s.run == .busy)

end Sys2Proof.Machine
end

