-- ==== Sys2Proof/Machine/Prime.lean ====
section
/-! DEFINITION. Whether a modulus is prime: the premise of the point commands (43 R201), as a computable test. -/

namespace Sys2Proof.Arith

/-- PBR's coordinate prime `p = 2^256 - 2^32 - 977` (70 R306). The unit holds no constant: this one is here only so that the test below
need not search for a divisor of the modulus most programs load. Sys2Proof/Laws/Prime.lean proves that it is prime. -/
def secp256k1P : Nat := 2 ^ 256 - 2 ^ 32 - 977

/-- No divisor of `M` from `k` up to its square root (the search ends after `fuel` candidates). -/
def noDivisorFrom (M : Nat) : Nat → Nat → Bool
  | 0, _ => true
  | fuel + 1, k => if M < k * k then true else if M % k = 0 then false else noDivisorFrom M fuel (k + 1)

/-- `M` is prime (43 R201). -/
def isPrime (M : Nat) : Bool := M == secp256k1P || (decide (2 ≤ M) && noDivisorFrom M M 2)

end Sys2Proof.Arith
end

