-- ==== Sys2Proof/Machine/Ops.lean ====
section
/-! DEFINITION. The named operations over the registers and banks (00 R11), the end of a command, taking a fault (60 R270) and the only
way back from one, reset (60 R271, 70 R300, R301). -/

namespace Sys2Proof.Machine

/-- What evaluating a command answers. -/
abbrev Out := Host.Outcome State Fault Refusal

/-- The state after the command being completed faults with `e` (60 R270): `ERRCODE <- e; RUN <- FAULT`, nothing else changes. -/
def faulted (e : ErrCode) (s : State) : State := { s with err := some e, run := .fault }

/-- Taking a fault: the one exception of this machine (60 R260, R270). There is no handler: control goes nowhere. -/
def takeFault (e : ErrCode) (s : State) : Out := .next (faulted e s)

/-- The state after a reset of the unit (10 R45, 70 R300): every piece of the unit's state at its reset value. What lies outside the unit
(the reset input, the events to come, the host's replies, the count of free draws) is not the unit's to reset. -/
def unitReset (s : State) : State :=
  { State.reset with inReset := s.inReset, events := s.events, replies := s.replies, draws := s.draws }

/-- The state after a command completes without fault (20 R70): `RUN <- IDLE`. -/
def retired (s : State) : State := { s with run := .idle }

/-- A command completes without fault with the state `s` it has written (20 R70). -/
def retire (s : State) : Out := .next (retired s)

/-- `require c else E_X` (00 R11). -/
def require (c : Bool) (e : ErrCode) (s : State) (k : Out) : Out := if c then k else takeFault e s

/-- Apply `g` to each register of a file. -/
def mapRegs {α : Type} {n : Nat} (g : α → α) (v : Vector α n) : Vector α n := ⟨⟨v.toList.map g⟩, by simp⟩

/-- `F[d] <- r`. -/
def setF (d : FIdx) (r : Option FReg) (s : State) : State := { s with f := s.f.set d r }

/-- `P[d] <- q`. -/
def setP (d : PIdx) (q : Option PReg) (s : State) : State := { s with p := s.p.set d q }

/-- `wF(d, t, v)` (00 R11): the register becomes valid with tag and value, and `Z` is written. -/
def writeF (d : FIdx) (t : Tag) (v : Word) (s : State) : State := { setF d (some ⟨t, v⟩) s with z := zFlag v }

/-- `wP(d, c, Q)` (00 R11): the register becomes valid with bank and point, and `INF` is written. -/
def writeP (d : PIdx) (c : CurveIdx) (q : Point Word) (s : State) : State := { setP d (some ⟨c, q⟩) s with inf := infFlag q }

/-- A field register after every register with tag `t` is invalidated (10 R36). -/
def dropTag (t : Tag) (r : Option FReg) : Option FReg :=
  match r with
  | some x => if x.tag = t then none else some x
  | none => none

/-- A point register after every register of curve bank `c` is invalidated (10 R36). -/
def dropCurve (c : CurveIdx) (q : Option PReg) : Option PReg :=
  match q with
  | some x => if x.crv = c then none else some x
  | none => none

/-- `LDMOD`'s writes (40 R122, 10 R36): the bank, and everything whose invariant rested on its old content. -/
def loadModulus (b : Bank) (m : Word) (s : State) : State :=
  { s with
    modFP := if b = .fp then some m else s.modFP
    modFN := if b = .fn then some m else s.modFN
    f := mapRegs (dropTag b.tag) s.f
    crv0 := if b = .fp then none else s.crv0
    crv1 := if b = .fp then none else s.crv1
    p := if b = .fp then mapRegs (fun _ => none) s.p else s.p }

/-- `LDCRV`'s writes (40 R124, 10 R36): the curve bank, and the points that belonged to its old content. -/
def loadCurve (c : CurveIdx) (k : Curve) (s : State) : State :=
  { s with
    crv0 := if c = .c0 then some k else s.crv0
    crv1 := if c = .c1 then some k else s.crv1
    p := mapRegs (dropCurve c) s.p }

/-- `DBUF <- v` (40 R130). -/
def setDbuf (v : Word) (s : State) : State := { s with dbuf := v }

/-- `EQ <- b` (10 R29). -/
def setEq (b : Bool) (s : State) : State := { s with eq := b }

/-- `INF <- b` (10 R29). -/
def setInf (b : Bool) (s : State) : State := { s with inf := b }

/-- One free value has been drawn: the next draw is another. -/
def drawn (s : State) : State := { s with draws := s.draws + 1 }

/-- The point a point command writes over a composite modulus (43 R201): some `inf`, some `x < M`, `y < M`, free otherwise. -/
def freePoint (M n : Nat) : Point Nat :=
  if Config.freeInf n then .infinity else .affine ((Config.freeX n).toNat % M) ((Config.freeY n).toNat % M)

/-- The write of `PADD`, `PDBL` and `SMUL` (43 R201): the affine result if the modulus is prime; otherwise the command completes with a
valid register whose point is free. -/
def writeGroup (d : PIdx) (c : CurveIdx) (M : Nat) (q : Point Nat) (s : State) : State :=
  if Arith.isPrime M then writeP d c (q.map Arith.toWord) s
  else drawn (writeP d c ((freePoint M s.draws).map Arith.toWord) s)

end Sys2Proof.Machine
end

