-- ==== Sys2Proof/Machine/Operands.lean ====
section
/-! DEFINITION. The operand forms of the commands (00 R11; 41 R151; 43 R200): each reads its sources from the state before the command,
faults as its rule says, and hands what it read to the rest of the command. -/

namespace Sys2Proof.Machine

/-- `srcF(i)` (00 R11, 60 R263): `require F[i].valid else E_UNINIT`, then a read of `F[i]`. -/
def srcF (i : FIdx) (s : State) (k : FReg → Out) : Out :=
  match s.fReg i with
  | some r => k r
  | none => takeFault .uninit s

/-- `srcP(i)` (00 R11, 60 R263): `require P[i].valid else E_UNINIT`, then a read of `P[i]`. -/
def srcP (i : PIdx) (s : State) (k : PReg → Out) : Out :=
  match s.pReg i with
  | some r => k r
  | none => takeFault .uninit s

/-- `require MOD[b].valid else E_NOMOD`, then a read of `MOD[b].m` (40 R126, R134; 43 R216). -/
def needModulus (b : Bank) (s : State) (k : Nat → Out) : Out :=
  match s.modulus b with
  | some m => k m.toNat
  | none => takeFault .nomod s

/-- `require CRV[c].valid else E_NOCRV`, then a read of `CRV[c]` (43 R204). -/
def needCurve (c : CurveIdx) (s : State) (k : Curve → Out) : Out :=
  match s.curve c with
  | some v => k v
  | none => takeFault .nocrv s

/-- The bank that holds the modulus of a tag; a `RAW` value has none (10 R25). -/
def tagBank : Tag → Option Bank
  | .fp => some .fp
  | .fn => some .fn
  | .raw => none

/-- `MOD[t].m` for the tag of a valid register, which is valid by 10 R35 I2; in a state that breaks that invariant the model stops. -/
def tagModulus (t : Tag) (s : State) (k : Nat → Out) : Out :=
  match (tagBank t).bind (fun b => s.modulus b) with
  | some m => k m.toNat
  | none => .fault .noModulus

/-- `MOD[FP].m` where a valid curve or point makes it valid (10 R35 I4, I5; 43 R200); otherwise the model stops. -/
def coordModulus (s : State) (k : Nat → Out) : Out :=
  match s.modFP with
  | some m => k m.toNat
  | none => .fault .noModulus

/-- `curve(i)` of a valid point register, which is valid by 10 R35 I5 (43 R200); otherwise the model stops. -/
def pointCurve (q : PReg) (s : State) (k : Curve → Out) : Out :=
  match s.curve q.crv with
  | some v => k v
  | none => .fault .noCurve

/-- `M = fieldpair(a, b)` (41 R151). -/
def fieldPair (a b : FIdx) (s : State) (k : FReg → FReg → Nat → Out) : Out :=
  srcF a s fun ra =>
  srcF b s fun rb =>
  require (ra.tag ≠ .raw && ra.tag = rb.tag) .domain s <|
  tagModulus ra.tag s fun M => k ra rb M

/-- `M = fieldone(a)` (41 R151). -/
def fieldOne (a : FIdx) (s : State) (k : FReg → Nat → Out) : Out :=
  srcF a s fun ra =>
  require (ra.tag ≠ .raw) .domain s <|
  tagModulus ra.tag s fun M => k ra M

/-- Two valid points of one curve, compared by its two numbers, with that curve (43 R210, R212). -/
def pointPair (a b : PIdx) (s : State) (k : PReg → PReg → Curve → Out) : Out :=
  srcP a s fun ra =>
  srcP b s fun rb =>
  pointCurve ra s fun ca =>
  pointCurve rb s fun cb =>
  require (ca = cb) .curve s (k ra rb ca)

/-- `pt(P[i])` as the mathematical point (43 R200). -/
def ptOf (q : PReg) : Point Nat := q.pt.map BitVec.toNat

/-- End of a command that writes a field register: `wF(d, t, v)` with `v` a natural below 2^256. -/
def finishF (d : FIdx) (t : Tag) (v : Nat) (s : State) : Out := retire (writeF d t (Arith.toWord v) s)

end Sys2Proof.Machine
end

