-- ==== Sys2Proof/Machine/DataMovement.lean ====
section
/-! DEFINITION. The data movement commands (spec file 40). -/

namespace Sys2Proof.Machine

/-- `LDMOD` (40 R122): an odd modulus of at least 3 from `DBUF`; the values of the old modulus do not outlive it (10 R36). -/
def execLdmod (b : Bank) (s : State) : Out :=
  require (3 ≤ s.dbuf.toNat && s.dbuf.toNat % 2 = 1) .badmod s <|
  retire (loadModulus b s.dbuf s)

/-- `LDCRV` (40 R124): curve parameters from two `FP` registers. -/
def execLdcrv (a b : FIdx) (c : CurveIdx) (s : State) : Out :=
  srcF a s fun ra =>
  srcF b s fun rb =>
  require (ra.tag = .fp && rb.tag = .fp) .domain s <|
  retire (loadCurve c ⟨ra.val, rb.val⟩ s)

/-- `LDF` (40 R126): the validating constructor; the value is not reduced. -/
def execLdf (d : FIdx) (b : Bank) (s : State) : Out :=
  needModulus b s fun M =>
  require (s.dbuf.toNat < M) .range s <|
  retire (writeF d b.tag s.dbuf s)

/-- `LDI` (40 R128): any 256-bit value, tagged `RAW`. -/
def execLdi (d : FIdx) (s : State) : Out := retire (writeF d .raw s.dbuf s)

/-- `STF` (40 R130): a register's value to `DBUF`; no flag. -/
def execStf (a : FIdx) (s : State) : Out := srcF a s fun r => retire (setDbuf r.val s)

/-- `MOVF` (40 R132): copy value and tag. -/
def execMovf (d a : FIdx) (s : State) : Out := srcF a s fun r => retire (writeF d r.tag r.val s)

/-- `RED` (40 R134): reduce a register of any tag into a bank. -/
def execRed (d a : FIdx) (b : Bank) (s : State) : Out :=
  srcF a s fun r =>
  needModulus b s fun M =>
  finishF d b.tag (r.val.toNat % M) s

end Sys2Proof.Machine
end

