-- ==== Sys2Proof/Machine/FieldCommands.lean ====
section
/-! DEFINITION. The field arithmetic commands (spec file 41). -/

namespace Sys2Proof.Machine

/-- `ADD` (41 R152). -/
def execAdd (d a b : FIdx) (s : State) : Out :=
  fieldPair a b s fun ra rb M => finishF d ra.tag (Arith.fadd M ra.val.toNat rb.val.toNat) s

/-- `SUB` (41 R153). -/
def execSub (d a b : FIdx) (s : State) : Out :=
  fieldPair a b s fun ra rb M => finishF d ra.tag (Arith.fsub M ra.val.toNat rb.val.toNat) s

/-- `MUL` (41 R154): plain residues in, plain residue out. -/
def execMul (d a b : FIdx) (s : State) : Out :=
  fieldPair a b s fun ra rb M => finishF d ra.tag (Arith.fmul M ra.val.toNat rb.val.toNat) s

/-- `POW` (41 R156): the fault tests in the order `Fa` valid, `Fb` valid, `Fa` not `RAW`, `Fb` is `RAW`. -/
def execPow (d a b : FIdx) (neg : Bool) (s : State) : Out :=
  srcF a s fun ra =>
  srcF b s fun rb =>
  require (ra.tag ≠ .raw) .domain s <|
  require (rb.tag = .raw) .domain s <|
  tagModulus ra.tag s fun M =>
  finishF d ra.tag (Arith.powmod M ra.val.toNat (Arith.reduceExp M rb.val.toNat neg)) s

/-- `INV` (41 R158): the exponent is fixed by the modulus. -/
def execInv (d a : FIdx) (s : State) : Out :=
  fieldOne a s fun ra M =>
  require (ra.val ≠ 0#256) .zeroInv s <|
  finishF d ra.tag (Arith.finv M ra.val.toNat) s

/-- `DIV` (41 R160): the domain is tested before the divisor. -/
def execDiv (d a b : FIdx) (s : State) : Out :=
  fieldPair a b s fun ra rb M =>
  require (rb.val ≠ 0#256) .zeroInv s <|
  finishF d ra.tag (Arith.fdiv M ra.val.toNat rb.val.toNat) s

/-- `CMPF` (41 R162): equal tags, `RAW` among them; writes `EQ` alone. -/
def execCmpf (a b : FIdx) (s : State) : Out :=
  srcF a s fun ra =>
  srcF b s fun rb =>
  require (ra.tag = rb.tag) .domain s <|
  retire (setEq (ra.val == rb.val) s)

end Sys2Proof.Machine
end

