-- ==== Sys2Proof/Machine/Montgomery.lean ====
section
/-! DEFINITION. The Montgomery multiplier (spec file 42): the inverse of the radix, the Montgomery product by its value, the reduction
`REDC` with its hidden constants, and the bit-serial multiplier. Only `rinv` is used by a command; the others are the datapath behind
it (42 R186 to R188). -/

namespace Sys2Proof.Arith

/-- The Montgomery radix (42 R180). -/
def radix : Nat := 2 ^ 256

/-- Halve `x` modulo an odd `M`, `n` times. -/
def halves (M : Nat) : Nat → Nat → Nat
  | 0, x => x
  | n + 1, x => halves M n (if x % 2 = 0 then x / 2 else (x + M) / 2)

/-- `Rinv(M)` (42 R180): for odd `M`, 1 halved 256 times modulo `M`, the inverse of the radix. -/
def rinv (M : Nat) : Nat := halves M 256 (1 % M)

/-- The Montgomery product by its value, `(x * y * Rinv(M)) mod M` (42 R180, R182). -/
def mp (M x y : Nat) : Nat := (x * y * rinv M) % M

/-- The Montgomery form of a residue, `(v * R) mod M` (42 R180, R183). -/
def mont (M v : Nat) : Nat := (v * radix) % M

/-- The residue of a Montgomery form, `(v * Rinv(M)) mod M` (42 R184). -/
def unmont (M v : Nat) : Nat := (v * rinv M) % M

/-- The engine's power on Montgomery forms (42 R188): the loop of 41 R166 with every multiplication `mp`, from the Montgomery form of 1. -/
def powMont (M x e : Nat) : Nat := powLoopWith (mp M) 256 (mont M 1) x e

/-- The Fermat inverse on Montgomery forms (42 R188): the power `M - 2`. -/
def finvMont (M u : Nat) : Nat := powMont M u (M - 2)

/-- The hidden constant `R2 = 2^512 mod M` of a bank (10 R22). -/
def r2 (M : Nat) : Nat := 2 ^ 512 % M

/-- The hidden constant `NPRIME = (-(M^(-1))) mod 2^256` of a bank (10 R22), from `R * Rinv(M) = 1 + M * NPRIME`. -/
def nprime (M : Nat) : Nat := (radix * rinv M - 1) / M

/-- Montgomery reduction (42 R186). -/
def redc (M T : Nat) : Nat :=
  let m := ((T % radix) * nprime M) % radix
  let t := (T + m * M) / radix
  if M ≤ t then t - M else t

/-- The loop of the bit-serial multiplier (42 R187): `n` iterations over the low bits of `x`. -/
def serialLoop (M y : Nat) : Nat → Nat → Nat → Nat
  | 0, _, T => T
  | n + 1, x, T =>
    let T1 := T + (x % 2) * y
    let T2 := if T1 % 2 = 1 then T1 + M else T1
    serialLoop M y n (x / 2) (T2 / 2)

/-- The bit-serial Montgomery multiplier (42 R187). -/
def mulSerial (M x y : Nat) : Nat :=
  let T := serialLoop M y 256 x 0
  if M ≤ T then T - M else T

end Sys2Proof.Arith
end

