-- ==== Sys2Proof/Machine/MontgomeryCommands.lean ====
section
/-! DEFINITION. The Montgomery-domain commands (spec file 42). Their results carry the tag of the first operand: Montgomery forms are not
marked (42 R185). -/

namespace Sys2Proof.Machine

/-- `MMUL` (42 R182): the Montgomery product, fully reduced. -/
def execMmul (d a b : FIdx) (s : State) : Out :=
  fieldPair a b s fun ra rb M => finishF d ra.tag (Arith.mp M ra.val.toNat rb.val.toNat) s

/-- `TOMONT` (42 R183). -/
def execTomont (d a : FIdx) (s : State) : Out :=
  fieldOne a s fun ra M => finishF d ra.tag (Arith.mont M ra.val.toNat) s

/-- `FROMMONT` (42 R184). -/
def execFrommont (d a : FIdx) (s : State) : Out :=
  fieldOne a s fun ra M => finishF d ra.tag (Arith.unmont M ra.val.toNat) s

end Sys2Proof.Machine
end

