-- ==== Sys2Proof/Machine/PointCommands.lean ====
section
/-! DEFINITION. The point commands (spec file 43), with affine results. -/

namespace Sys2Proof.Machine

/-- `LDP` (43 R204) and its forms: both coordinates present, both absent (infinity), or the refused partial form. The fields `a` and `b` are
read only when both are present (30 R104). -/
def execLdp (d : PIdx) (a b : FIdx) (c : CurveIdx) (px py : Bool) (s : State) : Out :=
  require (px = py) .partialPoint s <|
  if px = false then
    needCurve c s fun _ => retire (writeP d c .infinity s)
  else
    srcF a s fun rx =>
    srcF b s fun ry =>
    needCurve c s fun k =>
    require (rx.tag = .fp && ry.tag = .fp) .domain s <|
    coordModulus s fun M =>
    require (Arith.onCurve M k.a.toNat k.b.toNat rx.val.toNat ry.val.toNat) .notOnCurve s <|
    retire (writeP d c (.affine rx.val ry.val) s)

/-- `GETX` (43 R206): the x coordinate of a finite point. -/
def execGetx (d : FIdx) (a : PIdx) (s : State) : Out :=
  srcP a s fun r =>
  match r.pt with
  | .infinity => takeFault .infCoord s
  | .affine x _ => retire (writeF d .fp x s)

/-- `GETY` (43 R207): the y coordinate of a finite point. -/
def execGety (d : FIdx) (a : PIdx) (s : State) : Out :=
  srcP a s fun r =>
  match r.pt with
  | .infinity => takeFault .infCoord s
  | .affine _ y => retire (writeF d .fp y s)

/-- `MOVP` (43 R208): copy the point and its curve bank. -/
def execMovp (d a : PIdx) (s : State) : Out := srcP a s fun r => retire (writeP d r.crv r.pt s)

/-- `TSTP` (43 R209): writes `INF` alone. -/
def execTstp (a : PIdx) (s : State) : Out := srcP a s fun r => retire (setInf (infFlag r.pt) s)

/-- `CMPP` (43 R210): writes `EQ` alone. -/
def execCmpp (a b : PIdx) (s : State) : Out :=
  pointPair a b s fun ra rb _ => retire (setEq (ra.pt = rb.pt) s)

/-- `PADD` (43 R212): the curves are compared before the infinity short-circuits; the result takes `Pa`'s bank. -/
def execPadd (d a b : PIdx) (s : State) : Out :=
  pointPair a b s fun ra rb k =>
  coordModulus s fun M =>
  retire (writeGroup d ra.crv M (Arith.padd M k.a.toNat (ptOf ra) (ptOf rb)) s)

/-- `PDBL` (43 R214): the effect of `PADD Pd, Pa, Pa`. -/
def execPdbl (d a : PIdx) (s : State) : Out :=
  srcP a s fun ra =>
  pointCurve ra s fun k =>
  coordModulus s fun M =>
  retire (writeGroup d ra.crv M (Arith.padd M k.a.toNat (ptOf ra) (ptOf ra)) s)

/-- `SMUL` (43 R216): the scalar, `RAW` or `FN`, is always reduced modulo `MOD[FN].m`. -/
def execSmul (d a : PIdx) (b : FIdx) (s : State) : Out :=
  srcP a s fun rp =>
  srcF b s fun rk =>
  needModulus .fn s fun n =>
  require (rk.tag ≠ .fp) .domain s <|
  pointCurve rp s fun k =>
  coordModulus s fun M =>
  retire (writeGroup d rp.crv M (Arith.smul M k.a.toNat (ptOf rp) (rk.val.toNat % n)) s)

end Sys2Proof.Machine
end

