-- ==== Sys2Proof/Machine/Dispatch.lean ====
section
/-! DEFINITION. The meaning of each command, one arm per constructor of Instr: the effect of completing it (20 R70). -/

namespace Sys2Proof.Machine

/-- Evaluate a command against the state and complete it: all its writes together, or a fault with none of them (20 R70). -/
def exec (i : Instr) (s : State) : Host.Outcome State Fault Refusal :=
  match i with
  | .ldmod b => Sys2Proof.Machine.execLdmod b s
  | .ldcrv a b c => Sys2Proof.Machine.execLdcrv a b c s
  | .ldf d b => Sys2Proof.Machine.execLdf d b s
  | .ldi d => Sys2Proof.Machine.execLdi d s
  | .stf a => Sys2Proof.Machine.execStf a s
  | .movf d a => Sys2Proof.Machine.execMovf d a s
  | .red d a b => Sys2Proof.Machine.execRed d a b s
  | .add d a b => Sys2Proof.Machine.execAdd d a b s
  | .sub d a b => Sys2Proof.Machine.execSub d a b s
  | .mul d a b => Sys2Proof.Machine.execMul d a b s
  | .pow d a b neg => Sys2Proof.Machine.execPow d a b neg s
  | .inv d a => Sys2Proof.Machine.execInv d a s
  | .div d a b => Sys2Proof.Machine.execDiv d a b s
  | .cmpf a b => Sys2Proof.Machine.execCmpf a b s
  | .mmul d a b => Sys2Proof.Machine.execMmul d a b s
  | .tomont d a => Sys2Proof.Machine.execTomont d a s
  | .frommont d a => Sys2Proof.Machine.execFrommont d a s
  | .ldp d a b c px py => Sys2Proof.Machine.execLdp d a b c px py s
  | .getx d a => Sys2Proof.Machine.execGetx d a s
  | .gety d a => Sys2Proof.Machine.execGety d a s
  | .movp d a => Sys2Proof.Machine.execMovp d a s
  | .tstp a => Sys2Proof.Machine.execTstp a s
  | .cmpp a b => Sys2Proof.Machine.execCmpp a b s
  | .padd d a b => Sys2Proof.Machine.execPadd d a b s
  | .pdbl d a => Sys2Proof.Machine.execPdbl d a s
  | .smul d a b => Sys2Proof.Machine.execSmul d a b s

end Sys2Proof.Machine
end

