-- ==== Sys2Proof/Machine/Window.lean ====
section
/-! DEFINITION. The host's three means of action (20 R62): reads and writes of the register window (20 R61 to R69) and the reset input
(70 R300). -/

namespace Sys2Proof.Machine

/-- The offset of a window register from `BASE` (20 R61). -/
def winOffset : WinReg → Nat
  | .id => 0x00
  | .ctrl => 0x04
  | .status => 0x08
  | .cmd => 0x0C
  | .reserved k => 0x10 + 4 * k.val
  | .dbuf k => 0x20 + 4 * k.val

/-- The register at an offset of the window (20 R61); none outside it or between words (20 R63). -/
def winAt (off : Nat) : Option WinReg :=
  if off % 4 ≠ 0 then none
  else if off = 0x00 then some .id
  else if off = 0x04 then some .ctrl
  else if off = 0x08 then some .status
  else if off = 0x0C then some .cmd
  else if off < 0x20 then some (.reserved (Fin.ofNat 4 ((off - 0x10) / 4)))
  else if off < 0x40 then some (.dbuf (Fin.ofNat 8 ((off - 0x20) / 4)))
  else none

/-- The host's move for an access of `size` bytes at a platform address (20 R62), and none where the spec gives it no such move: an
access that is not an aligned 32-bit word of the window (20 R63; 93 U5). Log entry 7. -/
def winOfAccess (addr size : Nat) : Option WinReg :=
  if size = 4 ∧ Config.base ≤ addr then winAt (addr - Config.base) else none

/-- The constant `ID` (10 R32), ASCII "M256". -/
def idWord : Word32 := 0x4D323536#32

/-- `DBUFk`, bits `32k+31..32k` of `DBUF` (20 R64). -/
def dbufWord (k : Fin 8) (v : Word) : Word32 := v.extractLsb' (32 * k.val) 32

/-- `DBUF` with word `k` replaced (20 R64, R67). -/
def withDbufWord (k : Fin 8) (w : Word32) (v : Word) : Word :=
  (v &&& ~~~((BitVec.allOnes 32).setWidth 256 <<< (32 * k.val))) ||| (w.setWidth 256 <<< (32 * k.val))

/-- The value of a read, given the unit's state (20 R65). A read of `DBUFk` while BUSY is a free draw (20 R68). -/
def windowRead (r : WinReg) (s : State) : Word32 :=
  match r with
  | .id => idWord
  | .ctrl => 0#32
  | .status => statusWord s
  | .cmd => s.cmd
  | .reserved _ => 0#32
  | .dbuf k => if s.run = .busy then Config.busyRead s.draws else dbufWord k s.dbuf

/-- The read draws a free value (20 R68). -/
def readDraws (r : WinReg) (s : State) : Bool :=
  match r with
  | .dbuf _ => s.run = .busy
  | _ => false

/-- What the window shows: while the reset input is asserted, the reset values (70 R300). -/
def windowView (s : State) : State := if s.inReset then { State.reset with draws := s.draws } else s

/-- `MemRead` (20 R62, R65): the host receives the value; the unit's state does not change. -/
def hostRead (r : WinReg) (s : State) : State :=
  { s with
    replies := windowRead r (windowView s) :: s.replies
    draws := if readDraws r (windowView s) then s.draws + 1 else s.draws }

/-- A write to `CMD` (20 R66, R67): accepted in IDLE, dropped with `OVR` otherwise. -/
def writeCmd (v : Word32) (s : State) : State :=
  if s.run = .idle then { s with cmd := v, run := .busy } else { s with ovr := true }

/-- A write to `DBUFk` (20 R67): taken in IDLE, dropped with `OVR` otherwise. -/
def writeDbuf (k : Fin 8) (v : Word32) (s : State) : State :=
  if s.run = .idle then { s with dbuf := withDbufWord k v s.dbuf } else { s with ovr := true }

/-- A write to `CTRL` (10 R31, 20 R69, 70 R301): bit 0 resets the unit in any run state. -/
def writeCtrl (v : Word32) (s : State) : State := if v.getLsbD 0 then unitReset s else s

/-- `MemWrite` (20 R62, R66 to R69). While the reset input is asserted the unit does nothing (70 R300). -/
def hostWrite (r : WinReg) (v : Word32) (s : State) : State :=
  if s.inReset then s
  else
    match r with
    | .id => s
    | .ctrl => writeCtrl v s
    | .status => s
    | .cmd => writeCmd v s
    | .reserved _ => s
    | .dbuf k => writeDbuf k v s

/-- The reset input is asserted (70 R300): a command in progress is abandoned, nothing survives. -/
def assertReset (s : State) : State := { unitReset s with inReset := true }

/-- The reset input is released (70 R300): the state is exactly the table of 10 R45. An input that is not asserted has nothing to release. -/
def releaseReset (s : State) : State := if s.inReset then { unitReset s with inReset := false } else s

end Sys2Proof.Machine
end

