-- ==== Sys2Proof/Machine/Complete.lean ====
section
/-! DEFINITION. The unit's one enabled step, *complete* (20 R70), and what one event does (20 R71). -/

namespace Sys2Proof.Machine

/-- *complete* (20 R70): evaluate the command in `CMD`; a word that spells no command faults with `E_ILLEGAL` before any register is
examined (30 R108, 60 R266). -/
def complete (s : State) : Out :=
  match decode s.cmd with
  | .ok i => exec i s
  | .error _ => takeFault .illegal s

/-- The unit's turn: *complete* while BUSY (20 R70). In IDLE and FAULT it has no enabled step, and while the reset input is asserted it does
nothing (10 R33, 60 R270, 70 R300): nothing changes. -/
def unitMove (s : State) : Out :=
  if s.inReset then .next s
  else
    match s.run with
    | .busy => complete s
    | .idle => .next s
    | .fault => .next s

/-- One event of the total order of 20 R71. -/
def applyEvent (e : Event) (s : State) : Out :=
  match e with
  | .read r => .next (hostRead r s)
  | .write r v => .next (hostWrite r v s)
  | .assertReset => .next (assertReset s)
  | .releaseReset => .next (releaseReset s)
  | .unitTurn => unitMove s

/-- The unit with no event left to come: it moves alone. In FAULT it is stuck, since only reset leaves that state (60 R271; 93 U12). -/
def unitAlone (s : State) : Out :=
  if s.inReset = false ∧ s.run = .fault then .fault .stuckInFault else unitMove s

/-- The next event of a state, or the unit alone (20 R71). -/
def nextEvent (s : State) : Out :=
  match s.events with
  | [] => unitAlone s
  | e :: rest => applyEvent e { s with events := rest }

/-- The state in which the word `w` is the accepted command and nothing stands before its completion (20 R66, R70): the word is in `CMD`,
the unit is BUSY and not held in reset, and no other event comes first. -/
def placeCommand (s : State) (nbits w : Nat) : State :=
  { s with cmd := BitVec.ofNat 32 (w % 2 ^ nbits), run := .busy, inReset := false, events := [] }

end Sys2Proof.Machine
end

