-- ==== Sys2Proof/Machine/Step.lean ====
section
/-! DEFINITION. One step of the machine: the next event of the total order of 20 R71. -/

namespace Sys2Proof.Machine

/-- One step (20 R70, R71): the first pending event, or, with none pending, the unit's own step. -/
def step (s : State) : Host.Outcome State Fault Refusal := nextEvent s

/-- `s` with the command word `w` accepted and its completion next. Log entry 9. -/
def State.withFetchWord (s : State) (nbits w : Nat) : State := placeCommand s nbits w

end Sys2Proof.Machine
end

