-- ==== Sys2Proof/Machine/Jacobian.lean ====
section
/-! DEFINITION. The internal datapath of the point commands (spec file 44): Jacobian triples, with the operations on plain residues, and
the same operations on Montgomery forms (44 R247). A refinement: no command's meaning is written with it (44 R240, R246). -/

namespace Sys2Proof.Arith

/-- A Jacobian triple of naturals below the modulus (44 R241). -/
structure Triple where
  X : Nat
  Y : Nat
  Z : Nat
  deriving DecidableEq, Repr

/-- `(1, 1, 0)`, the triple every rule of file 44 gives for infinity. -/
def jinf : Triple := ⟨1, 1, 0⟩

/-- Entry into the datapath (44 R241). -/
def jentry : Point Nat → Triple
  | .infinity => jinf
  | .affine x y => ⟨x, y, 1⟩

/-- Normalisation, the one inversion of a point command (44 R244), over a multiplication `mul` and an inversion `inv` on the number form the
datapath uses, with `out` the way out of that form (44 R247). -/
def jnormWith (mul : Nat → Nat → Nat) (inv out : Nat → Nat) (T : Triple) : Point Nat :=
  if T.Z = 0 then .infinity
  else
    let zi := inv T.Z
    .affine (out (mul T.X (mul zi zi))) (out (mul T.Y (mul zi (mul zi zi))))

/-- Normalisation on plain residues (44 R244), with the Fermat inverse of 41 R158. -/
def jnorm (M : Nat) (T : Triple) : Point Nat := jnormWith (fmul M) (finv M) id T

/-- `2 * u` and its repetitions are repeated `fadd` (44 R242). -/
def fdbl (M u : Nat) : Nat := fadd M u u

/-- The point doubler (44 R242), over a multiplication `mul` on the number form the datapath uses (44 R247). -/
def jdblWith (mul : Nat → Nat → Nat) (one : Nat) (M A : Nat) (T : Triple) : Triple :=
  if T.Z = 0 ∨ T.Y = 0 then ⟨one, one, 0⟩
  else
    let yy := mul T.Y T.Y
    let zz := mul T.Z T.Z
    let xx := mul T.X T.X
    let S := fdbl M (fdbl M (mul T.X yy))
    let Mm := fadd M (fadd M (fdbl M xx) xx) (mul A (mul zz zz))
    let X3 := fsub M (mul Mm Mm) (fdbl M S)
    let Y3 := fsub M (mul Mm (fsub M S X3)) (fdbl M (fdbl M (fdbl M (mul yy yy))))
    let Z3 := fdbl M (mul T.Y T.Z)
    ⟨X3, Y3, Z3⟩

/-- The point adder (44 R243), over a multiplication `mul`. -/
def jaddWith (mul : Nat → Nat → Nat) (one : Nat) (M A : Nat) (T1 T2 : Triple) : Triple :=
  if T1.Z = 0 then T2
  else if T2.Z = 0 then T1
  else
    let zz1 := mul T1.Z T1.Z
    let zz2 := mul T2.Z T2.Z
    let U1 := mul T1.X zz2
    let U2 := mul T2.X zz1
    let S1 := mul T1.Y (mul T2.Z zz2)
    let S2 := mul T2.Y (mul T1.Z zz1)
    let H := fsub M U2 U1
    let r := fsub M S2 S1
    if H = 0 then (if r = 0 then jdblWith mul one M A T1 else ⟨one, one, 0⟩)
    else
      let HH := mul H H
      let HHH := mul H HH
      let V := mul U1 HH
      let X3 := fsub M (fsub M (mul r r) HHH) (fdbl M V)
      let Y3 := fsub M (mul r (fsub M V X3)) (mul S1 HHH)
      let Z3 := mul H (mul T1.Z T2.Z)
      ⟨X3, Y3, Z3⟩

/-- The point doubler on plain residues (44 R242). -/
def jdbl (M A : Nat) (T : Triple) : Triple := jdblWith (fmul M) 1 M A T

/-- The point adder on plain residues (44 R243). -/
def jadd (M A : Nat) (T1 T2 : Triple) : Triple := jaddWith (fmul M) 1 M A T1 T2

/-- The loop of `SMUL` on the datapath (44 R245), over the adder and the doubler of the number form the datapath uses (44 R247). -/
def jsmulLoopWith (add : Triple → Triple → Triple) (dbl : Triple → Triple) : Nat → Triple → Triple → Nat → Triple
  | 0, acc, _, _ => acc
  | fuel + 1, acc, cur, k =>
    if k = 0 then acc
    else jsmulLoopWith add dbl fuel (if k % 2 = 1 then add acc cur else acc) (dbl cur) (k / 2)

/-- The loop of `SMUL` on plain residues (44 R245). -/
def jsmulLoop (M A fuel : Nat) (acc cur : Triple) (k : Nat) : Triple := jsmulLoopWith (jadd M A) (jdbl M A) fuel acc cur k

/-- `PADD` on the datapath (44 R245). -/
def jPadd (M A : Nat) (P Q : Point Nat) : Point Nat := jnorm M (jadd M A (jentry P) (jentry Q))

/-- `PDBL` on the datapath (44 R245). -/
def jPdbl (M A : Nat) (P : Point Nat) : Point Nat := jnorm M (jdbl M A (jentry P))

/-- `SMUL` on the datapath: one inversion, at the end (44 R245). -/
def jSmul (M A : Nat) (P : Point Nat) (k : Nat) : Point Nat := jnorm M (jsmulLoop M A 256 jinf (jentry P) k)

/-- A triple with every coordinate in Montgomery form (44 R247). -/
def montTriple (M : Nat) (T : Triple) : Triple := ⟨mont M T.X, mont M T.Y, mont M T.Z⟩

/-- The point doubler on Montgomery forms: every multiplication is `mp` (44 R247). -/
def jdblMont (M A : Nat) (T : Triple) : Triple := jdblWith (mp M) (mont M 1) M (mont M A) T

/-- The point adder on Montgomery forms: every multiplication is `mp` (44 R247). -/
def jaddMont (M A : Nat) (T1 T2 : Triple) : Triple := jaddWith (mp M) (mont M 1) M (mont M A) T1 T2

/-- Normalisation on Montgomery forms: every multiplication is `mp`, those of the inversion too, and the result leaves by `FROMMONT`'s
function (44 R247). -/
def jnormMont (M : Nat) (T : Triple) : Point Nat := jnormWith (mp M) (finvMont M) (unmont M) T

/-- Entry into the datapath on Montgomery forms: the coordinates go through `TOMONT`'s function (44 R247). -/
def jentryMont (M : Nat) (P : Point Nat) : Triple := montTriple M (jentry P)

/-- `PADD` on Montgomery forms (44 R245, R247). -/
def jPaddMont (M A : Nat) (P Q : Point Nat) : Point Nat := jnormMont M (jaddMont M A (jentryMont M P) (jentryMont M Q))

/-- `PDBL` on Montgomery forms (44 R245, R247). -/
def jPdblMont (M A : Nat) (P : Point Nat) : Point Nat := jnormMont M (jdblMont M A (jentryMont M P))

/-- `SMUL` on Montgomery forms: one conversion in, one inversion and one conversion out (44 R245, R247). -/
def jSmulMont (M A : Nat) (P : Point Nat) (k : Nat) : Point Nat :=
  jnormMont M (jsmulLoopWith (jaddMont M A) (jdblMont M A) 256 (montTriple M jinf) (jentryMont M P) k)

end Sys2Proof.Arith
end

