-- ==== Sys2Proof/Safety.lean ====
section
/-! DEFINITION. What counts as a legal state (10 R35) and a successful run (70 R312), in the terms the statements use. -/

namespace Sys2Proof.Machine

/-- A legal modulus (40 R122, 10 R35 I1): odd and at least 3. -/
def LegalModulus (M : Nat) : Prop := M % 2 = 1 ∧ 3 ≤ M

/-- I1 (10 R35): a valid modulus bank holds a legal modulus. -/
def ModuliLegal (s : State) : Prop := ∀ b m, s.modulus b = some m → LegalModulus m.toNat

/-- I2 (10 R35): a valid field register tagged with a bank holds a residue of that bank's valid modulus. -/
def FieldsReduced (s : State) : Prop :=
  ∀ i r b, s.fReg i = some r → r.tag = b.tag → ∃ m, s.modulus b = some m ∧ r.val.toNat < m.toNat

/-- I4 (10 R35): a valid curve bank holds residues of the valid coordinate modulus. -/
def CurvesReduced (s : State) : Prop :=
  ∀ c k, s.curve c = some k → ∃ m, s.modFP = some m ∧ k.a.toNat < m.toNat ∧ k.b.toNat < m.toNat

/-- The coordinates of a point are residues of `M`. -/
def PointReduced (M : Nat) (q : Point Nat) : Prop := ∀ x y, q = .affine x y → x < M ∧ y < M

/-- I5 (10 R35): a valid point register names a valid curve bank, and its coordinates are residues of the coordinate modulus. -/
def PointsReduced (s : State) : Prop :=
  ∀ i q, s.pReg i = some q →
    (∃ k, s.curve q.crv = some k) ∧ ∃ m, s.modFP = some m ∧ PointReduced m.toNat (ptOf q)

/-- A mathematical point is on the curve `(A, B)` modulo `M` (00 R12); infinity is on every curve. -/
def PointOn (M A B : Nat) (q : Point Nat) : Prop := ∀ x y, q = .affine x y → Arith.onCurve M A B x y = true

/-- I6 (10 R35): over a prime coordinate modulus every valid point is on its curve. -/
def PointsOnCurve (s : State) : Prop :=
  ∀ i q m k, s.pReg i = some q → s.modFP = some m → m.toNat.Prime → s.curve q.crv = some k →
    PointOn m.toNat k.a.toNat k.b.toNat (ptOf q)

/-- I7 (10 R35): `ERRCODE != 0` if and only if `RUN == FAULT`. -/
def CodeIffFault (s : State) : Prop := s.err ≠ none ↔ s.run = .fault

/-- While the reset input is asserted the unit holds its reset values (70 R300). -/
def HeldIsReset (s : State) : Prop := s.inReset = true → s = { unitReset s with inReset := true }

/-- The invariant of 10 R35 without I6; I3 holds by the width of a word. -/
structure StateInv (s : State) : Prop where
  moduli : ModuliLegal s
  fields : FieldsReduced s
  curves : CurvesReduced s
  points : PointsReduced s
  code : CodeIffFault s
  held : HeldIsReset s

/-- A run has succeeded so far (70 R312): no fault, and no host write dropped. -/
def Clean (s : State) : Prop := s.run ≠ .fault ∧ s.ovr = false

/-- What `n` steps answer: they end at the first stop. -/
def stepN : Nat → State → Out
  | 0, s => .next s
  | n + 1, s =>
    match step s with
    | .next t => stepN n t
    | .fault r => .fault r
    | .refused r => .refused r

/-- The index of a modulus bank (00 R7, 10 R21). -/
def bankNum : Bank → Nat
  | .fp => 0
  | .fn => 1

/-- The index of a curve bank (10 R23). -/
def curveNum : CurveIdx → Nat
  | .c0 => 0
  | .c1 => 1

/-- The word `op * 2^24 + d * 2^20 + a * 2^16 + b * 2^12 + imm` of 30 R91, with `z` zero, spells the command `i`. -/
def Spells (op d a b imm : Nat) (i : Instr) : Prop :=
  decode (BitVec.ofNat 32 (op * 2 ^ 24 + d * 2 ^ 20 + a * 2 ^ 16 + b * 2 ^ 12 + imm)) = .ok i

/-- The faults each command can raise besides `E_ILLEGAL` (60 R267). -/
def faultsOf : Instr → List ErrCode
  | .ldmod _ => [.badmod]
  | .ldcrv _ _ _ => [.uninit, .domain]
  | .ldf _ _ => [.nomod, .range]
  | .ldi _ => []
  | .stf _ => [.uninit]
  | .movf _ _ => [.uninit]
  | .red _ _ _ => [.uninit, .nomod]
  | .add _ _ _ => [.uninit, .domain]
  | .sub _ _ _ => [.uninit, .domain]
  | .mul _ _ _ => [.uninit, .domain]
  | .pow _ _ _ _ => [.uninit, .domain]
  | .inv _ _ => [.uninit, .domain, .zeroInv]
  | .div _ _ _ => [.uninit, .domain, .zeroInv]
  | .cmpf _ _ => [.uninit, .domain]
  | .mmul _ _ _ => [.uninit, .domain]
  | .tomont _ _ => [.uninit, .domain]
  | .frommont _ _ => [.uninit, .domain]
  | .ldp _ _ _ _ _ _ => [.partialPoint, .uninit, .nocrv, .domain, .notOnCurve]
  | .getx _ _ => [.uninit, .infCoord]
  | .gety _ _ => [.uninit, .infCoord]
  | .movp _ _ => [.uninit]
  | .tstp _ => [.uninit]
  | .cmpp _ _ => [.uninit, .curve]
  | .padd _ _ _ => [.uninit, .curve]
  | .pdbl _ _ => [.uninit]
  | .smul _ _ _ => [.uninit, .nomod, .domain]

/-- The commands that write a field register, and with it `Z` (10 R29). -/
def writesField : Instr → Option FIdx
  | .ldf d _ | .ldi d | .movf d _ | .red d _ _ | .add d _ _ | .sub d _ _ | .mul d _ _ | .pow d _ _ _ | .inv d _
  | .div d _ _ | .mmul d _ _ | .tomont d _ | .frommont d _ | .getx d _ | .gety d _ => some d
  | .ldmod _ | .ldcrv _ _ _ | .stf _ | .cmpf _ _ | .ldp _ _ _ _ _ _ | .movp _ _ | .tstp _ | .cmpp _ _
  | .padd _ _ _ | .pdbl _ _ | .smul _ _ _ => none

/-- The commands that write a point register, and with it `INF` (10 R29). -/
def writesPoint : Instr → Option PIdx
  | .ldp d _ _ _ _ _ | .movp d _ | .padd d _ _ | .pdbl d _ | .smul d _ _ => some d
  | .ldmod _ | .ldcrv _ _ _ | .ldf _ _ | .ldi _ | .stf _ | .movf _ _ | .red _ _ _ | .add _ _ _ | .sub _ _ _
  | .mul _ _ _ | .pow _ _ _ _ | .inv _ _ | .div _ _ _ | .cmpf _ _ | .mmul _ _ _ | .tomont _ _ | .frommont _ _
  | .getx _ _ | .gety _ _ | .tstp _ | .cmpp _ _ => none

/-- The field registers a command reads (60 R263). `LDP` reads `Fa` and `Fb` only when both coordinates are present (30 R104). -/
def readsF : Instr → List FIdx
  | .ldcrv a b _ | .add _ a b | .sub _ a b | .mul _ a b | .pow _ a b _ | .div _ a b | .cmpf a b | .mmul _ a b => [a, b]
  | .stf a | .movf _ a | .red _ a _ | .inv _ a | .tomont _ a | .frommont _ a => [a]
  | .ldp _ a b _ px py => if px && py then [a, b] else []
  | .smul _ _ b => [b]
  | .ldmod _ | .ldf _ _ | .ldi _ | .getx _ _ | .gety _ _ | .movp _ _ | .tstp _ | .cmpp _ _ | .padd _ _ _ | .pdbl _ _ => []

/-- The point registers a command reads (60 R263). -/
def readsP : Instr → List PIdx
  | .getx _ a | .gety _ a | .movp _ a | .tstp a | .pdbl _ a | .smul _ a _ => [a]
  | .cmpp a b | .padd _ a b => [a, b]
  | .ldmod _ | .ldcrv _ _ _ | .ldf _ _ | .ldi _ | .stf _ | .movf _ _ | .red _ _ _ | .add _ _ _ | .sub _ _ _
  | .mul _ _ _ | .pow _ _ _ _ | .inv _ _ | .div _ _ _ | .cmpf _ _ | .mmul _ _ _ | .tomont _ _ | .frommont _ _
  | .ldp _ _ _ _ _ _ => []

/-- The state after a command wrote the natural `v` to `F[d]` with tag `t`, wrote `Z`, and completed (00 R11, 20 R70): nothing else has
changed. -/
def wroteF (d : FIdx) (t : Tag) (v : Nat) (s : State) : State :=
  { s with f := s.f.set d (some ⟨t, Arith.toWord v⟩), z := decide (v = 0), run := .idle }

/-- The state after a command wrote the point `q` to `P[d]` with curve bank `c`, wrote `INF`, and completed: nothing else has changed. -/
def wroteP (d : PIdx) (c : CurveIdx) (q : Point Nat) (s : State) : State :=
  { s with p := s.p.set d (some ⟨c, q.map Arith.toWord⟩), inf := q.isInf, run := .idle }

/-- The state after a fault (60 R270): the record, and nothing else. -/
def faultRecord (e : ErrCode) (s : State) : State := { s with err := some e, run := .fault }

/-- The unit's state is the table of 10 R45, whatever the host has still to do. -/
def IsResetState (t : State) : Prop :=
  t.run = .idle ∧ t.z = false ∧ t.inf = false ∧ t.eq = false ∧ t.ovr = false ∧ errByte t.err = 0x00#8 ∧ t.cmd = 0#32 ∧
    t.dbuf = 0#256 ∧ (∀ b, t.modulus b = none) ∧ (∀ c, t.curve c = none) ∧ (∀ i, t.fReg i = none) ∧ (∀ i, t.pReg i = none)

end Sys2Proof.Machine
end

