-- ==== Sys2Proof/Certificates/Slice0/Obligations.lean ====
section
/-! DEFINITION. The statements for the provers, from the numbered rules of spec/. Every equation `exec i s = .next { s with … }` says the
instruction's own effect, that it completes, and its frame: a field that the braces do not name has not changed. -/

open Sys2Proof Sys2Proof.Machine Sys2Proof.Arith

/-! ### Encodings (spec file 30) -/

/-- Words written out bit by bit in 95 section 9 (V9.2, V9.8, V9.11, V9.17, V9.19, V9.22, V9.28) and three illegal ones (V9.29, V9.42, V9.47). -/
def Obligations.SampleWordsDecode : Prop :=
  decode 0x11001000#32 = .ok (.ldcrv 0 1 .c0) ∧ decode 0x20312000#32 = .ok (.add 3 1 2) ∧
  decode 0x23210001#32 = .ok (.pow 2 1 0 true) ∧ decode 0x32420000#32 = .ok (.frommont 4 2) ∧
  decode 0x407AB007#32 = .ok (.ldp 7 10 11 .c1 true true) ∧ decode 0x42F70000#32 = .ok (.gety 15 7) ∧
  decode 0x4A10F000#32 = .ok (.smul 1 0 15) ∧
  decode 0x00000000#32 = .error .reservedOp ∧ decode 0x14150000#32 = .error .fieldD ∧ decode 0x48801000#32 = .error .fieldD

/-- 30 R91: `w = op * 2^24 + d * 2^20 + a * 2^16 + b * 2^12 + z * 2^8 + imm`, and the fields are where its table puts them. -/
def Obligations.WordLayout : Prop :=
  (∀ f : Fields, (wordOf f).toNat =
    f.op.toNat * 2 ^ 24 + f.d.toNat * 2 ^ 20 + f.a.toNat * 2 ^ 16 + f.b.toNat * 2 ^ 12 + f.z.toNat * 2 ^ 8 + f.imm.toNat) ∧
  ∀ w : Word32,
    (fieldsOf w).op.toNat = w.toNat / 2 ^ 24 ∧ (fieldsOf w).d.toNat = w.toNat / 2 ^ 20 % 16 ∧
    (fieldsOf w).a.toNat = w.toNat / 2 ^ 16 % 16 ∧ (fieldsOf w).b.toNat = w.toNat / 2 ^ 12 % 16 ∧
    (fieldsOf w).z.toNat = w.toNat / 2 ^ 8 % 16 ∧ (fieldsOf w).imm.toNat = w.toNat % 2 ^ 8

/-- Decoding the word of any command gives the command back, with every operand at every value (30 R91, R95, R96). -/
def Obligations.DecodeOfEncode : Prop := ∀ i : Instr, decode (encode i) = .ok i

/-- A legal word has one meaning and no hidden bits: it is the word of what it decodes to (30 R96, R108). -/
def Obligations.EncodeOfDecode : Prop := ∀ (w : Word32) (i : Instr), decode w = .ok i → encode i = w

/-- 30 R95: a word `w` spells the command of a row iff `w & mask == match`; the decoder of 30 R96 agrees. -/
def Obligations.DecoderAgreesWithMasks : Prop :=
  ∀ w : Word32, ∀ r ∈ maskTable, w &&& r.mask = r.matchWord ↔ ∃ i, decode w = .ok i ∧ mnemonic i = r.mnemonic

/-! ### The step (spec files 20, 30) -/

/-- 20 R70: when the word in `CMD` decodes to `i`, a step at which the unit moves is `exec i`, on the state without the event that gave the
unit its turn. -/
def Obligations.StepRunsDecodedCommand : Prop :=
  ∀ (s : State) (i : Instr), s.run = .busy → s.inReset = false → decode s.cmd = .ok i → wellFormed i = true →
    (s.events = [] → step s = exec i s) ∧
    ∀ rest, s.events = .unitTurn :: rest → step s = exec i { s with events := rest }

/-- 30 R108: a word that spells no command is accepted by a write to `CMD`, and faults at completion with `E_ILLEGAL`, whatever the
registers hold; every word of a reserved `op` range is such a word. -/
def Obligations.IllegalWordFaults : Prop :=
  (∀ (s : State) (w : Word32) (why : Illegal) (rest : List Event), decode w = .error why → s.run = .idle → s.inReset = false →
    s.events = .write .cmd w :: rest → step s = .next { s with events := rest, cmd := w, run := .busy }) ∧
  (∀ (s : State) (why : Illegal), decode s.cmd = .error why → s.run = .busy → s.inReset = false →
    (s.events = [] → step s = .next (faultRecord .illegal s)) ∧
    (∀ rest, s.events = .unitTurn :: rest → step s = .next (faultRecord .illegal { s with events := rest }))) ∧
  ∀ w : Word32, (w.toNat / 2 ^ 24 ≤ 0x0F ∨ (0x17 ≤ w.toNat / 2 ^ 24 ∧ w.toNat / 2 ^ 24 ≤ 0x1F) ∨
      (0x27 ≤ w.toNat / 2 ^ 24 ∧ w.toNat / 2 ^ 24 ≤ 0x2F) ∨ (0x33 ≤ w.toNat / 2 ^ 24 ∧ w.toNat / 2 ^ 24 ≤ 0x3F) ∨
      w.toNat / 2 ^ 24 = 0x46 ∨ w.toNat / 2 ^ 24 = 0x47 ∨ 0x4B ≤ w.toNat / 2 ^ 24) → ∃ why, decode w = .error why

/-! ### Reset and the host window (spec files 10, 20, 70) -/

/-- 10 R45 and 70 R300: the state after reset, and what a hardware reset does: from any state it leaves the table of 10 R45; while it is
asserted the unit does nothing and the window reads as the reset values; when it is released the table still stands. -/
def Obligations.HardwareReset : Prop :=
  IsResetState State.reset ∧ statusWord State.reset = 0#32 ∧ windowRead .id State.reset = 0x4D323536#32 ∧
  (∀ (s : State) (rest : List Event), s.events = .assertReset :: rest →
    ∃ t, step s = .next t ∧ IsResetState t ∧ t.inReset = true ∧ t.events = rest) ∧
  (∀ (s : State) (e : Event) (rest : List Event), s.inReset = true → s.events = e :: rest →
    (e = .unitTurn ∨ ∃ r v, e = .write r v) → step s = .next { s with events := rest }) ∧
  (∀ (s : State) (r : WinReg) (rest : List Event), s.inReset = true → s.events = .read r :: rest →
    step s = .next { s with events := rest, replies := windowRead r State.reset :: s.replies }) ∧
  (∀ (s : State) (rest : List Event), s.inReset = true → s.events = .releaseReset :: rest →
    ∃ t, step s = .next t ∧ IsResetState t ∧ t.inReset = false ∧ t.events = rest)

/-- 10 R31, 70 R301: `CTRL` is at offset 0x04 and reads as 0; a write to it with bit 0 set resets the unit in any run state, at once, and a
command in progress has no effect; with bit 0 clear nothing happens, whatever bits 31:1 are. -/
def Obligations.SoftReset : Prop :=
  winOffset .ctrl = 0x04 ∧ (∀ s : State, windowRead .ctrl s = 0#32) ∧
  ∀ (s : State) (v : Word32) (rest : List Event), s.inReset = false → s.events = .write .ctrl v :: rest →
    (v.getLsbD 0 = true → ∃ t, step s = .next t ∧ IsResetState t ∧ statusWord t = 0#32 ∧ t.inReset = false ∧ t.events = rest ∧
      t.replies = s.replies) ∧
    (v.getLsbD 0 = false → step s = .next { s with events := rest })

/-- 20 R66, R67: a write to `CMD` is accepted in IDLE, whatever the word, and changes nothing else; in BUSY and FAULT it is dropped and sets
`OVR`. -/
def Obligations.CmdWriteAcceptedOrDropped : Prop :=
  ∀ (s : State) (v : Word32) (rest : List Event), s.inReset = false → s.events = .write .cmd v :: rest →
    (s.run = .idle → step s = .next { s with events := rest, cmd := v, run := .busy }) ∧
    (s.run ≠ .idle → step s = .next { s with events := rest, ovr := true })

/-- 20 R67: a write to `CMD` or `DBUFk` in BUSY or FAULT is dropped and sets `OVR`; a write to `DBUFk` in IDLE replaces bits `32k+31..32k` of
`DBUF` and does nothing else; and `OVR` stays 1 until reset. -/
def Obligations.DroppedAndTakenWrites : Prop :=
  (∀ (s : State) (r : WinReg) (v : Word32) (rest : List Event), s.inReset = false → s.events = .write r v :: rest → s.run ≠ .idle →
    (r = .cmd ∨ ∃ k, r = .dbuf k) → step s = .next { s with events := rest, ovr := true }) ∧
  (∀ (s : State) (k : Fin 8) (v : Word32) (rest : List Event), s.inReset = false → s.events = .write (.dbuf k) v :: rest → s.run = .idle →
    ∃ u : Word, step s = .next { s with events := rest, dbuf := u } ∧
      ∀ n, n < 256 → u.getLsbD n = if 32 * k.val ≤ n ∧ n < 32 * k.val + 32 then v.getLsbD (n - 32 * k.val) else s.dbuf.getLsbD n) ∧
  ∀ s t : State, s.ovr = true → step s = .next t → t.ovr = true ∨ IsResetState t

/-- 20 R64: `DBUF = sum over k of DBUFk * 2^(32k)`. -/
def Obligations.DbufIsSumOfWords : Prop :=
  ∀ v : Word, v.toNat = ∑ k : Fin 8, (dbufWord k v).toNat * 2 ^ (32 * k.val)

/-- 20 R69: a write to `ID`, `STATUS` or a reserved offset is ignored in every run state and does not set `OVR`; a write to `CTRL` resets the
unit in every run state if bit 0 is set, and is ignored if it is clear, whatever bits 31:1 are. -/
def Obligations.OtherWrites : Prop :=
  (∀ (s : State) (r : WinReg) (v : Word32) (rest : List Event), s.events = .write r v :: rest →
    (r = .id ∨ r = .status ∨ ∃ k, r = .reserved k) → step s = .next { s with events := rest }) ∧
  ∀ (s : State) (v : Word32) (rest : List Event), s.inReset = false → s.events = .write .ctrl v :: rest →
    (v.getLsbD 0 = true → ∃ t, step s = .next t ∧ IsResetState t ∧ t.events = rest) ∧
    (v.getLsbD 0 = false → step s = .next { s with events := rest })

/-- 20 R65: a read changes no state of the unit, and what it returns (the newest of `replies`). Of a `DBUFk` read while BUSY it says nothing
but that. -/
def Obligations.ReadsReturnTheWindow : Prop :=
  ∀ (s : State) (r : WinReg) (rest : List Event), s.inReset = false → s.events = .read r :: rest →
    ∃ v n, step s = .next { s with events := rest, replies := v :: s.replies, draws := n } ∧
      (r = .id → v = 0x4D323536#32) ∧ (r = .ctrl → v = 0#32) ∧ (r = .status → v = statusWord s) ∧ (r = .cmd → v = s.cmd) ∧
      (∀ k, r = .reserved k → v = 0#32) ∧
      (∀ k, r = .dbuf k → s.run ≠ .busy → v.toNat = s.dbuf.toNat / 2 ^ (32 * k.val) % 2 ^ 32)

/-- 20 R68, in the model's form (log entry 5): a read of `DBUFk` while BUSY returns the next free draw, whatever it is, and uses it up; no other
read draws. -/
def Obligations.BusyReadIsAFreeDraw : Prop :=
  ∀ (s : State) (r : WinReg) (rest : List Event), s.inReset = false → s.events = .read r :: rest →
    (s.run = .busy → ∀ k, r = .dbuf k →
      step s = .next { s with events := rest, replies := Config.busyRead s.draws :: s.replies, draws := s.draws + 1 }) ∧
    (s.run ≠ .busy ∨ (∀ k, r ≠ .dbuf k) → ∃ v, step s = .next { s with events := rest, replies := v :: s.replies })

/-- 10 R28: `STATUS` is at offset 0x08, its bits are those of the rule's table, with the codes of 60 R262 in bits 15:8; it reads as 0 after
reset; `BUSY` and `FAULT` are never both 1, and both are 0 exactly in IDLE; writes to it are ignored. -/
def Obligations.StatusLayout : Prop :=
  winOffset .status = 0x08 ∧ statusWord State.reset = 0#32 ∧
  ∀ s : State,
    (statusWord s).getLsbD 0 = decide (s.run = .busy) ∧ (statusWord s).getLsbD 1 = decide (s.run = .fault) ∧
    (statusWord s).getLsbD 2 = s.ovr ∧ (statusWord s).getLsbD 3 = false ∧ (statusWord s).getLsbD 4 = s.z ∧
    (statusWord s).getLsbD 5 = s.inf ∧ (statusWord s).getLsbD 6 = s.eq ∧ (statusWord s).getLsbD 7 = false ∧
    (statusWord s).toNat / 2 ^ 8 = (errByte s.err).toNat ∧
    ((statusWord s).getLsbD 0 && (statusWord s).getLsbD 1) = false ∧
    (s.run = .idle ↔ (statusWord s).getLsbD 0 = false ∧ (statusWord s).getLsbD 1 = false) ∧
    ∀ v rest, s.events = .write .status v :: rest → step s = .next { s with events := rest }

/-- 20 R60 to R63: the map of the window; each register is at one aligned offset below 64, each aligned offset below 64 is a register, and the
host has a move only for four-byte accesses of the window at `BASE`, a multiple of 64. -/
def Obligations.WindowMap : Prop :=
  (∀ r : WinReg, winAt (winOffset r) = some r ∧ winOffset r % 4 = 0 ∧ winOffset r < 0x40) ∧
  (∀ off r, winAt off = some r → winOffset r = off) ∧
  (∀ off, off % 4 = 0 → off < 0x40 → ∃ r, winAt off = some r) ∧
  winAt 0x00 = some .id ∧ winAt 0x04 = some .ctrl ∧ winAt 0x08 = some .status ∧ winAt 0x0C = some .cmd ∧
  (∀ k : Fin 4, winAt (0x10 + 4 * k.val) = some (.reserved k)) ∧ (∀ k : Fin 8, winAt (0x20 + 4 * k.val) = some (.dbuf k)) ∧
  Config.base % 64 = 0 ∧
  ∀ addr size r, winOfAccess addr size = some r ↔ size = 4 ∧ addr = Config.base + winOffset r

/-! ### Data movement (spec file 40) -/

/-- 40 R122, 10 R36: `LDMOD`. -/
def Obligations.LdmodMeaning : Prop :=
  ∀ (b : Bank) (s : State), Spells 0x10 0 0 0 (bankNum b) (.ldmod b) ∧
    (¬ LegalModulus s.dbuf.toNat → exec (.ldmod b) s = .next (faultRecord .badmod s)) ∧
    (LegalModulus s.dbuf.toNat → ∃ t, exec (.ldmod b) s = .next t ∧
      t = { s with modFP := t.modFP, modFN := t.modFN, crv0 := t.crv0, crv1 := t.crv1, f := t.f, p := t.p, run := .idle } ∧
      (∀ n, t.modulus n = if n = b then some s.dbuf else s.modulus n) ∧
      (∀ i r, t.fReg i = some r ↔ s.fReg i = some r ∧ r.tag ≠ b.tag) ∧
      (∀ c, t.curve c = if b = .fp then none else s.curve c) ∧
      (∀ i, t.pReg i = if b = .fp then none else s.pReg i))

/-- 40 R124, 10 R36: `LDCRV`. -/
def Obligations.LdcrvMeaning : Prop :=
  ∀ (a b : FIdx) (c : CurveIdx) (s : State), Spells 0x11 0 a b (curveNum c) (.ldcrv a b c) ∧
    (s.fReg a = none ∨ s.fReg b = none → exec (.ldcrv a b c) s = .next (faultRecord .uninit s)) ∧
    (∀ ra rb, s.fReg a = some ra → s.fReg b = some rb →
      (ra.tag ≠ .fp ∨ rb.tag ≠ .fp → exec (.ldcrv a b c) s = .next (faultRecord .domain s)) ∧
      (ra.tag = .fp → rb.tag = .fp → ∃ t, exec (.ldcrv a b c) s = .next t ∧
        t = { s with crv0 := t.crv0, crv1 := t.crv1, p := t.p, run := .idle } ∧
        (∀ n, t.curve n = if n = c then some ⟨ra.val, rb.val⟩ else s.curve n) ∧
        (∀ i q, t.pReg i = some q ↔ s.pReg i = some q ∧ q.crv ≠ c)))

/-- 40 R126: `LDF`, the validating constructor. -/
def Obligations.LdfMeaning : Prop :=
  ∀ (d : FIdx) (b : Bank) (s : State), Spells 0x12 d 0 0 (bankNum b) (.ldf d b) ∧
    (s.modulus b = none → exec (.ldf d b) s = .next (faultRecord .nomod s)) ∧
    (∀ m, s.modulus b = some m →
      (m.toNat ≤ s.dbuf.toNat → exec (.ldf d b) s = .next (faultRecord .range s)) ∧
      (s.dbuf.toNat < m.toNat → exec (.ldf d b) s = .next (wroteF d b.tag s.dbuf.toNat s)))

/-- 40 R128, R130, R132: `LDI`, `STF`, `MOVF`. -/
def Obligations.LdiStfMovfMeaning : Prop :=
  ∀ (d a : FIdx) (s : State),
    Spells 0x13 d 0 0 0 (.ldi d) ∧ Spells 0x14 0 a 0 0 (.stf a) ∧ Spells 0x15 d a 0 0 (.movf d a) ∧
    exec (.ldi d) s = .next (wroteF d .raw s.dbuf.toNat s) ∧
    (s.fReg a = none → exec (.stf a) s = .next (faultRecord .uninit s) ∧ exec (.movf d a) s = .next (faultRecord .uninit s)) ∧
    (∀ r, s.fReg a = some r → exec (.stf a) s = .next { s with dbuf := r.val, run := .idle } ∧
      exec (.movf d a) s = .next (wroteF d r.tag r.val.toNat s))

/-- 40 R134: `RED`, from any tag into a bank. -/
def Obligations.RedMeaning : Prop :=
  ∀ (d a : FIdx) (b : Bank) (s : State), Spells 0x16 d a 0 (bankNum b) (.red d a b) ∧
    (s.fReg a = none → exec (.red d a b) s = .next (faultRecord .uninit s)) ∧
    (∀ r, s.fReg a = some r →
      (s.modulus b = none → exec (.red d a b) s = .next (faultRecord .nomod s)) ∧
      (∀ m, s.modulus b = some m → exec (.red d a b) s = .next (wroteF d b.tag (r.val.toNat % m.toNat) s)))

/-! ### Field arithmetic (spec file 41) -/

/-- 41 R151 to R154: `ADD`, `SUB`, `MUL`. -/
def Obligations.AddSubMulMeaning : Prop :=
  ∀ (d a b : FIdx) (s : State), ModuliLegal s →
    Spells 0x20 d a b 0 (.add d a b) ∧ Spells 0x21 d a b 0 (.sub d a b) ∧ Spells 0x22 d a b 0 (.mul d a b) ∧
    (∀ i ∈ [Instr.add d a b, .sub d a b, .mul d a b],
      (s.fReg a = none ∨ s.fReg b = none → exec i s = .next (faultRecord .uninit s)) ∧
      (∀ ra rb, s.fReg a = some ra → s.fReg b = some rb → ra.tag = .raw ∨ ra.tag ≠ rb.tag →
        exec i s = .next (faultRecord .domain s))) ∧
    (∀ (n : Bank) (x y m : Word), s.fReg a = some ⟨n.tag, x⟩ → s.fReg b = some ⟨n.tag, y⟩ → s.modulus n = some m →
      exec (.add d a b) s = .next (wroteF d n.tag ((x.toNat + y.toNat) % m.toNat) s) ∧
      exec (.sub d a b) s = .next (wroteF d n.tag ((x.toNat + m.toNat - y.toNat) % m.toNat) s) ∧
      exec (.mul d a b) s = .next (wroteF d n.tag ((x.toNat * y.toNat) % m.toNat) s))

/-- 41 R156: `POW`, with the power by the rule's own recursion; exponent 0 gives 1 for every base. -/
def Obligations.PowMeaning : Prop :=
  ∀ (d a b : FIdx) (neg : Bool) (s : State), ModuliLegal s →
    Spells 0x23 d a b neg.toNat (.pow d a b neg) ∧
    (s.fReg a = none ∨ s.fReg b = none → exec (.pow d a b neg) s = .next (faultRecord .uninit s)) ∧
    (∀ ra rb, s.fReg a = some ra → s.fReg b = some rb → ra.tag = .raw ∨ rb.tag ≠ .raw →
      exec (.pow d a b neg) s = .next (faultRecord .domain s)) ∧
    (∀ (n : Bank) (x e m : Word) (e1 : Nat), s.fReg a = some ⟨n.tag, x⟩ → s.fReg b = some ⟨.raw, e⟩ → s.modulus n = some m →
      e1 = (if neg then (m.toNat - 1 - e.toNat % (m.toNat - 1)) % (m.toNat - 1) else e.toNat % (m.toNat - 1)) →
      exec (.pow d a b neg) s = .next (wroteF d n.tag (powmodSpec m.toNat x.toNat e1) s))

/-- 41 R158, R160: `INV` and `DIV`; the value is the power `M - 2`, and the inverse of a non-zero operand when `M` is prime. -/
def Obligations.InvDivMeaning : Prop :=
  ∀ (d a b : FIdx) (s : State), ModuliLegal s →
    Spells 0x24 d a 0 0 (.inv d a) ∧ Spells 0x25 d a b 0 (.div d a b) ∧
    (s.fReg a = none → exec (.inv d a) s = .next (faultRecord .uninit s)) ∧
    (s.fReg a = none ∨ s.fReg b = none → exec (.div d a b) s = .next (faultRecord .uninit s)) ∧
    (∀ ra, s.fReg a = some ra → ra.tag = .raw → exec (.inv d a) s = .next (faultRecord .domain s)) ∧
    (∀ ra rb, s.fReg a = some ra → s.fReg b = some rb → ra.tag = .raw ∨ ra.tag ≠ rb.tag →
      exec (.div d a b) s = .next (faultRecord .domain s)) ∧
    (∀ (n : Bank) (x m : Word), s.fReg a = some ⟨n.tag, x⟩ → s.modulus n = some m →
      (x.toNat = 0 → exec (.inv d a) s = .next (faultRecord .zeroInv s)) ∧
      (x.toNat ≠ 0 → exec (.inv d a) s = .next (wroteF d n.tag (powmodSpec m.toNat x.toNat (m.toNat - 2)) s)) ∧
      (m.toNat.Prime → 0 < x.toNat → x.toNat < m.toNat →
        (x.toNat * powmodSpec m.toNat x.toNat (m.toNat - 2)) % m.toNat = 1)) ∧
    (∀ (n : Bank) (x y m : Word), s.fReg a = some ⟨n.tag, x⟩ → s.fReg b = some ⟨n.tag, y⟩ → s.modulus n = some m →
      (y.toNat = 0 → exec (.div d a b) s = .next (faultRecord .zeroInv s)) ∧
      (y.toNat ≠ 0 → exec (.div d a b) s =
        .next (wroteF d n.tag ((x.toNat * powmodSpec m.toNat y.toNat (m.toNat - 2)) % m.toNat) s)))

/-- 41 R162: `CMPF`; two `RAW` registers may be compared. -/
def Obligations.CmpfMeaning : Prop :=
  ∀ (a b : FIdx) (s : State), Spells 0x26 0 a b 0 (.cmpf a b) ∧
    (s.fReg a = none ∨ s.fReg b = none → exec (.cmpf a b) s = .next (faultRecord .uninit s)) ∧
    (∀ ra rb, s.fReg a = some ra → s.fReg b = some rb →
      (ra.tag ≠ rb.tag → exec (.cmpf a b) s = .next (faultRecord .domain s)) ∧
      (ra.tag = rb.tag → exec (.cmpf a b) s = .next { s with eq := decide (ra.val.toNat = rb.val.toNat), run := .idle }))

/-- 41 R164: the laws of the field commands' values over one legal modulus; the inverse law needs a prime one. -/
def Obligations.FieldLaws : Prop :=
  ∀ M x y w : Nat, LegalModulus M → M < 2 ^ 256 → x < M → y < M → w < M →
    fadd M x y = fadd M y x ∧ fadd M (fadd M x y) w = fadd M x (fadd M y w) ∧
    (M.Prime → x ≠ 0 → fmul M x (finv M x) = 1) ∧
    (∀ c, c < M → (fadd M c y = x ↔ c = fsub M x y)) ∧
    fdiv M x y = fmul M x (finv M y)

/-! ### The Montgomery multiplier (spec files 10, 42) -/

/-- 42 R182, R183, R184: `MMUL`, `TOMONT`, `FROMMONT`, with `Rinv` known only as the inverse of the radix in `[1, M)`; the two
conversions are the Montgomery products by `R2` and by 1. -/
def Obligations.MontgomeryCommandsMeaning : Prop :=
  ∀ (d a b : FIdx) (s : State), ModuliLegal s →
    Spells 0x30 d a b 0 (.mmul d a b) ∧ Spells 0x31 d a 0 0 (.tomont d a) ∧ Spells 0x32 d a 0 0 (.frommont d a) ∧
    (s.fReg a = none ∨ s.fReg b = none → exec (.mmul d a b) s = .next (faultRecord .uninit s)) ∧
    (∀ ra rb, s.fReg a = some ra → s.fReg b = some rb → ra.tag = .raw ∨ ra.tag ≠ rb.tag →
      exec (.mmul d a b) s = .next (faultRecord .domain s)) ∧
    (∀ i ∈ [Instr.tomont d a, .frommont d a],
      (s.fReg a = none → exec i s = .next (faultRecord .uninit s)) ∧
      (∀ ra, s.fReg a = some ra → ra.tag = .raw → exec i s = .next (faultRecord .domain s))) ∧
    (∀ (n : Bank) (x m : Word) (ri : Nat), s.fReg a = some ⟨n.tag, x⟩ → s.modulus n = some m →
      1 ≤ ri → ri < m.toNat → (2 ^ 256 * ri) % m.toNat = 1 →
      (x.toNat * 2 ^ 256) % m.toNat = mp m.toNat x.toNat (r2 m.toNat) ∧ (x.toNat * ri) % m.toNat = mp m.toNat x.toNat 1 ∧
      exec (.tomont d a) s = .next (wroteF d n.tag ((x.toNat * 2 ^ 256) % m.toNat) s) ∧
      exec (.frommont d a) s = .next (wroteF d n.tag ((x.toNat * ri) % m.toNat) s) ∧
      ∀ y : Word, s.fReg b = some ⟨n.tag, y⟩ →
        exec (.mmul d a b) s = .next (wroteF d n.tag ((x.toNat * y.toNat * ri) % m.toNat) s))

/-- 42 R180: for a legal modulus the radix has exactly one inverse in `[1, M)`, and the Montgomery form is a bijection of `[0, M)` whose inverse
is multiplication by it. -/
def Obligations.RadixInverse : Prop :=
  ∀ M : Nat, LegalModulus M →
    (∀ ri, (1 ≤ ri ∧ ri < M ∧ (2 ^ 256 * ri) % M = 1) ↔ ri = rinv M) ∧
    ∀ v, v < M → mont M v < M ∧ unmont M v < M ∧ unmont M (mont M v) = v ∧ mont M (unmont M v) = v

/-- 10 R22: the hidden constants are what the rule says: `R2 = R^2 mod M`, and `NPRIME` is the negated inverse of `M` modulo the radix. -/
def Obligations.HiddenConstants : Prop :=
  ∀ M : Nat, LegalModulus M → M < 2 ^ 256 →
    r2 M = mont M (radix % M) ∧ nprime M < radix ∧ (M * nprime M + 1) % radix = 0

/-- 42 R186: `REDC(T) = (T * Rinv(M)) mod M`, its value before the final test is exact and below `2M`, and `mp(x, y) = REDC(x * y)`. -/
def Obligations.RedcIsMontgomeryProduct : Prop :=
  ∀ M : Nat, LegalModulus M → M < 2 ^ 256 →
    (∀ T, T < M * radix →
      (T + ((T % radix) * nprime M) % radix * M) % radix = 0 ∧
      (T + ((T % radix) * nprime M) % radix * M) / radix < 2 * M ∧
      redc M T = (T * rinv M) % M) ∧
    ∀ x y, x < M → y < M → mp M x y = redc M (x * y)

/-- 42 R187: the bit-serial multiplier returns the Montgomery product, and its accumulator stays below `2M`. -/
def Obligations.BitSerialIsMontgomeryProduct : Prop :=
  ∀ M x y : Nat, LegalModulus M → x < 2 ^ 256 → x < M → y < M →
    mulSerial M x y = mp M x y ∧ ∀ n, n ≤ 256 → serialLoop M y n x 0 < 2 * M

/-- 42 R188: how the plain-residue commands sit on the multiplier. -/
def Obligations.MontgomeryIdentities : Prop :=
  ∀ M x y : Nat, LegalModulus M → x < M → y < M →
    mp M (mp M x y) (r2 M) = fmul M x y ∧ mp M x (r2 M) = mont M x ∧ mp M x 1 = unmont M x ∧
    mp M (mont M x) (mont M y) = mont M (fmul M x y) ∧
    fadd M (mont M x) (mont M y) = mont M (fadd M x y) ∧ fsub M (mont M x) (mont M y) = mont M (fsub M x y)

/-! ### Points (spec file 43) -/

/-- 43 R204, 30 R104: `LDP` in its four forms, with the faults in their order. -/
def Obligations.LdpMeaning : Prop :=
  ∀ (d : PIdx) (a b : FIdx) (c : CurveIdx) (px py : Bool) (s : State),
    Spells 0x40 d a b (curveNum c + 2 * px.toNat + 4 * py.toNat) (.ldp d a b c px py) ∧
    (px ≠ py → exec (.ldp d a b c px py) s = .next (faultRecord .partialPoint s)) ∧
    (s.curve c = none → exec (.ldp d a b c false false) s = .next (faultRecord .nocrv s)) ∧
    (∀ k, s.curve c = some k → exec (.ldp d a b c false false) s = .next (wroteP d c .infinity s)) ∧
    (s.fReg a = none ∨ s.fReg b = none → exec (.ldp d a b c true true) s = .next (faultRecord .uninit s)) ∧
    (∀ rx ry, s.fReg a = some rx → s.fReg b = some ry →
      (s.curve c = none → exec (.ldp d a b c true true) s = .next (faultRecord .nocrv s)) ∧
      (∀ k, s.curve c = some k →
        (rx.tag ≠ .fp ∨ ry.tag ≠ .fp → exec (.ldp d a b c true true) s = .next (faultRecord .domain s)) ∧
        (∀ m, rx.tag = .fp → ry.tag = .fp → s.modFP = some m →
          ((ry.val.toNat * ry.val.toNat) % m.toNat ≠
              (rx.val.toNat * rx.val.toNat * rx.val.toNat + k.a.toNat * rx.val.toNat + k.b.toNat) % m.toNat →
            exec (.ldp d a b c true true) s = .next (faultRecord .notOnCurve s)) ∧
          ((ry.val.toNat * ry.val.toNat) % m.toNat =
              (rx.val.toNat * rx.val.toNat * rx.val.toNat + k.a.toNat * rx.val.toNat + k.b.toNat) % m.toNat →
            exec (.ldp d a b c true true) s = .next (wroteP d c (.affine rx.val.toNat ry.val.toNat) s)))))

/-- 43 R206, R207: `GETX`, `GETY`. -/
def Obligations.GetxGetyMeaning : Prop :=
  ∀ (d : FIdx) (a : PIdx) (s : State), Spells 0x41 d a 0 0 (.getx d a) ∧ Spells 0x42 d a 0 0 (.gety d a) ∧
    (∀ i ∈ [Instr.getx d a, .gety d a],
      (s.pReg a = none → exec i s = .next (faultRecord .uninit s)) ∧
      (∀ q, s.pReg a = some q → ptOf q = .infinity → exec i s = .next (faultRecord .infCoord s))) ∧
    (∀ q x y, s.pReg a = some q → ptOf q = .affine x y →
      exec (.getx d a) s = .next (wroteF d .fp x s) ∧ exec (.gety d a) s = .next (wroteF d .fp y s))

/-- 43 R208, R209: `MOVP`, `TSTP`. -/
def Obligations.MovpTstpMeaning : Prop :=
  ∀ (d a : PIdx) (s : State), Spells 0x43 d a 0 0 (.movp d a) ∧ Spells 0x44 0 a 0 0 (.tstp a) ∧
    (s.pReg a = none → exec (.movp d a) s = .next (faultRecord .uninit s) ∧ exec (.tstp a) s = .next (faultRecord .uninit s)) ∧
    (∀ q, s.pReg a = some q → exec (.movp d a) s = .next (wroteP d q.crv (ptOf q) s) ∧
      exec (.tstp a) s = .next { s with inf := decide (ptOf q = .infinity), run := .idle })

/-- 43 R210: `CMPP`; the curves are compared as numbers, and inequality is no fault. -/
def Obligations.CmppMeaning : Prop :=
  ∀ (a b : PIdx) (s : State), Spells 0x45 0 a b 0 (.cmpp a b) ∧
    (s.pReg a = none ∨ s.pReg b = none → exec (.cmpp a b) s = .next (faultRecord .uninit s)) ∧
    (∀ qa qb ka kb, s.pReg a = some qa → s.pReg b = some qb → s.curve qa.crv = some ka → s.curve qb.crv = some kb →
      (ka ≠ kb → exec (.cmpp a b) s = .next (faultRecord .curve s)) ∧
      (ka = kb → exec (.cmpp a b) s = .next { s with eq := decide (ptOf qa = ptOf qb), run := .idle }))

/-- 43 R211: the five cases of group addition over a prime modulus, with the slope known only by the equation it solves. -/
def Obligations.GroupAdditionCases : Prop :=
  ∀ M A x1 y1 x2 y2 : Nat, M.Prime → LegalModulus M → M < 2 ^ 256 → x1 < M → y1 < M → x2 < M → y2 < M →
    (∀ Q, padd M A .infinity Q = Q) ∧ (∀ P, padd M A P .infinity = P) ∧
    (x1 = x2 → y1 ≠ y2 → padd M A (.affine x1 y1) (.affine x2 y2) = .infinity) ∧
    (x1 ≠ x2 → ∃ sl x3 y3 : Nat, padd M A (.affine x1 y1) (.affine x2 y2) = .affine x3 y3 ∧ x3 < M ∧ y3 < M ∧
      (sl : ZMod M) * (x2 - x1) = y2 - y1 ∧ (x3 : ZMod M) = sl * sl - x1 - x2 ∧ (y3 : ZMod M) = sl * (x1 - x3) - y1) ∧
    (y1 = 0 → padd M A (.affine x1 y1) (.affine x1 y1) = .infinity) ∧
    (y1 ≠ 0 → ∃ sl x3 y3 : Nat, padd M A (.affine x1 y1) (.affine x1 y1) = .affine x3 y3 ∧ x3 < M ∧ y3 < M ∧
      (sl : ZMod M) * (2 * y1) = 3 * x1 * x1 + A ∧ (x3 : ZMod M) = sl * sl - x1 - x1 ∧ (y3 : ZMod M) = sl * (x1 - x3) - y1)

/-- 43 R212, R214: `PADD` and `PDBL` over a prime coordinate modulus; the curves are compared as numbers before any infinity short-circuit,
and the result takes `Pa`'s bank. -/
def Obligations.PaddPdblMeaning : Prop :=
  ∀ (d a b : PIdx) (s : State), Spells 0x48 d a b 0 (.padd d a b) ∧ Spells 0x49 d a 0 0 (.pdbl d a) ∧
    (s.pReg a = none ∨ s.pReg b = none → exec (.padd d a b) s = .next (faultRecord .uninit s)) ∧
    (s.pReg a = none → exec (.pdbl d a) s = .next (faultRecord .uninit s)) ∧
    (∀ qa qb ka kb, s.pReg a = some qa → s.pReg b = some qb → s.curve qa.crv = some ka → s.curve qb.crv = some kb → ka ≠ kb →
      exec (.padd d a b) s = .next (faultRecord .curve s)) ∧
    (∀ qa qb k m, s.pReg a = some qa → s.pReg b = some qb → s.curve qa.crv = some k → s.curve qb.crv = some k →
      s.modFP = some m → m.toNat.Prime →
      exec (.padd d a b) s = .next (wroteP d qa.crv (padd m.toNat k.a.toNat (ptOf qa) (ptOf qb)) s)) ∧
    (∀ qa k m, s.pReg a = some qa → s.curve qa.crv = some k → s.modFP = some m → m.toNat.Prime →
      exec (.pdbl d a) s = .next (wroteP d qa.crv (padd m.toNat k.a.toNat (ptOf qa) (ptOf qa)) s)) ∧
    exec (.pdbl d a) s = exec (.padd d a a) s

/-- 43 R216: `SMUL` over a prime coordinate modulus: the scalar is reduced modulo `MOD[FN].m`, the point is tested first, then the bank, then the
scalar's tag. -/
def Obligations.SmulMeaning : Prop :=
  ∀ (d a : PIdx) (b : FIdx) (s : State), Spells 0x4A d a b 0 (.smul d a b) ∧
    (s.pReg a = none ∨ s.fReg b = none → exec (.smul d a b) s = .next (faultRecord .uninit s)) ∧
    (∀ q r, s.pReg a = some q → s.fReg b = some r →
      (s.modFN = none → exec (.smul d a b) s = .next (faultRecord .nomod s)) ∧
      (∀ n, s.modFN = some n →
        (r.tag = .fp → exec (.smul d a b) s = .next (faultRecord .domain s)) ∧
        (∀ k m, r.tag ≠ .fp → s.curve q.crv = some k → s.modFP = some m → m.toNat.Prime →
          exec (.smul d a b) s =
            .next (wroteP d q.crv (smul m.toNat k.a.toNat (ptOf q) (r.val.toNat % n.toNat)) s))))

/-- 43 R201 (the value itself is the free value of log entry 6, so nothing more can be said of it): over a composite coordinate modulus `PADD`,
`PDBL` and `SMUL` still complete without fault and write a valid register with some `inf`, `x < M`, `y < M`. Each asks only for its own sources
and, for `SMUL`, for the order. -/
def Obligations.CompositeModulusCompletes : Prop :=
  ∀ (d a : PIdx) (qa : PReg) (k : Curve) (m : Word) (s : State),
    ModuliLegal s → s.pReg a = some qa → s.curve qa.crv = some k → s.modFP = some m → ¬ m.toNat.Prime →
    (∀ (b : PIdx) (qb : PReg), s.pReg b = some qb → s.curve qb.crv = some k → ∃ q : Point Nat, PointReduced m.toNat q ∧
      exec (.padd d a b) s = .next { wroteP d qa.crv q s with draws := s.draws + 1 }) ∧
    (∃ q : Point Nat, PointReduced m.toNat q ∧ exec (.pdbl d a) s = .next { wroteP d qa.crv q s with draws := s.draws + 1 }) ∧
    (∀ (b : FIdx) (r : FReg) (n : Word), s.fReg b = some r → s.modFN = some n → r.tag ≠ .fp → ∃ q : Point Nat, PointReduced m.toNat q ∧
      exec (.smul d a b) s = .next { wroteP d qa.crv q s with draws := s.draws + 1 })

/-- 43 R218: the group law on the points of a non-singular curve over a prime field. -/
def Obligations.GroupLaws : Prop :=
  ∀ (M A B : Nat) (P Q T : Point Nat), M.Prime → LegalModulus M → M < 2 ^ 256 → A < M → B < M → (4 * A ^ 3 + 27 * B ^ 2) % M ≠ 0 →
    PointReduced M P → PointReduced M Q → PointReduced M T → PointOn M A B P → PointOn M A B Q → PointOn M A B T →
    padd M A P Q = padd M A Q P ∧ padd M A (padd M A P Q) T = padd M A P (padd M A Q T) ∧ padd M A P .infinity = P ∧
    ∀ x y, P = .affine x y → padd M A P (.affine x (fsub M 0 y)) = .infinity

/-- 43 R216, R218: double-and-add is repeated addition, on a non-singular curve over a prime field. -/
def Obligations.SmulIsRepeatedAddition : Prop :=
  ∀ (M A B k : Nat) (P : Point Nat), M.Prime → LegalModulus M → M < 2 ^ 256 → A < M → B < M → (4 * A ^ 3 + 27 * B ^ 2) % M ≠ 0 →
    PointReduced M P → PointOn M A B P → k < 2 ^ 256 → smul M A P k = nfold M A P k

/-! ### The projective datapath (spec file 44) -/

/-- 44 R246: if `M` is prime, Jacobian addition and doubling of triples that stand for two points, normalised, are the affine law. -/
def Obligations.JacobianRefinesGroupLaw : Prop :=
  ∀ (M A : Nat) (T1 T2 : Triple), M.Prime → LegalModulus M → M < 2 ^ 256 → A < M →
    T1.X < M → T1.Y < M → T1.Z < M → T2.X < M → T2.Y < M → T2.Z < M →
    jnorm M (jadd M A T1 T2) = padd M A (jnorm M T1) (jnorm M T2) ∧
    jnorm M (jdbl M A T1) = padd M A (jnorm M T1) (jnorm M T1)

/-- 44 R245, R246: the three commands on the datapath compute what the affine rules say. -/
def Obligations.JacobianCommandsRefineAffine : Prop :=
  ∀ (M A k : Nat) (P Q : Point Nat), M.Prime → LegalModulus M → M < 2 ^ 256 → A < M → PointReduced M P → PointReduced M Q →
    jPadd M A P Q = padd M A P Q ∧ jPdbl M A P = padd M A P P ∧ jSmul M A P k = smul M A P k

/-- 44 R247: on Montgomery forms, with every multiplication of 44 R242 to R244 a Montgomery product, doubler and adder compute the Montgomery
form of the same triple; zero tests are unaffected; normalisation, which leaves by `FROMMONT`'s function, gives the same point; and so do the
three commands of 44 R245, entered by `TOMONT`'s function. -/
def Obligations.MontgomeryDatapathAgrees : Prop :=
  ∀ (M A : Nat), LegalModulus M → A < M →
    (∀ v, v < M → (mont M v = 0 ↔ v = 0)) ∧
    (∀ T1 T2 : Triple, T1.X < M → T1.Y < M → T1.Z < M → T2.X < M → T2.Y < M → T2.Z < M →
      jdblMont M A (montTriple M T1) = montTriple M (jdbl M A T1) ∧
      jaddMont M A (montTriple M T1) (montTriple M T2) = montTriple M (jadd M A T1 T2) ∧
      jnormMont M (montTriple M T1) = jnorm M T1) ∧
    ∀ (P Q : Point Nat) (k : Nat), PointReduced M P → PointReduced M Q →
      jPaddMont M A P Q = jPadd M A P Q ∧ jPdblMont M A P = jPdbl M A P ∧ jSmulMont M A P k = jSmul M A P k

/-! ### Whole-machine rules (spec files 10, 20, 60, 70) -/

/-- The invariant of 10 R35, with I6, holds after reset. -/
def Obligations.ResetMeetsInvariant : Prop := StateInv State.reset ∧ PointsOnCurve State.reset

/-- 10 R35 (I1 to I5, I7) and 70 R300: every step keeps the invariant. -/
def Obligations.StepKeepsInvariant : Prop := ∀ s t : State, StateInv s → step s = .next t → StateInv t

/-- 10 R35 (I6): over a prime coordinate modulus every step keeps every valid point on its curve. -/
def Obligations.StepKeepsPointsOnCurve : Prop :=
  ∀ s t : State, StateInv s → PointsOnCurve s → step s = .next t → PointsOnCurve t

/-- Under the invariant every command completes: it answers a next state, and the model's own stops are never reached; a step stops only
where the unit is stuck in FAULT with no event to come, and there it does (60 R271; 93 U12; log entry 8). -/
def Obligations.EveryCommandCompletes : Prop :=
  ∀ s : State, StateInv s → (∀ i : Instr, ∃ t, exec i s = .next t) ∧
    ((∃ t, step s = .next t) ∨ (step s = .fault .stuckInFault ∧ s.run = .fault ∧ s.events = [])) ∧
    (s.run = .fault → s.inReset = false → s.events = [] → step s = .fault .stuckInFault)

/-- 60 R270: a fault is precise (the record, and nothing else), its cause is one the command can raise (60 R267), and in FAULT the unit has no
enabled step, `CMD` and `DBUFk` writes are dropped with `OVR`, and the window stays readable. -/
def Obligations.FaultsArePrecise : Prop :=
  (∀ (i : Instr) (s t : State), exec i s = .next t → t.run = .fault → ∃ e ∈ faultsOf i, t = faultRecord e s) ∧
  (∀ (s : State) (rest : List Event), s.run = .fault → s.inReset = false →
    (s.events = .unitTurn :: rest → step s = .next { s with events := rest }) ∧
    (∀ r v, s.events = .write r v :: rest → (r = .cmd ∨ ∃ k, r = .dbuf k) → step s = .next { s with events := rest, ovr := true }) ∧
    (∀ r, s.events = .read r :: rest →
      step s = .next { s with events := rest, replies := windowRead r s :: s.replies }))

/-- 60 R262: the code each fault shows in `STATUS[15:8]`; no other value is ever shown. -/
def Obligations.FaultCodes : Prop :=
  (∀ s : State, ∀ c ∈ [(ErrCode.illegal, 0x01), (.uninit, 0x02), (.nomod, 0x03), (.nocrv, 0x04), (.badmod, 0x05), (.range, 0x10),
      (.notOnCurve, 0x11), (.partialPoint, 0x12), (.domain, 0x20), (.curve, 0x21), (.zeroInv, 0x30), (.infCoord, 0x31)],
    (statusWord (faultRecord c.1 s)).toNat / 2 ^ 8 = c.2) ∧
  ∀ s : State, (statusWord s).toNat / 2 ^ 8 ∈ [0x00, 0x01, 0x02, 0x03, 0x04, 0x05, 0x10, 0x11, 0x12, 0x20, 0x21, 0x30, 0x31]

/-- 60 R271: the only exit from FAULT is reset. -/
def Obligations.FaultLeftOnlyByReset : Prop :=
  ∀ s t : State, s.run = .fault → step s = .next t →
    (t.run = .fault ∧ t.err = s.err) ∨
    ((s.events.head? = some .assertReset ∨ s.events.head? = some .releaseReset ∨
      ∃ v, v.getLsbD 0 = true ∧ s.events.head? = some (.write .ctrl v)) ∧ IsResetState t)

/-- 10 R33: the only transitions of `RUN`, each with the event that makes it: an accepted write of `CMD`; the unit's complete step, which is
`exec` of the command in `CMD` (or its illegal-word fault) on the state without the event that gave the unit its turn; a reset. -/
def Obligations.RunTransitions : Prop :=
  ∀ s t : State, step s = .next t →
    t.run = s.run ∨
    (s.run = .idle ∧ s.inReset = false ∧ ∃ v rest, s.events = .write .cmd v :: rest ∧
      t = { s with events := rest, cmd := v, run := .busy }) ∨
    (s.run = .busy ∧ s.inReset = false ∧ (s.events = [] ∨ s.events.head? = some .unitTurn) ∧ t.run = .idle ∧
      ∃ i, decode s.cmd = .ok i ∧ exec i { s with events := s.events.tail } = .next t) ∨
    (s.run = .busy ∧ s.inReset = false ∧ (s.events = [] ∨ s.events.head? = some .unitTurn) ∧ t.run = .fault ∧
      ∃ e, t = faultRecord e { s with events := s.events.tail } ∧
        ((e = .illegal ∧ ∃ why, decode s.cmd = .error why) ∨
          ∃ i, e ∈ faultsOf i ∧ decode s.cmd = .ok i ∧ exec i { s with events := s.events.tail } = .next t)) ∨
    (t.run = .idle ∧ IsResetState t ∧
      (s.events.head? = some .assertReset ∨ (s.inReset = true ∧ s.events.head? = some .releaseReset) ∨
        (s.inReset = false ∧ ∃ v, v.getLsbD 0 = true ∧ s.events.head? = some (.write .ctrl v))))

/-- 10 R29: who writes which flag when a command completes without fault, and with what. -/
def Obligations.FlagsByCommand : Prop :=
  ∀ (i : Instr) (s t : State), exec i s = .next t → t.run = .idle →
    (∀ d, writesField i = some d → ∃ r, t.fReg d = some r ∧ t.z = decide (r.val.toNat = 0)) ∧
    (writesField i = none → t.z = s.z) ∧
    (∀ d, writesPoint i = some d → ∃ q, t.pReg d = some q ∧ t.inf = decide (ptOf q = .infinity)) ∧
    (∀ a, i = .tstp a → ∃ q, s.pReg a = some q ∧ t.inf = decide (ptOf q = .infinity)) ∧
    (writesPoint i = none → (∀ a, i ≠ .tstp a) → t.inf = s.inf) ∧
    (∀ a b, i = .cmpf a b → ∃ ra rb, s.fReg a = some ra ∧ s.fReg b = some rb ∧ t.eq = decide (ra.val.toNat = rb.val.toNat)) ∧
    (∀ a b, i = .cmpp a b → ∃ qa qb, s.pReg a = some qa ∧ s.pReg b = some qb ∧ t.eq = decide (ptOf qa = ptOf qb)) ∧
    ((∀ a b, i ≠ .cmpf a b) → (∀ a b, i ≠ .cmpp a b) → t.eq = s.eq) ∧ t.ovr = s.ovr

/-- What a completed command leaves unchanged (10 R21, R23, R24, R27; 20 R70): every register but its destination and those that `LDMOD` and
`LDCRV` invalidate, every bank but the one loaded, `DBUF` but for `STF`, and `CMD`, `ERRCODE` and what lies outside the unit always. -/
def Obligations.CommandFrame : Prop :=
  ∀ (i : Instr) (s t : State), exec i s = .next t → t.run = .idle →
    t.cmd = s.cmd ∧ t.err = s.err ∧ t.inReset = s.inReset ∧ t.events = s.events ∧ t.replies = s.replies ∧
    ((∀ a, i ≠ .stf a) → t.dbuf = s.dbuf) ∧
    ((∀ b, i ≠ .ldmod b) → t.modFP = s.modFP ∧ t.modFN = s.modFN ∧
      (∀ j, writesField i ≠ some j → t.fReg j = s.fReg j) ∧
      ((∀ a b c, i ≠ .ldcrv a b c) → t.crv0 = s.crv0 ∧ t.crv1 = s.crv1 ∧ ∀ j, writesPoint i ≠ some j → t.pReg j = s.pReg j)) ∧
    ((∀ d a b, i ≠ .padd d a b) → (∀ d a, i ≠ .pdbl d a) → (∀ d a b, i ≠ .smul d a b) → t.draws = s.draws)

/-- 70 R310, R312: while a run is clean (no fault, `OVR` clear) every write of `CMD` or `DBUFk` so far was taken, never dropped; and what was not
clean becomes clean only by a reset. -/
def Obligations.CleanRunLostNothing : Prop :=
  (∀ (s t : State) (r : WinReg) (v : Word32) (rest : List Event), s.inReset = false → s.events = .write r v :: rest →
    (r = .cmd ∨ ∃ k, r = .dbuf k) → step s = .next t → Clean t → s.run = .idle) ∧
  ∀ s t : State, step s = .next t → Clean t → Clean s ∨ IsResetState t

/-- 60 R263: a command that reads an invalid register faults with `E_UNINIT`; `LDP` reads its field registers only when both coordinates are
present. -/
def Obligations.InvalidSourceFaults : Prop :=
  ∀ (i : Instr) (s : State), (∃ a ∈ readsF i, s.fReg a = none) ∨ (∃ a ∈ readsP i, s.pReg a = none) →
    exec i s = .next (faultRecord .uninit s)

/-- 70 R305: where no bank and no point is valid and every valid field register is `RAW`, no command but `LDMOD`, `LDI`, `STF`, `MOVF` and `CMPF`
can complete; where no field register is valid either, as after a reset, none but `LDMOD` and `LDI`. -/
def Obligations.BootNeedsLoads : Prop :=
  ∀ (i : Instr) (s t : State), (∀ b, s.modulus b = none) → (∀ c, s.curve c = none) → (∀ j, s.pReg j = none) →
    (∀ j r, s.fReg j = some r → r.tag = .raw) → exec i s = .next t → t.run = .idle →
    ((∃ b, i = .ldmod b) ∨ (∃ d, i = .ldi d) ∨ (∃ a, i = .stf a) ∨ (∃ d a, i = .movf d a) ∨ ∃ a b, i = .cmpf a b) ∧
    ((∀ j, s.fReg j = none) → (∃ b, i = .ldmod b) ∨ ∃ d, i = .ldi d)

/-- 20 R70, 70 R320: a busy unit leaves BUSY after finitely many steps. The bound, one step after the last pending event, is the model's own: it
rests on the finite list of events of log entry 3, and the rules give none. -/
def Obligations.BusyUnitCompletes : Prop :=
  ∀ s : State, StateInv s → s.run = .busy →
    ∃ n t, n ≤ s.events.length + 1 ∧ stepN n s = .next t ∧ t.run ≠ .busy
end

