-- ==== Sys2Proof/Laws/Arith.lean ====
section
/-! SUPPORT. What the exponentiation loop and the inverse of the radix compute. -/

namespace Sys2Proof.Arith

/-- A natural below 2^256 survives the narrowing to a word. -/
theorem toNat_toWord {n : Nat} (h : n < 2 ^ 256) : (toWord n).toNat = n := by
  simpa [toWord] using Nat.mod_eq_of_lt h

/-- A word survives the way through the naturals. -/
@[simp] theorem toWord_toNat (w : Word) : toWord w.toNat = w := by simp [toWord]

/-- A residue of a word-sized modulus survives the narrowing to a word. -/
theorem toNat_toWord_of_lt {n : Nat} {m : Word} (h : n < m.toNat) : (toWord n).toNat = n :=
  toNat_toWord (h.trans m.isLt)

/-- A map from one number form to another that respects the multiplications carries the one loop to the other (42 R188). -/
theorem powLoopWith_map {mul mul' : Nat → Nat → Nat} {g : Nat → Nat} (hg : ∀ a b, g (mul a b) = mul' (g a) (g b)) :
    ∀ fuel res base e : Nat, g (powLoopWith mul fuel res base e) = powLoopWith mul' fuel (g res) (g base) e
  | 0, _, _, _ => rfl
  | fuel + 1, res, base, e => by
    rw [powLoopWith, powLoopWith, apply_ite g, powLoopWith_map hg fuel, hg, apply_ite g, hg]

/-- One iteration of the loop on plain residues (41 R166). -/
theorem powLoop_succ (M fuel res base e : Nat) :
    powLoop M (fuel + 1) res base e =
      if e = 0 then res else powLoop M fuel (if e % 2 = 1 then (res * base) % M else res) ((base * base) % M) (e / 2) := rfl

/-- The loop keeps `res * base ^ e` modulo `M` (41 R166). -/
theorem powLoop_modEq (M : Nat) : ∀ (fuel res base e : Nat), e < 2 ^ fuel → powLoop M fuel res base e ≡ res * base ^ e [MOD M]
  | 0, res, base, e, he => by
    obtain rfl : e = 0 := by simpa using he
    simp [powLoop, powLoopWith, Nat.ModEq.refl]
  | fuel + 1, res, base, e, he => by
    rw [powLoop_succ]
    split
    · next h => subst h; simp [Nat.ModEq.refl]
    · next h =>
      have hlt : e / 2 < 2 ^ fuel := by rw [pow_succ] at he; omega
      refine (powLoop_modEq M fuel _ _ _ hlt).trans ?_
      have hsq : ((base * base) % M) ^ (e / 2) ≡ base ^ (2 * (e / 2)) [MOD M] := by
        rw [pow_mul, sq]; exact (Nat.mod_modEq _ _).pow _
      split
      · next hodd =>
        have he2 : e = 2 * (e / 2) + 1 := by omega
        calc res * base % M * (base * base % M) ^ (e / 2)
            ≡ res * base * base ^ (2 * (e / 2)) [MOD M] := (Nat.mod_modEq _ _).mul hsq
          _ = res * base ^ (2 * (e / 2) + 1) := by ring
          _ = res * base ^ e := by rw [← he2]
      · next heven =>
        have he2 : e = 2 * (e / 2) := by omega
        calc res * (base * base % M) ^ (e / 2)
            ≡ res * base ^ (2 * (e / 2)) [MOD M] := (Nat.ModEq.refl _).mul hsq
          _ = res * base ^ e := by rw [← he2]

/-- The loop answers a residue when it starts from one. -/
theorem powLoop_lt {M : Nat} (hM : 0 < M) : ∀ (fuel res base e : Nat), res < M → powLoop M fuel res base e < M
  | 0, _, _, _, h => h
  | fuel + 1, res, base, e, h => by
    rw [powLoop_succ]
    split
    · exact h
    · refine powLoop_lt hM fuel _ _ _ ?_
      split
      · exact Nat.mod_lt _ hM
      · exact h

/-- The engine's power is a residue. -/
theorem powmod_lt {M : Nat} (hM : 2 ≤ M) (x e : Nat) : powmod M x e < M := powLoop_lt (by omega) _ _ _ _ (by omega)

/-- The engine computes the power modulo `M` for every 256-bit exponent. -/
theorem powmod_eq {M : Nat} (hM : 2 ≤ M) (x : Nat) {e : Nat} (he : e < 2 ^ 256) : powmod M x e = x ^ e % M := by
  have h := powLoop_modEq M 256 1 x e he
  rw [one_mul] at h
  exact (Nat.mod_eq_of_lt (powmod_lt hM x e)).symm.trans h

/-- The recursion of 41 R156 is the power modulo `M`. -/
theorem powmodSpec_eq {M : Nat} (hM : 2 ≤ M) (x : Nat) : ∀ e : Nat, powmodSpec M x e = x ^ e % M
  | 0 => by simp [powmodSpec, Nat.mod_eq_of_lt (show 1 < M by omega)]
  | e + 1 => by rw [powmodSpec, powmodSpec_eq hM x e, Nat.mul_mod_mod, pow_succ']

/-- Halving keeps a residue of an odd modulus a residue. -/
theorem halves_lt {M : Nat} : ∀ (n x : Nat), x < M → halves M n x < M
  | 0, _, h => h
  | n + 1, x, h => by
    rw [halves]
    refine halves_lt n _ ?_
    split <;> omega

/-- Halving `n` times modulo an odd `M` is dividing by `2^n`. -/
theorem halves_modEq {M : Nat} (hM : M % 2 = 1) : ∀ (n x : Nat), 2 ^ n * halves M n x ≡ x [MOD M]
  | 0, x => by simp [halves, Nat.ModEq.refl]
  | n + 1, x => by
    rw [halves, pow_succ', mul_assoc]
    refine ((halves_modEq hM n _).mul_left 2).trans ?_
    split
    · next h => rw [Nat.mul_div_cancel' (Nat.dvd_of_mod_eq_zero h)]
    · next h =>
      rw [Nat.mul_div_cancel' (Nat.dvd_of_mod_eq_zero (by omega))]
      simp [Nat.ModEq]

/-- `Rinv(M)` is a residue (42 R180). -/
theorem rinv_lt {M : Nat} (hM : 0 < M) : rinv M < M := halves_lt _ _ (Nat.mod_lt _ hM)

/-- `Rinv(M)` inverts the radix modulo an odd `M` (42 R180). -/
theorem radix_mul_rinv {M : Nat} (hM : M % 2 = 1) : radix * rinv M ≡ 1 [MOD M] :=
  (halves_modEq hM 256 (1 % M)).trans (Nat.mod_modEq _ _)

end Sys2Proof.Arith
end

