-- ==== Sys2Proof/Laws/Decode.lean ====
section
/-! SUPPORT. The fields of a word and the word of the fields undo each other (30 R91); index fields undo their encoding (30 R92). -/

namespace Sys2Proof

/-- The fields of the word of a field tuple are the tuple. -/
@[simp] theorem fieldsOf_wordOf (f : Fields) : fieldsOf (wordOf f) = f := by
  cases f
  simp only [fieldsOf, wordOf, Fields.mk.injEq]
  refine ⟨?_, ?_, ?_, ?_, ?_, ?_⟩ <;>
  · ext i hi
    simp only [BitVec.getElem_extractLsb', BitVec.getLsbD_append]
    interval_cases i <;> simp

/-- The word of the fields of a word is the word. -/
@[simp] theorem wordOf_fieldsOf (w : Word32) : wordOf (fieldsOf w) = w := by
  simp only [fieldsOf, wordOf]
  ext i hi
  simp only [BitVec.getElem_append, BitVec.getElem_extractLsb']
  interval_cases i <;> simp

@[simp] theorem fIdxOf_ofF (i : FIdx) : fIdxOf (ofF i) = i := rfl

@[simp] theorem ofF_fIdxOf (v : BitVec 4) : ofF (fIdxOf v) = v := rfl

@[simp] theorem pIdxOf_ofP (i : PIdx) : pIdxOf (ofP i) = i := by
  revert i; decide

theorem ofP_pIdxOf {v : BitVec 4} (h : v.toNat < 8) : ofP (pIdxOf v) = v := by
  revert v; decide

theorem ofP_lt (i : PIdx) : (ofP i).toNat < 8 := by
  revert i; decide

@[simp] theorem pIndex_admits_ofP (i : PIdx) : FieldUse.pIndex.admits (ofP i) = true := by
  revert i; decide

end Sys2Proof
end

