-- ==== Sys2Proof/Laws/State.lean ====
section
/-! SUPPORT. What each named update of the state does to each field (true by rfl), and to the registers and banks read by number. -/

namespace Sys2Proof.Machine

/-! ### `faulted` -/

@[simp] theorem faulted_modFP (e : ErrCode) (s : State) : (faulted e s).modFP = s.modFP := rfl
@[simp] theorem faulted_modFN (e : ErrCode) (s : State) : (faulted e s).modFN = s.modFN := rfl
@[simp] theorem faulted_crv0 (e : ErrCode) (s : State) : (faulted e s).crv0 = s.crv0 := rfl
@[simp] theorem faulted_crv1 (e : ErrCode) (s : State) : (faulted e s).crv1 = s.crv1 := rfl
@[simp] theorem faulted_f (e : ErrCode) (s : State) : (faulted e s).f = s.f := rfl
@[simp] theorem faulted_p (e : ErrCode) (s : State) : (faulted e s).p = s.p := rfl
@[simp] theorem faulted_dbuf (e : ErrCode) (s : State) : (faulted e s).dbuf = s.dbuf := rfl
@[simp] theorem faulted_cmd (e : ErrCode) (s : State) : (faulted e s).cmd = s.cmd := rfl
@[simp] theorem faulted_run (e : ErrCode) (s : State) : (faulted e s).run = .fault := rfl
@[simp] theorem faulted_z (e : ErrCode) (s : State) : (faulted e s).z = s.z := rfl
@[simp] theorem faulted_inf (e : ErrCode) (s : State) : (faulted e s).inf = s.inf := rfl
@[simp] theorem faulted_eq (e : ErrCode) (s : State) : (faulted e s).eq = s.eq := rfl
@[simp] theorem faulted_ovr (e : ErrCode) (s : State) : (faulted e s).ovr = s.ovr := rfl
@[simp] theorem faulted_err (e : ErrCode) (s : State) : (faulted e s).err = some e := rfl
@[simp] theorem faulted_inReset (e : ErrCode) (s : State) : (faulted e s).inReset = s.inReset := rfl
@[simp] theorem faulted_events (e : ErrCode) (s : State) : (faulted e s).events = s.events := rfl
@[simp] theorem faulted_replies (e : ErrCode) (s : State) : (faulted e s).replies = s.replies := rfl
@[simp] theorem faulted_draws (e : ErrCode) (s : State) : (faulted e s).draws = s.draws := rfl
@[simp] theorem faulted_modulus (e : ErrCode) (s : State) (n : Bank) : (faulted e s).modulus n = s.modulus n := rfl
@[simp] theorem faulted_curve (e : ErrCode) (s : State) (n : CurveIdx) : (faulted e s).curve n = s.curve n := rfl
@[simp] theorem faulted_fReg (e : ErrCode) (s : State) (i : FIdx) : (faulted e s).fReg i = s.fReg i := rfl
@[simp] theorem faulted_pReg (e : ErrCode) (s : State) (i : PIdx) : (faulted e s).pReg i = s.pReg i := rfl

/-! ### `retired` -/

@[simp] theorem retired_modFP (s : State) : (retired s).modFP = s.modFP := rfl
@[simp] theorem retired_modFN (s : State) : (retired s).modFN = s.modFN := rfl
@[simp] theorem retired_crv0 (s : State) : (retired s).crv0 = s.crv0 := rfl
@[simp] theorem retired_crv1 (s : State) : (retired s).crv1 = s.crv1 := rfl
@[simp] theorem retired_f (s : State) : (retired s).f = s.f := rfl
@[simp] theorem retired_p (s : State) : (retired s).p = s.p := rfl
@[simp] theorem retired_dbuf (s : State) : (retired s).dbuf = s.dbuf := rfl
@[simp] theorem retired_cmd (s : State) : (retired s).cmd = s.cmd := rfl
@[simp] theorem retired_run (s : State) : (retired s).run = .idle := rfl
@[simp] theorem retired_z (s : State) : (retired s).z = s.z := rfl
@[simp] theorem retired_inf (s : State) : (retired s).inf = s.inf := rfl
@[simp] theorem retired_eq (s : State) : (retired s).eq = s.eq := rfl
@[simp] theorem retired_ovr (s : State) : (retired s).ovr = s.ovr := rfl
@[simp] theorem retired_err (s : State) : (retired s).err = s.err := rfl
@[simp] theorem retired_inReset (s : State) : (retired s).inReset = s.inReset := rfl
@[simp] theorem retired_events (s : State) : (retired s).events = s.events := rfl
@[simp] theorem retired_replies (s : State) : (retired s).replies = s.replies := rfl
@[simp] theorem retired_draws (s : State) : (retired s).draws = s.draws := rfl
@[simp] theorem retired_modulus (s : State) (n : Bank) : (retired s).modulus n = s.modulus n := rfl
@[simp] theorem retired_curve (s : State) (n : CurveIdx) : (retired s).curve n = s.curve n := rfl
@[simp] theorem retired_fReg (s : State) (i : FIdx) : (retired s).fReg i = s.fReg i := rfl
@[simp] theorem retired_pReg (s : State) (i : PIdx) : (retired s).pReg i = s.pReg i := rfl

/-! ### `setF` -/

@[simp] theorem setF_modFP (d : FIdx) (r : Option FReg) (s : State) : (setF d r s).modFP = s.modFP := rfl
@[simp] theorem setF_modFN (d : FIdx) (r : Option FReg) (s : State) : (setF d r s).modFN = s.modFN := rfl
@[simp] theorem setF_crv0 (d : FIdx) (r : Option FReg) (s : State) : (setF d r s).crv0 = s.crv0 := rfl
@[simp] theorem setF_crv1 (d : FIdx) (r : Option FReg) (s : State) : (setF d r s).crv1 = s.crv1 := rfl
@[simp] theorem setF_f (d : FIdx) (r : Option FReg) (s : State) : (setF d r s).f = s.f.set d r := rfl
@[simp] theorem setF_p (d : FIdx) (r : Option FReg) (s : State) : (setF d r s).p = s.p := rfl
@[simp] theorem setF_dbuf (d : FIdx) (r : Option FReg) (s : State) : (setF d r s).dbuf = s.dbuf := rfl
@[simp] theorem setF_cmd (d : FIdx) (r : Option FReg) (s : State) : (setF d r s).cmd = s.cmd := rfl
@[simp] theorem setF_run (d : FIdx) (r : Option FReg) (s : State) : (setF d r s).run = s.run := rfl
@[simp] theorem setF_z (d : FIdx) (r : Option FReg) (s : State) : (setF d r s).z = s.z := rfl
@[simp] theorem setF_inf (d : FIdx) (r : Option FReg) (s : State) : (setF d r s).inf = s.inf := rfl
@[simp] theorem setF_eq (d : FIdx) (r : Option FReg) (s : State) : (setF d r s).eq = s.eq := rfl
@[simp] theorem setF_ovr (d : FIdx) (r : Option FReg) (s : State) : (setF d r s).ovr = s.ovr := rfl
@[simp] theorem setF_err (d : FIdx) (r : Option FReg) (s : State) : (setF d r s).err = s.err := rfl
@[simp] theorem setF_inReset (d : FIdx) (r : Option FReg) (s : State) : (setF d r s).inReset = s.inReset := rfl
@[simp] theorem setF_events (d : FIdx) (r : Option FReg) (s : State) : (setF d r s).events = s.events := rfl
@[simp] theorem setF_replies (d : FIdx) (r : Option FReg) (s : State) : (setF d r s).replies = s.replies := rfl
@[simp] theorem setF_draws (d : FIdx) (r : Option FReg) (s : State) : (setF d r s).draws = s.draws := rfl
@[simp] theorem setF_modulus (d : FIdx) (r : Option FReg) (s : State) (n : Bank) : (setF d r s).modulus n = s.modulus n := rfl
@[simp] theorem setF_curve (d : FIdx) (r : Option FReg) (s : State) (n : CurveIdx) : (setF d r s).curve n = s.curve n := rfl
@[simp] theorem setF_pReg (d : FIdx) (r : Option FReg) (s : State) (i : PIdx) : (setF d r s).pReg i = s.pReg i := rfl

/-! ### `setP` -/

@[simp] theorem setP_modFP (d : PIdx) (q : Option PReg) (s : State) : (setP d q s).modFP = s.modFP := rfl
@[simp] theorem setP_modFN (d : PIdx) (q : Option PReg) (s : State) : (setP d q s).modFN = s.modFN := rfl
@[simp] theorem setP_crv0 (d : PIdx) (q : Option PReg) (s : State) : (setP d q s).crv0 = s.crv0 := rfl
@[simp] theorem setP_crv1 (d : PIdx) (q : Option PReg) (s : State) : (setP d q s).crv1 = s.crv1 := rfl
@[simp] theorem setP_f (d : PIdx) (q : Option PReg) (s : State) : (setP d q s).f = s.f := rfl
@[simp] theorem setP_p (d : PIdx) (q : Option PReg) (s : State) : (setP d q s).p = s.p.set d q := rfl
@[simp] theorem setP_dbuf (d : PIdx) (q : Option PReg) (s : State) : (setP d q s).dbuf = s.dbuf := rfl
@[simp] theorem setP_cmd (d : PIdx) (q : Option PReg) (s : State) : (setP d q s).cmd = s.cmd := rfl
@[simp] theorem setP_run (d : PIdx) (q : Option PReg) (s : State) : (setP d q s).run = s.run := rfl
@[simp] theorem setP_z (d : PIdx) (q : Option PReg) (s : State) : (setP d q s).z = s.z := rfl
@[simp] theorem setP_inf (d : PIdx) (q : Option PReg) (s : State) : (setP d q s).inf = s.inf := rfl
@[simp] theorem setP_eq (d : PIdx) (q : Option PReg) (s : State) : (setP d q s).eq = s.eq := rfl
@[simp] theorem setP_ovr (d : PIdx) (q : Option PReg) (s : State) : (setP d q s).ovr = s.ovr := rfl
@[simp] theorem setP_err (d : PIdx) (q : Option PReg) (s : State) : (setP d q s).err = s.err := rfl
@[simp] theorem setP_inReset (d : PIdx) (q : Option PReg) (s : State) : (setP d q s).inReset = s.inReset := rfl
@[simp] theorem setP_events (d : PIdx) (q : Option PReg) (s : State) : (setP d q s).events = s.events := rfl
@[simp] theorem setP_replies (d : PIdx) (q : Option PReg) (s : State) : (setP d q s).replies = s.replies := rfl
@[simp] theorem setP_draws (d : PIdx) (q : Option PReg) (s : State) : (setP d q s).draws = s.draws := rfl
@[simp] theorem setP_modulus (d : PIdx) (q : Option PReg) (s : State) (n : Bank) : (setP d q s).modulus n = s.modulus n := rfl
@[simp] theorem setP_curve (d : PIdx) (q : Option PReg) (s : State) (n : CurveIdx) : (setP d q s).curve n = s.curve n := rfl
@[simp] theorem setP_fReg (d : PIdx) (q : Option PReg) (s : State) (i : FIdx) : (setP d q s).fReg i = s.fReg i := rfl

/-! ### `writeF` -/

@[simp] theorem writeF_modFP (d : FIdx) (t : Tag) (v : Word) (s : State) : (writeF d t v s).modFP = s.modFP := rfl
@[simp] theorem writeF_modFN (d : FIdx) (t : Tag) (v : Word) (s : State) : (writeF d t v s).modFN = s.modFN := rfl
@[simp] theorem writeF_crv0 (d : FIdx) (t : Tag) (v : Word) (s : State) : (writeF d t v s).crv0 = s.crv0 := rfl
@[simp] theorem writeF_crv1 (d : FIdx) (t : Tag) (v : Word) (s : State) : (writeF d t v s).crv1 = s.crv1 := rfl
@[simp] theorem writeF_f (d : FIdx) (t : Tag) (v : Word) (s : State) : (writeF d t v s).f = s.f.set d (some ⟨t, v⟩) := rfl
@[simp] theorem writeF_p (d : FIdx) (t : Tag) (v : Word) (s : State) : (writeF d t v s).p = s.p := rfl
@[simp] theorem writeF_dbuf (d : FIdx) (t : Tag) (v : Word) (s : State) : (writeF d t v s).dbuf = s.dbuf := rfl
@[simp] theorem writeF_cmd (d : FIdx) (t : Tag) (v : Word) (s : State) : (writeF d t v s).cmd = s.cmd := rfl
@[simp] theorem writeF_run (d : FIdx) (t : Tag) (v : Word) (s : State) : (writeF d t v s).run = s.run := rfl
@[simp] theorem writeF_z (d : FIdx) (t : Tag) (v : Word) (s : State) : (writeF d t v s).z = zFlag v := rfl
@[simp] theorem writeF_inf (d : FIdx) (t : Tag) (v : Word) (s : State) : (writeF d t v s).inf = s.inf := rfl
@[simp] theorem writeF_eq (d : FIdx) (t : Tag) (v : Word) (s : State) : (writeF d t v s).eq = s.eq := rfl
@[simp] theorem writeF_ovr (d : FIdx) (t : Tag) (v : Word) (s : State) : (writeF d t v s).ovr = s.ovr := rfl
@[simp] theorem writeF_err (d : FIdx) (t : Tag) (v : Word) (s : State) : (writeF d t v s).err = s.err := rfl
@[simp] theorem writeF_inReset (d : FIdx) (t : Tag) (v : Word) (s : State) : (writeF d t v s).inReset = s.inReset := rfl
@[simp] theorem writeF_events (d : FIdx) (t : Tag) (v : Word) (s : State) : (writeF d t v s).events = s.events := rfl
@[simp] theorem writeF_replies (d : FIdx) (t : Tag) (v : Word) (s : State) : (writeF d t v s).replies = s.replies := rfl
@[simp] theorem writeF_draws (d : FIdx) (t : Tag) (v : Word) (s : State) : (writeF d t v s).draws = s.draws := rfl
@[simp] theorem writeF_modulus (d : FIdx) (t : Tag) (v : Word) (s : State) (n : Bank) : (writeF d t v s).modulus n = s.modulus n := rfl
@[simp] theorem writeF_curve (d : FIdx) (t : Tag) (v : Word) (s : State) (n : CurveIdx) : (writeF d t v s).curve n = s.curve n := rfl
@[simp] theorem writeF_pReg (d : FIdx) (t : Tag) (v : Word) (s : State) (i : PIdx) : (writeF d t v s).pReg i = s.pReg i := rfl

/-! ### `writeP` -/

@[simp] theorem writeP_modFP (d : PIdx) (c : CurveIdx) (q : Point Word) (s : State) : (writeP d c q s).modFP = s.modFP := rfl
@[simp] theorem writeP_modFN (d : PIdx) (c : CurveIdx) (q : Point Word) (s : State) : (writeP d c q s).modFN = s.modFN := rfl
@[simp] theorem writeP_crv0 (d : PIdx) (c : CurveIdx) (q : Point Word) (s : State) : (writeP d c q s).crv0 = s.crv0 := rfl
@[simp] theorem writeP_crv1 (d : PIdx) (c : CurveIdx) (q : Point Word) (s : State) : (writeP d c q s).crv1 = s.crv1 := rfl
@[simp] theorem writeP_f (d : PIdx) (c : CurveIdx) (q : Point Word) (s : State) : (writeP d c q s).f = s.f := rfl
@[simp] theorem writeP_p (d : PIdx) (c : CurveIdx) (q : Point Word) (s : State) : (writeP d c q s).p = s.p.set d (some ⟨c, q⟩) := rfl
@[simp] theorem writeP_dbuf (d : PIdx) (c : CurveIdx) (q : Point Word) (s : State) : (writeP d c q s).dbuf = s.dbuf := rfl
@[simp] theorem writeP_cmd (d : PIdx) (c : CurveIdx) (q : Point Word) (s : State) : (writeP d c q s).cmd = s.cmd := rfl
@[simp] theorem writeP_run (d : PIdx) (c : CurveIdx) (q : Point Word) (s : State) : (writeP d c q s).run = s.run := rfl
@[simp] theorem writeP_z (d : PIdx) (c : CurveIdx) (q : Point Word) (s : State) : (writeP d c q s).z = s.z := rfl
@[simp] theorem writeP_inf (d : PIdx) (c : CurveIdx) (q : Point Word) (s : State) : (writeP d c q s).inf = infFlag q := rfl
@[simp] theorem writeP_eq (d : PIdx) (c : CurveIdx) (q : Point Word) (s : State) : (writeP d c q s).eq = s.eq := rfl
@[simp] theorem writeP_ovr (d : PIdx) (c : CurveIdx) (q : Point Word) (s : State) : (writeP d c q s).ovr = s.ovr := rfl
@[simp] theorem writeP_err (d : PIdx) (c : CurveIdx) (q : Point Word) (s : State) : (writeP d c q s).err = s.err := rfl
@[simp] theorem writeP_inReset (d : PIdx) (c : CurveIdx) (q : Point Word) (s : State) : (writeP d c q s).inReset = s.inReset := rfl
@[simp] theorem writeP_events (d : PIdx) (c : CurveIdx) (q : Point Word) (s : State) : (writeP d c q s).events = s.events := rfl
@[simp] theorem writeP_replies (d : PIdx) (c : CurveIdx) (q : Point Word) (s : State) : (writeP d c q s).replies = s.replies := rfl
@[simp] theorem writeP_draws (d : PIdx) (c : CurveIdx) (q : Point Word) (s : State) : (writeP d c q s).draws = s.draws := rfl
@[simp] theorem writeP_modulus (d : PIdx) (c : CurveIdx) (q : Point Word) (s : State) (n : Bank) : (writeP d c q s).modulus n = s.modulus n := rfl
@[simp] theorem writeP_curve (d : PIdx) (c : CurveIdx) (q : Point Word) (s : State) (n : CurveIdx) : (writeP d c q s).curve n = s.curve n := rfl
@[simp] theorem writeP_fReg (d : PIdx) (c : CurveIdx) (q : Point Word) (s : State) (i : FIdx) : (writeP d c q s).fReg i = s.fReg i := rfl

/-! ### `loadModulus` -/

@[simp] theorem loadModulus_modFP (b : Bank) (m : Word) (s : State) : (loadModulus b m s).modFP = if b = .fp then some m else s.modFP := rfl
@[simp] theorem loadModulus_modFN (b : Bank) (m : Word) (s : State) : (loadModulus b m s).modFN = if b = .fn then some m else s.modFN := rfl
@[simp] theorem loadModulus_crv0 (b : Bank) (m : Word) (s : State) : (loadModulus b m s).crv0 = if b = .fp then none else s.crv0 := rfl
@[simp] theorem loadModulus_crv1 (b : Bank) (m : Word) (s : State) : (loadModulus b m s).crv1 = if b = .fp then none else s.crv1 := rfl
@[simp] theorem loadModulus_f (b : Bank) (m : Word) (s : State) : (loadModulus b m s).f = mapRegs (dropTag b.tag) s.f := rfl
@[simp] theorem loadModulus_p (b : Bank) (m : Word) (s : State) : (loadModulus b m s).p = if b = .fp then mapRegs (fun _ => none) s.p else s.p := rfl
@[simp] theorem loadModulus_dbuf (b : Bank) (m : Word) (s : State) : (loadModulus b m s).dbuf = s.dbuf := rfl
@[simp] theorem loadModulus_cmd (b : Bank) (m : Word) (s : State) : (loadModulus b m s).cmd = s.cmd := rfl
@[simp] theorem loadModulus_run (b : Bank) (m : Word) (s : State) : (loadModulus b m s).run = s.run := rfl
@[simp] theorem loadModulus_z (b : Bank) (m : Word) (s : State) : (loadModulus b m s).z = s.z := rfl
@[simp] theorem loadModulus_inf (b : Bank) (m : Word) (s : State) : (loadModulus b m s).inf = s.inf := rfl
@[simp] theorem loadModulus_eq (b : Bank) (m : Word) (s : State) : (loadModulus b m s).eq = s.eq := rfl
@[simp] theorem loadModulus_ovr (b : Bank) (m : Word) (s : State) : (loadModulus b m s).ovr = s.ovr := rfl
@[simp] theorem loadModulus_err (b : Bank) (m : Word) (s : State) : (loadModulus b m s).err = s.err := rfl
@[simp] theorem loadModulus_inReset (b : Bank) (m : Word) (s : State) : (loadModulus b m s).inReset = s.inReset := rfl
@[simp] theorem loadModulus_events (b : Bank) (m : Word) (s : State) : (loadModulus b m s).events = s.events := rfl
@[simp] theorem loadModulus_replies (b : Bank) (m : Word) (s : State) : (loadModulus b m s).replies = s.replies := rfl
@[simp] theorem loadModulus_draws (b : Bank) (m : Word) (s : State) : (loadModulus b m s).draws = s.draws := rfl

/-! ### `loadCurve` -/

@[simp] theorem loadCurve_modFP (c : CurveIdx) (k : Curve) (s : State) : (loadCurve c k s).modFP = s.modFP := rfl
@[simp] theorem loadCurve_modFN (c : CurveIdx) (k : Curve) (s : State) : (loadCurve c k s).modFN = s.modFN := rfl
@[simp] theorem loadCurve_crv0 (c : CurveIdx) (k : Curve) (s : State) : (loadCurve c k s).crv0 = if c = .c0 then some k else s.crv0 := rfl
@[simp] theorem loadCurve_crv1 (c : CurveIdx) (k : Curve) (s : State) : (loadCurve c k s).crv1 = if c = .c1 then some k else s.crv1 := rfl
@[simp] theorem loadCurve_f (c : CurveIdx) (k : Curve) (s : State) : (loadCurve c k s).f = s.f := rfl
@[simp] theorem loadCurve_p (c : CurveIdx) (k : Curve) (s : State) : (loadCurve c k s).p = mapRegs (dropCurve c) s.p := rfl
@[simp] theorem loadCurve_dbuf (c : CurveIdx) (k : Curve) (s : State) : (loadCurve c k s).dbuf = s.dbuf := rfl
@[simp] theorem loadCurve_cmd (c : CurveIdx) (k : Curve) (s : State) : (loadCurve c k s).cmd = s.cmd := rfl
@[simp] theorem loadCurve_run (c : CurveIdx) (k : Curve) (s : State) : (loadCurve c k s).run = s.run := rfl
@[simp] theorem loadCurve_z (c : CurveIdx) (k : Curve) (s : State) : (loadCurve c k s).z = s.z := rfl
@[simp] theorem loadCurve_inf (c : CurveIdx) (k : Curve) (s : State) : (loadCurve c k s).inf = s.inf := rfl
@[simp] theorem loadCurve_eq (c : CurveIdx) (k : Curve) (s : State) : (loadCurve c k s).eq = s.eq := rfl
@[simp] theorem loadCurve_ovr (c : CurveIdx) (k : Curve) (s : State) : (loadCurve c k s).ovr = s.ovr := rfl
@[simp] theorem loadCurve_err (c : CurveIdx) (k : Curve) (s : State) : (loadCurve c k s).err = s.err := rfl
@[simp] theorem loadCurve_inReset (c : CurveIdx) (k : Curve) (s : State) : (loadCurve c k s).inReset = s.inReset := rfl
@[simp] theorem loadCurve_events (c : CurveIdx) (k : Curve) (s : State) : (loadCurve c k s).events = s.events := rfl
@[simp] theorem loadCurve_replies (c : CurveIdx) (k : Curve) (s : State) : (loadCurve c k s).replies = s.replies := rfl
@[simp] theorem loadCurve_draws (c : CurveIdx) (k : Curve) (s : State) : (loadCurve c k s).draws = s.draws := rfl
@[simp] theorem loadCurve_modulus (c : CurveIdx) (k : Curve) (s : State) (n : Bank) : (loadCurve c k s).modulus n = s.modulus n := rfl
@[simp] theorem loadCurve_fReg (c : CurveIdx) (k : Curve) (s : State) (i : FIdx) : (loadCurve c k s).fReg i = s.fReg i := rfl

/-! ### `setDbuf` -/

@[simp] theorem setDbuf_modFP (v : Word) (s : State) : (setDbuf v s).modFP = s.modFP := rfl
@[simp] theorem setDbuf_modFN (v : Word) (s : State) : (setDbuf v s).modFN = s.modFN := rfl
@[simp] theorem setDbuf_crv0 (v : Word) (s : State) : (setDbuf v s).crv0 = s.crv0 := rfl
@[simp] theorem setDbuf_crv1 (v : Word) (s : State) : (setDbuf v s).crv1 = s.crv1 := rfl
@[simp] theorem setDbuf_f (v : Word) (s : State) : (setDbuf v s).f = s.f := rfl
@[simp] theorem setDbuf_p (v : Word) (s : State) : (setDbuf v s).p = s.p := rfl
@[simp] theorem setDbuf_dbuf (v : Word) (s : State) : (setDbuf v s).dbuf = v := rfl
@[simp] theorem setDbuf_cmd (v : Word) (s : State) : (setDbuf v s).cmd = s.cmd := rfl
@[simp] theorem setDbuf_run (v : Word) (s : State) : (setDbuf v s).run = s.run := rfl
@[simp] theorem setDbuf_z (v : Word) (s : State) : (setDbuf v s).z = s.z := rfl
@[simp] theorem setDbuf_inf (v : Word) (s : State) : (setDbuf v s).inf = s.inf := rfl
@[simp] theorem setDbuf_eq (v : Word) (s : State) : (setDbuf v s).eq = s.eq := rfl
@[simp] theorem setDbuf_ovr (v : Word) (s : State) : (setDbuf v s).ovr = s.ovr := rfl
@[simp] theorem setDbuf_err (v : Word) (s : State) : (setDbuf v s).err = s.err := rfl
@[simp] theorem setDbuf_inReset (v : Word) (s : State) : (setDbuf v s).inReset = s.inReset := rfl
@[simp] theorem setDbuf_events (v : Word) (s : State) : (setDbuf v s).events = s.events := rfl
@[simp] theorem setDbuf_replies (v : Word) (s : State) : (setDbuf v s).replies = s.replies := rfl
@[simp] theorem setDbuf_draws (v : Word) (s : State) : (setDbuf v s).draws = s.draws := rfl
@[simp] theorem setDbuf_modulus (v : Word) (s : State) (n : Bank) : (setDbuf v s).modulus n = s.modulus n := rfl
@[simp] theorem setDbuf_curve (v : Word) (s : State) (n : CurveIdx) : (setDbuf v s).curve n = s.curve n := rfl
@[simp] theorem setDbuf_fReg (v : Word) (s : State) (i : FIdx) : (setDbuf v s).fReg i = s.fReg i := rfl
@[simp] theorem setDbuf_pReg (v : Word) (s : State) (i : PIdx) : (setDbuf v s).pReg i = s.pReg i := rfl

/-! ### `setEq` -/

@[simp] theorem setEq_modFP (b : Bool) (s : State) : (setEq b s).modFP = s.modFP := rfl
@[simp] theorem setEq_modFN (b : Bool) (s : State) : (setEq b s).modFN = s.modFN := rfl
@[simp] theorem setEq_crv0 (b : Bool) (s : State) : (setEq b s).crv0 = s.crv0 := rfl
@[simp] theorem setEq_crv1 (b : Bool) (s : State) : (setEq b s).crv1 = s.crv1 := rfl
@[simp] theorem setEq_f (b : Bool) (s : State) : (setEq b s).f = s.f := rfl
@[simp] theorem setEq_p (b : Bool) (s : State) : (setEq b s).p = s.p := rfl
@[simp] theorem setEq_dbuf (b : Bool) (s : State) : (setEq b s).dbuf = s.dbuf := rfl
@[simp] theorem setEq_cmd (b : Bool) (s : State) : (setEq b s).cmd = s.cmd := rfl
@[simp] theorem setEq_run (b : Bool) (s : State) : (setEq b s).run = s.run := rfl
@[simp] theorem setEq_z (b : Bool) (s : State) : (setEq b s).z = s.z := rfl
@[simp] theorem setEq_inf (b : Bool) (s : State) : (setEq b s).inf = s.inf := rfl
@[simp] theorem setEq_eq (b : Bool) (s : State) : (setEq b s).eq = b := rfl
@[simp] theorem setEq_ovr (b : Bool) (s : State) : (setEq b s).ovr = s.ovr := rfl
@[simp] theorem setEq_err (b : Bool) (s : State) : (setEq b s).err = s.err := rfl
@[simp] theorem setEq_inReset (b : Bool) (s : State) : (setEq b s).inReset = s.inReset := rfl
@[simp] theorem setEq_events (b : Bool) (s : State) : (setEq b s).events = s.events := rfl
@[simp] theorem setEq_replies (b : Bool) (s : State) : (setEq b s).replies = s.replies := rfl
@[simp] theorem setEq_draws (b : Bool) (s : State) : (setEq b s).draws = s.draws := rfl
@[simp] theorem setEq_modulus (b : Bool) (s : State) (n : Bank) : (setEq b s).modulus n = s.modulus n := rfl
@[simp] theorem setEq_curve (b : Bool) (s : State) (n : CurveIdx) : (setEq b s).curve n = s.curve n := rfl
@[simp] theorem setEq_fReg (b : Bool) (s : State) (i : FIdx) : (setEq b s).fReg i = s.fReg i := rfl
@[simp] theorem setEq_pReg (b : Bool) (s : State) (i : PIdx) : (setEq b s).pReg i = s.pReg i := rfl

/-! ### `setInf` -/

@[simp] theorem setInf_modFP (b : Bool) (s : State) : (setInf b s).modFP = s.modFP := rfl
@[simp] theorem setInf_modFN (b : Bool) (s : State) : (setInf b s).modFN = s.modFN := rfl
@[simp] theorem setInf_crv0 (b : Bool) (s : State) : (setInf b s).crv0 = s.crv0 := rfl
@[simp] theorem setInf_crv1 (b : Bool) (s : State) : (setInf b s).crv1 = s.crv1 := rfl
@[simp] theorem setInf_f (b : Bool) (s : State) : (setInf b s).f = s.f := rfl
@[simp] theorem setInf_p (b : Bool) (s : State) : (setInf b s).p = s.p := rfl
@[simp] theorem setInf_dbuf (b : Bool) (s : State) : (setInf b s).dbuf = s.dbuf := rfl
@[simp] theorem setInf_cmd (b : Bool) (s : State) : (setInf b s).cmd = s.cmd := rfl
@[simp] theorem setInf_run (b : Bool) (s : State) : (setInf b s).run = s.run := rfl
@[simp] theorem setInf_z (b : Bool) (s : State) : (setInf b s).z = s.z := rfl
@[simp] theorem setInf_inf (b : Bool) (s : State) : (setInf b s).inf = b := rfl
@[simp] theorem setInf_eq (b : Bool) (s : State) : (setInf b s).eq = s.eq := rfl
@[simp] theorem setInf_ovr (b : Bool) (s : State) : (setInf b s).ovr = s.ovr := rfl
@[simp] theorem setInf_err (b : Bool) (s : State) : (setInf b s).err = s.err := rfl
@[simp] theorem setInf_inReset (b : Bool) (s : State) : (setInf b s).inReset = s.inReset := rfl
@[simp] theorem setInf_events (b : Bool) (s : State) : (setInf b s).events = s.events := rfl
@[simp] theorem setInf_replies (b : Bool) (s : State) : (setInf b s).replies = s.replies := rfl
@[simp] theorem setInf_draws (b : Bool) (s : State) : (setInf b s).draws = s.draws := rfl
@[simp] theorem setInf_modulus (b : Bool) (s : State) (n : Bank) : (setInf b s).modulus n = s.modulus n := rfl
@[simp] theorem setInf_curve (b : Bool) (s : State) (n : CurveIdx) : (setInf b s).curve n = s.curve n := rfl
@[simp] theorem setInf_fReg (b : Bool) (s : State) (i : FIdx) : (setInf b s).fReg i = s.fReg i := rfl
@[simp] theorem setInf_pReg (b : Bool) (s : State) (i : PIdx) : (setInf b s).pReg i = s.pReg i := rfl

/-! ### `drawn` -/

@[simp] theorem drawn_modFP (s : State) : (drawn s).modFP = s.modFP := rfl
@[simp] theorem drawn_modFN (s : State) : (drawn s).modFN = s.modFN := rfl
@[simp] theorem drawn_crv0 (s : State) : (drawn s).crv0 = s.crv0 := rfl
@[simp] theorem drawn_crv1 (s : State) : (drawn s).crv1 = s.crv1 := rfl
@[simp] theorem drawn_f (s : State) : (drawn s).f = s.f := rfl
@[simp] theorem drawn_p (s : State) : (drawn s).p = s.p := rfl
@[simp] theorem drawn_dbuf (s : State) : (drawn s).dbuf = s.dbuf := rfl
@[simp] theorem drawn_cmd (s : State) : (drawn s).cmd = s.cmd := rfl
@[simp] theorem drawn_run (s : State) : (drawn s).run = s.run := rfl
@[simp] theorem drawn_z (s : State) : (drawn s).z = s.z := rfl
@[simp] theorem drawn_inf (s : State) : (drawn s).inf = s.inf := rfl
@[simp] theorem drawn_eq (s : State) : (drawn s).eq = s.eq := rfl
@[simp] theorem drawn_ovr (s : State) : (drawn s).ovr = s.ovr := rfl
@[simp] theorem drawn_err (s : State) : (drawn s).err = s.err := rfl
@[simp] theorem drawn_inReset (s : State) : (drawn s).inReset = s.inReset := rfl
@[simp] theorem drawn_events (s : State) : (drawn s).events = s.events := rfl
@[simp] theorem drawn_replies (s : State) : (drawn s).replies = s.replies := rfl
@[simp] theorem drawn_draws (s : State) : (drawn s).draws = s.draws + 1 := rfl
@[simp] theorem drawn_modulus (s : State) (n : Bank) : (drawn s).modulus n = s.modulus n := rfl
@[simp] theorem drawn_curve (s : State) (n : CurveIdx) : (drawn s).curve n = s.curve n := rfl
@[simp] theorem drawn_fReg (s : State) (i : FIdx) : (drawn s).fReg i = s.fReg i := rfl
@[simp] theorem drawn_pReg (s : State) (i : PIdx) : (drawn s).pReg i = s.pReg i := rfl

/-! ### `unitReset` -/

@[simp] theorem unitReset_modFP (s : State) : (unitReset s).modFP = State.reset.modFP := rfl
@[simp] theorem unitReset_modFN (s : State) : (unitReset s).modFN = State.reset.modFN := rfl
@[simp] theorem unitReset_crv0 (s : State) : (unitReset s).crv0 = State.reset.crv0 := rfl
@[simp] theorem unitReset_crv1 (s : State) : (unitReset s).crv1 = State.reset.crv1 := rfl
@[simp] theorem unitReset_f (s : State) : (unitReset s).f = State.reset.f := rfl
@[simp] theorem unitReset_p (s : State) : (unitReset s).p = State.reset.p := rfl
@[simp] theorem unitReset_dbuf (s : State) : (unitReset s).dbuf = State.reset.dbuf := rfl
@[simp] theorem unitReset_cmd (s : State) : (unitReset s).cmd = State.reset.cmd := rfl
@[simp] theorem unitReset_run (s : State) : (unitReset s).run = State.reset.run := rfl
@[simp] theorem unitReset_z (s : State) : (unitReset s).z = State.reset.z := rfl
@[simp] theorem unitReset_inf (s : State) : (unitReset s).inf = State.reset.inf := rfl
@[simp] theorem unitReset_eq (s : State) : (unitReset s).eq = State.reset.eq := rfl
@[simp] theorem unitReset_ovr (s : State) : (unitReset s).ovr = State.reset.ovr := rfl
@[simp] theorem unitReset_err (s : State) : (unitReset s).err = State.reset.err := rfl
@[simp] theorem unitReset_inReset (s : State) : (unitReset s).inReset = s.inReset := rfl
@[simp] theorem unitReset_events (s : State) : (unitReset s).events = s.events := rfl
@[simp] theorem unitReset_replies (s : State) : (unitReset s).replies = s.replies := rfl
@[simp] theorem unitReset_draws (s : State) : (unitReset s).draws = s.draws := rfl

/-! ### Reset -/

@[simp] theorem reset_fReg (i : FIdx) : State.reset.fReg i = none := by
  simp [State.fReg, State.reset]

@[simp] theorem reset_pReg (i : PIdx) : State.reset.pReg i = none := by
  simp [State.pReg, State.reset]

@[simp] theorem reset_modulus (b : Bank) : State.reset.modulus b = none := by cases b <;> rfl

@[simp] theorem reset_curve (c : CurveIdx) : State.reset.curve c = none := by cases c <;> rfl

@[simp] theorem unitReset_fReg (s : State) (i : FIdx) : (unitReset s).fReg i = none := reset_fReg i

@[simp] theorem unitReset_pReg (s : State) (i : PIdx) : (unitReset s).pReg i = none := reset_pReg i

@[simp] theorem unitReset_modulus (s : State) (b : Bank) : (unitReset s).modulus b = none := reset_modulus b

@[simp] theorem unitReset_curve (s : State) (c : CurveIdx) : (unitReset s).curve c = none := reset_curve c

/-! ### Registers and banks by number -/

/-- Reading a mapped file is mapping what was read. -/
@[simp] theorem mapRegs_getElem {α : Type} {n : Nat} (g : α → α) (v : Vector α n) (i : Nat) (h : i < n) :
    (mapRegs g v)[i] = g v[i] := by
  simp [mapRegs]

/-- The register just written reads as written. -/
@[simp] theorem setF_fReg_self (d : FIdx) (r : Option FReg) (s : State) : (setF d r s).fReg d = r := by
  simp [State.fReg]

/-- Every other field register reads as before. -/
theorem setF_fReg_ne {d i : FIdx} (h : i ≠ d) (r : Option FReg) (s : State) : (setF d r s).fReg i = s.fReg i := by
  have hne : d.val ≠ i.val := fun e => h (Fin.ext e.symm)
  simp [State.fReg, Vector.getElem_set_ne d.isLt i.isLt hne]

/-- The register just written reads as written. -/
@[simp] theorem setP_pReg_self (d : PIdx) (q : Option PReg) (s : State) : (setP d q s).pReg d = q := by
  simp [State.pReg]

/-- Every other point register reads as before. -/
theorem setP_pReg_ne {d i : PIdx} (h : i ≠ d) (q : Option PReg) (s : State) : (setP d q s).pReg i = s.pReg i := by
  have hne : d.val ≠ i.val := fun e => h (Fin.ext e.symm)
  simp [State.pReg, Vector.getElem_set_ne d.isLt i.isLt hne]

/-- `wF` and a read of any field register. -/
theorem writeF_fReg (d i : FIdx) (t : Tag) (v : Word) (s : State) :
    (writeF d t v s).fReg i = if i = d then some ⟨t, v⟩ else s.fReg i := by
  change (setF d (some ⟨t, v⟩) s).fReg i = _
  by_cases h : i = d
  · subst h; simp
  · simp [h, setF_fReg_ne h]

/-- `wP` and a read of any point register. -/
theorem writeP_pReg (d i : PIdx) (c : CurveIdx) (q : Point Word) (s : State) :
    (writeP d c q s).pReg i = if i = d then some ⟨c, q⟩ else s.pReg i := by
  change (setP d (some ⟨c, q⟩) s).pReg i = _
  by_cases h : i = d
  · subst h; simp
  · simp [h, setP_pReg_ne h]

/-- A bank after `LDMOD`. -/
theorem loadModulus_modulus (b n : Bank) (m : Word) (s : State) :
    (loadModulus b m s).modulus n = if n = b then some m else s.modulus n := by
  cases b <;> cases n <;> rfl

/-- A curve bank after `LDMOD`. -/
theorem loadModulus_curve (b : Bank) (m : Word) (s : State) (c : CurveIdx) :
    (loadModulus b m s).curve c = if b = .fp then none else s.curve c := by
  cases b <;> cases c <;> rfl

/-- A field register after `LDMOD`. -/
theorem loadModulus_fReg (b : Bank) (m : Word) (s : State) (i : FIdx) :
    (loadModulus b m s).fReg i = dropTag b.tag (s.fReg i) := by
  simp [State.fReg]

/-- A point register after `LDMOD`. -/
theorem loadModulus_pReg (b : Bank) (m : Word) (s : State) (i : PIdx) :
    (loadModulus b m s).pReg i = if b = .fp then none else s.pReg i := by
  cases b <;> simp [State.pReg]

/-- A curve bank after `LDCRV`. -/
theorem loadCurve_curve (c n : CurveIdx) (k : Curve) (s : State) :
    (loadCurve c k s).curve n = if n = c then some k else s.curve n := by
  cases c <;> cases n <;> rfl

/-- A point register after `LDCRV`. -/
theorem loadCurve_pReg (c : CurveIdx) (k : Curve) (s : State) (i : PIdx) :
    (loadCurve c k s).pReg i = dropCurve c (s.pReg i) := by
  simp [State.pReg]

/-- A register survives the invalidation of a tag exactly when it has another tag. -/
theorem dropTag_eq_some {t : Tag} {r : Option FReg} {x : FReg} :
    dropTag t r = some x ↔ r = some x ∧ x.tag ≠ t := by
  cases r with
  | none => simp [dropTag]
  | some y => by_cases h : y.tag = t <;> simp [dropTag, h] <;> (intro e; subst e; simp [h])

/-- A point survives the invalidation of a curve bank exactly when it belongs to the other. -/
theorem dropCurve_eq_some {c : CurveIdx} {q : Option PReg} {x : PReg} :
    dropCurve c q = some x ↔ q = some x ∧ x.crv ≠ c := by
  cases q with
  | none => simp [dropCurve]
  | some y => by_cases h : y.crv = c <;> simp [dropCurve, h] <;> (intro e; subst e; simp [h])

end Sys2Proof.Machine
end

