-- ==== Sys2Proof/Laws/Operands.lean ====
section
/-! SUPPORT. What each operand form can answer (if it answers a next state, then one of these cases holds), and what it answers when its
conditions are met. -/

namespace Sys2Proof.Machine

/-- A taken fault answers exactly the faulted state. -/
@[simp] theorem takeFault_eq_next {e : ErrCode} {s t : State} : takeFault e s = .next t ↔ t = faulted e s := by
  simp [takeFault, eq_comm]

/-- A retired command answers exactly the retired state. -/
@[simp] theorem retire_eq_next {s t : State} : retire s = .next t ↔ t = retired s := by
  simp [retire, eq_comm]

/-- A requirement that holds changes nothing. -/
@[simp] theorem require_true (e : ErrCode) (s : State) (k : Out) : require true e s k = k := rfl

/-- A requirement that fails faults. -/
@[simp] theorem require_false (e : ErrCode) (s : State) (k : Out) : require false e s k = takeFault e s := rfl

/-- What a requirement can answer. -/
theorem require_next {c : Bool} {e : ErrCode} {s t : State} {k : Out} (h : require c e s k = .next t) :
    (c = false ∧ t = faulted e s) ∨ (c = true ∧ k = .next t) := by
  cases c
  · exact .inl ⟨rfl, by simpa using h⟩
  · exact .inr ⟨rfl, h⟩

/-- `srcF` of a valid register hands it on. -/
theorem srcF_some {i : FIdx} {s : State} {r : FReg} (h : s.fReg i = some r) (k : FReg → Out) : srcF i s k = k r := by
  simp [srcF, h]

/-- `srcF` of an invalid register faults with `E_UNINIT`. -/
theorem srcF_none {i : FIdx} {s : State} (h : s.fReg i = none) (k : FReg → Out) : srcF i s k = takeFault .uninit s := by
  simp [srcF, h]

/-- What `srcF` can answer. -/
theorem srcF_next {i : FIdx} {s t : State} {k : FReg → Out} (h : srcF i s k = .next t) :
    (s.fReg i = none ∧ t = faulted .uninit s) ∨ ∃ r, s.fReg i = some r ∧ k r = .next t := by
  cases hr : s.fReg i with
  | none => exact .inl ⟨rfl, by simpa [srcF_none hr] using h⟩
  | some r => exact .inr ⟨r, rfl, by rwa [srcF_some hr] at h⟩

/-- `srcP` of a valid register hands it on. -/
theorem srcP_some {i : PIdx} {s : State} {q : PReg} (h : s.pReg i = some q) (k : PReg → Out) : srcP i s k = k q := by
  simp [srcP, h]

/-- `srcP` of an invalid register faults with `E_UNINIT`. -/
theorem srcP_none {i : PIdx} {s : State} (h : s.pReg i = none) (k : PReg → Out) : srcP i s k = takeFault .uninit s := by
  simp [srcP, h]

/-- What `srcP` can answer. -/
theorem srcP_next {i : PIdx} {s t : State} {k : PReg → Out} (h : srcP i s k = .next t) :
    (s.pReg i = none ∧ t = faulted .uninit s) ∨ ∃ q, s.pReg i = some q ∧ k q = .next t := by
  cases hr : s.pReg i with
  | none => exact .inl ⟨rfl, by simpa [srcP_none hr] using h⟩
  | some q => exact .inr ⟨q, rfl, by rwa [srcP_some hr] at h⟩

/-- A valid bank hands its modulus on. -/
theorem needModulus_some {b : Bank} {s : State} {m : Word} (h : s.modulus b = some m) (k : Nat → Out) :
    needModulus b s k = k m.toNat := by
  simp [needModulus, h]

/-- What a required bank can answer. -/
theorem needModulus_next {b : Bank} {s t : State} {k : Nat → Out} (h : needModulus b s k = .next t) :
    (s.modulus b = none ∧ t = faulted .nomod s) ∨ ∃ m, s.modulus b = some m ∧ k m.toNat = .next t := by
  unfold needModulus at h
  cases hm : s.modulus b with
  | none => exact .inl ⟨rfl, by simpa [hm] using h⟩
  | some m => exact .inr ⟨m, rfl, by simpa [hm] using h⟩

/-- A valid curve bank hands its curve on. -/
theorem needCurve_some {c : CurveIdx} {s : State} {v : Curve} (h : s.curve c = some v) (k : Curve → Out) :
    needCurve c s k = k v := by
  simp [needCurve, h]

/-- What a required curve bank can answer. -/
theorem needCurve_next {c : CurveIdx} {s t : State} {k : Curve → Out} (h : needCurve c s k = .next t) :
    (s.curve c = none ∧ t = faulted .nocrv s) ∨ ∃ v, s.curve c = some v ∧ k v = .next t := by
  unfold needCurve at h
  cases hm : s.curve c with
  | none => exact .inl ⟨rfl, by simpa [hm] using h⟩
  | some v => exact .inr ⟨v, rfl, by simpa [hm] using h⟩

/-- The bank of a bank's tag. -/
@[simp] theorem tagBank_tag (b : Bank) : tagBank b.tag = some b := by cases b <;> rfl

/-- A tag that has a bank is that bank's tag. -/
theorem tagBank_eq_some {t : Tag} {b : Bank} : tagBank t = some b ↔ t = b.tag := by
  cases t <;> cases b <;> simp [tagBank, Bank.tag]

/-- A tag other than `RAW` has a bank. -/
theorem exists_bank_of_ne_raw {t : Tag} (h : t ≠ .raw) : ∃ b : Bank, t = b.tag := by
  cases t with
  | fp => exact ⟨.fp, rfl⟩
  | fn => exact ⟨.fn, rfl⟩
  | raw => exact absurd rfl h

/-- The modulus of a bank's tag is the bank's. -/
theorem tagModulus_some {b : Bank} {s : State} {m : Word} (h : s.modulus b = some m) (k : Nat → Out) :
    tagModulus b.tag s k = k m.toNat := by
  simp [tagModulus, h]

/-- The modulus of a tag answers only with the tag's valid bank. -/
theorem tagModulus_next {tg : Tag} {s t : State} {k : Nat → Out} (h : tagModulus tg s k = .next t) :
    ∃ b m, tg = b.tag ∧ s.modulus b = some m ∧ k m.toNat = .next t := by
  unfold tagModulus at h
  cases hb : tagBank tg with
  | none => simp [hb] at h
  | some b =>
    cases hm : s.modulus b with
    | none => simp [hb, hm] at h
    | some m => exact ⟨b, m, tagBank_eq_some.mp hb, hm, by simpa [hb, hm] using h⟩

/-- The coordinate modulus, when its bank is valid. -/
theorem coordModulus_some {s : State} {m : Word} (h : s.modFP = some m) (k : Nat → Out) : coordModulus s k = k m.toNat := by
  simp [coordModulus, h]

/-- The coordinate modulus answers only with the valid bank. -/
theorem coordModulus_next {s t : State} {k : Nat → Out} (h : coordModulus s k = .next t) :
    ∃ m, s.modFP = some m ∧ k m.toNat = .next t := by
  unfold coordModulus at h
  cases hm : s.modFP with
  | none => simp [hm] at h
  | some m => exact ⟨m, rfl, by simpa [hm] using h⟩

/-- The curve of a point, when its bank is valid. -/
theorem pointCurve_some {q : PReg} {s : State} {v : Curve} (h : s.curve q.crv = some v) (k : Curve → Out) :
    pointCurve q s k = k v := by
  simp [pointCurve, h]

/-- The curve of a point answers only with its valid bank. -/
theorem pointCurve_next {q : PReg} {s t : State} {k : Curve → Out} (h : pointCurve q s k = .next t) :
    ∃ v, s.curve q.crv = some v ∧ k v = .next t := by
  unfold pointCurve at h
  cases hm : s.curve q.crv with
  | none => simp [hm] at h
  | some v => exact ⟨v, rfl, by simpa [hm] using h⟩

/-- Two valid registers of one bank hand themselves and its modulus on (41 R151). -/
theorem fieldPair_some {a b : FIdx} {s : State} {n : Bank} {x y m : Word} (ha : s.fReg a = some ⟨n.tag, x⟩)
    (hb : s.fReg b = some ⟨n.tag, y⟩) (hm : s.modulus n = some m) (k : FReg → FReg → Nat → Out) :
    fieldPair a b s k = k ⟨n.tag, x⟩ ⟨n.tag, y⟩ m.toNat := by
  have hraw : n.tag ≠ Tag.raw := by cases n <;> simp [Bank.tag]
  simp [fieldPair, srcF_some ha, srcF_some hb, tagModulus_some hm, hraw]

/-- What `fieldpair` can answer. -/
theorem fieldPair_next {a b : FIdx} {s t : State} {k : FReg → FReg → Nat → Out} (h : fieldPair a b s k = .next t) :
    t = faulted .uninit s ∨ t = faulted .domain s ∨
      ∃ n x y m, s.fReg a = some ⟨Bank.tag n, x⟩ ∧ s.fReg b = some ⟨Bank.tag n, y⟩ ∧ s.modulus n = some m ∧
        k ⟨Bank.tag n, x⟩ ⟨Bank.tag n, y⟩ m.toNat = .next t := by
  obtain ⟨-, rfl⟩ | ⟨⟨ta, x⟩, ha, h⟩ := srcF_next h
  · exact .inl rfl
  obtain ⟨-, rfl⟩ | ⟨⟨tb, y⟩, hb, h⟩ := srcF_next h
  · exact .inl rfl
  obtain ⟨-, rfl⟩ | ⟨hc, h⟩ := require_next h
  · exact .inr (.inl rfl)
  obtain ⟨n, m, htag, hm, h⟩ := tagModulus_next h
  simp only [ne_eq, Bool.and_eq_true, decide_eq_true_eq] at hc htag
  obtain ⟨-, rfl⟩ := hc
  subst htag
  exact .inr (.inr ⟨n, x, y, m, ha, hb, hm, h⟩)

/-- A valid register of a bank hands itself and its modulus on (41 R151). -/
theorem fieldOne_some {a : FIdx} {s : State} {n : Bank} {x m : Word} (ha : s.fReg a = some ⟨n.tag, x⟩)
    (hm : s.modulus n = some m) (k : FReg → Nat → Out) : fieldOne a s k = k ⟨n.tag, x⟩ m.toNat := by
  have hraw : n.tag ≠ Tag.raw := by cases n <;> simp [Bank.tag]
  simp [fieldOne, srcF_some ha, tagModulus_some hm, hraw]

/-- What `fieldone` can answer. -/
theorem fieldOne_next {a : FIdx} {s t : State} {k : FReg → Nat → Out} (h : fieldOne a s k = .next t) :
    t = faulted .uninit s ∨ t = faulted .domain s ∨
      ∃ n x m, s.fReg a = some ⟨Bank.tag n, x⟩ ∧ s.modulus n = some m ∧ k ⟨Bank.tag n, x⟩ m.toNat = .next t := by
  obtain ⟨-, rfl⟩ | ⟨⟨ta, x⟩, ha, h⟩ := srcF_next h
  · exact .inl rfl
  obtain ⟨-, rfl⟩ | ⟨hc, h⟩ := require_next h
  · exact .inr (.inl rfl)
  obtain ⟨n, m, htag, hm, h⟩ := tagModulus_next h
  simp only at htag
  subst htag
  exact .inr (.inr ⟨n, x, m, ha, hm, h⟩)

/-- Two valid points of one curve hand themselves and the curve on (43 R210, R212). -/
theorem pointPair_some {a b : PIdx} {s : State} {qa qb : PReg} {v : Curve} (ha : s.pReg a = some qa) (hb : s.pReg b = some qb)
    (hva : s.curve qa.crv = some v) (hvb : s.curve qb.crv = some v) (k : PReg → PReg → Curve → Out) :
    pointPair a b s k = k qa qb v := by
  simp [pointPair, srcP_some ha, srcP_some hb, pointCurve_some hva, pointCurve_some hvb]

/-- What two point operands can answer. -/
theorem pointPair_next {a b : PIdx} {s t : State} {k : PReg → PReg → Curve → Out} (h : pointPair a b s k = .next t) :
    t = faulted .uninit s ∨ t = faulted .curve s ∨
      ∃ qa qb v, s.pReg a = some qa ∧ s.pReg b = some qb ∧ s.curve qa.crv = some v ∧ s.curve qb.crv = some v ∧
        k qa qb v = .next t := by
  obtain ⟨-, rfl⟩ | ⟨qa, ha, h⟩ := srcP_next h
  · exact .inl rfl
  obtain ⟨-, rfl⟩ | ⟨qb, hb, h⟩ := srcP_next h
  · exact .inl rfl
  obtain ⟨va, hva, h⟩ := pointCurve_next h
  obtain ⟨vb, hvb, h⟩ := pointCurve_next h
  obtain ⟨-, rfl⟩ | ⟨hc, hk⟩ := require_next h
  · exact .inr (.inl rfl)
  obtain rfl : va = vb := by simpa using hc
  exact .inr (.inr ⟨qa, qb, va, ha, hb, hva, hvb, hk⟩)

end Sys2Proof.Machine
end

