-- ==== Sys2Proof/Laws/Prime.lean ====
section
/-! SUPPORT. The primality test of Sys2Proof/Machine/Prime.lean is right: it answers true exactly for the primes. The search for a divisor is
by cases; the one named prime has a chain of Lucas certificates (a witness of full order for each prime of the chain). -/

namespace Sys2Proof.Arith

-- The kernel evaluations below wait for each other: taken in order they need a few threads, not one each.
set_option Elab.async false

/-- The search answers true exactly when no candidate from `k` on, up to the square root, divides. -/
theorem noDivisorFrom_iff (M : Nat) : ∀ (fuel k : Nat), M ≤ fuel + k → 2 ≤ k →
    (noDivisorFrom M fuel k = true ↔ ∀ d, k ≤ d → d * d ≤ M → ¬ d ∣ M)
  | 0, k, hf, hk => by
    simp only [noDivisorFrom, true_iff]
    intro d hkd hdd
    nlinarith [Nat.mul_le_mul_right d (hk.trans hkd)]
  | fuel + 1, k, hf, hk => by
    rw [noDivisorFrom]
    split
    · next h =>
      simp only [true_iff]
      intro d hkd hdd
      nlinarith [Nat.mul_le_mul hkd hkd]
    · next h =>
      split
      · next hd =>
        simp only [Bool.false_eq_true, false_iff]
        exact fun hall => hall k le_rfl (by omega) (Nat.dvd_of_mod_eq_zero hd)
      · next hd =>
        rw [noDivisorFrom_iff M fuel (k + 1) (by omega) (by omega)]
        constructor
        · intro hall d hkd hdd hdvd
          rcases Nat.eq_or_lt_of_le hkd with rfl | hlt
          · exact hd (Nat.mod_eq_zero_of_dvd hdvd)
          · exact hall d hlt hdd hdvd
        · exact fun hall d hkd => hall d (by omega)

/-- The search from 2 finds the primes. -/
theorem noDivisorFrom_two_iff {M : Nat} (hM : 2 ≤ M) : noDivisorFrom M M 2 = true ↔ M.Prime := by
  rw [noDivisorFrom_iff M M 2 (by omega) (by omega), Nat.prime_def_le_sqrt]
  constructor
  · exact fun h => ⟨hM, fun d hd hs => h d hd (Nat.le_sqrt.mp hs)⟩
  · exact fun h d hd hs => h.2 d hd (Nat.le_sqrt.mpr hs)

/-- A Lucas certificate on naturals: `a` has order `p - 1` modulo `p`, checked at the prime factors of `p - 1`. -/
theorem prime_of_lucas {p a : Nat} (fs : List Nat) (hp : 2 ≤ p) (hlt : p < 2 ^ 256) (hprod : fs.prod = p - 1)
    (hprime : ∀ q ∈ fs, q.Prime) (h1 : powmod p a (p - 1) = 1) (hne : ∀ q ∈ fs, powmod p a ((p - 1) / q) ≠ 1) : p.Prime := by
  have cast : ∀ e, e < 2 ^ 256 → ((a : ZMod p) ^ e = 1 ↔ powmod p a e = 1) := by
    intro e he
    rw [powmod_eq hp a he, ← Nat.cast_pow, ← Nat.cast_one, ZMod.natCast_eq_natCast_iff]
    unfold Nat.ModEq
    rw [Nat.mod_eq_of_lt (show 1 < p by omega)]
  refine lucas_primality p a ((cast _ (by omega)).mpr h1) ?_
  intro q hq hdvd
  have hmem : q ∈ fs := by
    rw [← hprod] at hdvd
    obtain ⟨r, hr, hqr⟩ := (Nat.Prime.prime hq).dvd_prod_iff.mp hdvd
    rwa [(Nat.prime_dvd_prime_iff_eq hq (hprime r hr)).mp hqr]
  have hle : (p - 1) / q < 2 ^ 256 := lt_of_le_of_lt (Nat.div_le_self _ _) (by omega)
  exact fun h => hne q hmem ((cast _ hle).mp h)

theorem prime_13331831 : Nat.Prime 13331831 := by
  refine prime_of_lucas (a := 13) [2, 5, 971, 1373] (by norm_num) (by norm_num) (by norm_num) ?_ (by decide +kernel) (by decide +kernel)
  simp only [List.forall_mem_cons, List.not_mem_nil, false_imp_iff, implies_true, and_true]
  exact ⟨by norm_num, by norm_num, by norm_num, by norm_num⟩

theorem prime_d18 : Nat.Prime 173378833005251801 := by
  refine prime_of_lucas (a := 6) [2, 2, 2, 5, 5, 2621, 24809, 13331831] (by norm_num) (by norm_num) (by norm_num) ?_ (by decide +kernel) (by decide +kernel)
  simp only [List.forall_mem_cons, List.not_mem_nil, false_imp_iff, implies_true, and_true]
  exact ⟨by norm_num, by norm_num, by norm_num, by norm_num, by norm_num, by norm_num, by norm_num, prime_13331831⟩

theorem prime_d23 : Nat.Prime 22149492674086928081353 := by
  refine prime_of_lucas (a := 5) [2, 2, 2, 3, 5323, 173378833005251801] (by norm_num) (by norm_num) (by norm_num) ?_ (by decide +kernel) (by decide +kernel)
  simp only [List.forall_mem_cons, List.not_mem_nil, false_imp_iff, implies_true, and_true]
  exact ⟨by norm_num, by norm_num, by norm_num, by norm_num, by norm_num, prime_d18⟩

theorem prime_d24 : Nat.Prime 132896956044521568488119 := by
  refine prime_of_lucas (a := 6) [2, 3, 22149492674086928081353] (by norm_num) (by norm_num) (by norm_num) ?_ (by decide +kernel) (by decide +kernel)
  simp only [List.forall_mem_cons, List.not_mem_nil, false_imp_iff, implies_true, and_true]
  exact ⟨by norm_num, by norm_num, prime_d23⟩

theorem prime_1206781 : Nat.Prime 1206781 := by
  refine prime_of_lucas (a := 10) [2, 2, 3, 5, 20113] (by norm_num) (by norm_num) (by norm_num) ?_ (by decide +kernel) (by decide +kernel)
  simp only [List.forall_mem_cons, List.not_mem_nil, false_imp_iff, implies_true, and_true]
  exact ⟨by norm_num, by norm_num, by norm_num, by norm_num, by norm_num⟩

theorem prime_7240687 : Nat.Prime 7240687 := by
  refine prime_of_lucas (a := 3) [2, 3, 1206781] (by norm_num) (by norm_num) (by norm_num) ?_ (by decide +kernel) (by decide +kernel)
  simp only [List.forall_mem_cons, List.not_mem_nil, false_imp_iff, implies_true, and_true]
  exact ⟨by norm_num, by norm_num, prime_1206781⟩

theorem prime_107590001 : Nat.Prime 107590001 := by
  refine prime_of_lucas (a := 3) [2, 2, 2, 2, 5, 5, 5, 5, 7, 29, 53] (by norm_num) (by norm_num) (by norm_num) ?_ (by decide +kernel) (by decide +kernel)
  simp only [List.forall_mem_cons, List.not_mem_nil, false_imp_iff, implies_true, and_true]
  exact ⟨by norm_num, by norm_num, by norm_num, by norm_num, by norm_num, by norm_num, by norm_num, by norm_num, by norm_num, by norm_num, by norm_num⟩

theorem prime_d39 : Nat.Prime 255515944373312847190720520512484175977 := by
  refine prime_of_lucas (a := 3) [2, 2, 2, 7, 7, 11, 1627, 2657, 4423, 41201, 96557, 7240687, 107590001] (by norm_num) (by norm_num) (by norm_num) ?_ (by decide +kernel) (by decide +kernel)
  simp only [List.forall_mem_cons, List.not_mem_nil, false_imp_iff, implies_true, and_true]
  exact ⟨by norm_num, by norm_num, by norm_num, by norm_num, by norm_num, by norm_num, by norm_num, by norm_num, by norm_num, by norm_num, by norm_num, prime_7240687, prime_107590001⟩

theorem prime_d72 : Nat.Prime 205115282021455665897114700593932402728804164701536103180137503955397371 := by
  refine prime_of_lucas (a := 10) [2, 3, 5, 29, 29, 31, 7723, 132896956044521568488119, 255515944373312847190720520512484175977] (by norm_num) (by norm_num) (by norm_num) ?_ (by decide +kernel) (by decide +kernel)
  simp only [List.forall_mem_cons, List.not_mem_nil, false_imp_iff, implies_true, and_true]
  exact ⟨by norm_num, by norm_num, by norm_num, by norm_num, by norm_num, by norm_num, by norm_num, prime_d24, prime_d39⟩

/-- PBR's coordinate prime is prime. -/
theorem prime_secp256k1P : Nat.Prime secp256k1P := by
  refine prime_of_lucas (a := 3) [2, 3, 7, 13441, 205115282021455665897114700593932402728804164701536103180137503955397371]
    (by decide +kernel) (by decide +kernel) (by decide +kernel) ?_ (by decide +kernel) (by decide +kernel)
  simp only [List.forall_mem_cons, List.not_mem_nil, false_imp_iff, implies_true, and_true]
  exact ⟨by norm_num, by norm_num, by norm_num, by norm_num, prime_d72⟩

/-- The test answers true exactly for the primes (43 R201). -/
theorem isPrime_iff (M : Nat) : isPrime M = true ↔ M.Prime := by
  unfold isPrime
  by_cases hp : M = secp256k1P
  · subst hp; simp [prime_secp256k1P]
  · by_cases hM : 2 ≤ M
    · simp [hp, hM, noDivisorFrom_two_iff hM]
    · have : ¬ M.Prime := fun h => hM h.two_le
      simp [hp, hM, this]

end Sys2Proof.Arith
end

