-- ==== Sys2Proof/Laws/Exec.lean ====
section
/-! SUPPORT. What a command can do, said once for all commands: `exec_cases`. Every rule about all commands follows from it. -/

namespace Sys2Proof.Machine

/-- A value that a command may give a field register: any 256-bit value if `RAW`, a residue of the valid modulus otherwise (10 R35 I2). -/
def FieldValue (s : State) (tg : Tag) (v : Word) : Prop :=
  tg = .raw ∨ ∃ b m, tg = Bank.tag b ∧ s.modulus b = some m ∧ v.toNat < m.toNat

/-- A point that a command may give a point register (10 R35 I5). -/
def PointValue (s : State) (c : CurveIdx) (q : Point Word) : Prop :=
  (∃ k, s.curve c = some k) ∧ ∃ m, s.modFP = some m ∧ PointReduced m.toNat (ptOf ⟨c, q⟩)

/-- A point is on its curve if the modulus is prime (10 R35 I6). -/
def OnItsCurve (s : State) (c : CurveIdx) (q : Point Word) : Prop :=
  ∀ m k, s.modFP = some m → m.toNat.Prime → s.curve c = some k → PointOn m.toNat k.a.toNat k.b.toNat (ptOf ⟨c, q⟩)

/-- A valid register of any tag holds a value that a command may write. -/
theorem fieldValue_of_fReg {s : State} (h : StateInv s) {i : FIdx} {r : FReg} (hr : s.fReg i = some r) : FieldValue s r.tag r.val := by
  by_cases ht : r.tag = .raw
  · exact .inl ht
  · obtain ⟨b, hb⟩ := exists_bank_of_ne_raw ht
    obtain ⟨m, hm, hlt⟩ := h.fields i r b hr hb
    exact .inr ⟨b, m, hb, hm, hlt⟩

/-- A remainder by a valid bank's modulus is a value that a command may write with the bank's tag. -/
theorem fieldValue_mod {s : State} (h : StateInv s) {b : Bank} {m : Word} (hm : s.modulus b = some m) (v : Nat) :
    FieldValue s b.tag (Arith.toWord (v % m.toNat)) := by
  have hlt : v % m.toNat < m.toNat := Nat.mod_lt _ (by have := (h.moduli b m hm).2; omega)
  exact .inr ⟨b, m, rfl, hm, by rwa [Arith.toNat_toWord_of_lt hlt]⟩

/-- A power by a valid bank's modulus is a value that a command may write with the bank's tag. -/
theorem fieldValue_powmod {s : State} (h : StateInv s) {b : Bank} {m : Word} (hm : s.modulus b = some m) (x e : Nat) :
    FieldValue s b.tag (Arith.toWord (Arith.powmod m.toNat x e)) := by
  have hlt : Arith.powmod m.toNat x e < m.toNat := Arith.powmod_lt (by have := (h.moduli b m hm).2; omega) x e
  exact .inr ⟨b, m, rfl, hm, by rwa [Arith.toNat_toWord_of_lt hlt]⟩

/-- A valid point register holds a point that a command may write. -/
theorem pointValue_of_pReg {s : State} (h : StateInv s) {i : PIdx} {q : PReg} (hq : s.pReg i = some q) : PointValue s q.crv q.pt :=
  h.points i q hq

/-- Narrowing the coordinates of a reduced point loses nothing. -/
theorem ptOf_map_toWord {c : CurveIdx} {m : Word} {q : Point Nat} (h : PointReduced m.toNat q) : ptOf ⟨c, q.map Arith.toWord⟩ = q := by
  cases q with
  | infinity => rfl
  | affine x y =>
    simp [ptOf, Point.map, Arith.toNat_toWord_of_lt (h x y rfl).1, Arith.toNat_toWord_of_lt (h x y rfl).2]

/-- Group addition answers reduced points. -/
theorem padd_reduced {M : Nat} (h : 0 < M) (A : Nat) {P Q : Point Nat} (hP : PointReduced M P) (hQ : PointReduced M Q) :
    PointReduced M (Arith.padd M A P Q) := by
  have line (sl x1 y1 x2 : Nat) : PointReduced M (Arith.lineThird M sl x1 y1 x2) := by
    intro x y e; cases e; exact ⟨Nat.mod_lt _ h, Nat.mod_lt _ h⟩
  have inf : PointReduced M .infinity := by intro x y e; cases e
  cases P with
  | infinity => exact hQ
  | affine x1 y1 =>
    cases Q with
    | infinity => exact hP
    | affine x2 y2 =>
      simp only [Arith.padd]
      split_ifs
      · exact inf
      · exact line _ _ _ _
      · exact inf
      · exact line _ _ _ _

/-- Scalar multiplication stays in every set of points that group addition does not leave. -/
theorem smulLoop_mem {M A : Nat} {S : Point Nat → Prop} (hadd : ∀ P Q, S P → S Q → S (Arith.padd M A P Q)) :
    ∀ (fuel : Nat) (acc cur : Point Nat) (k : Nat), S acc → S cur → S (Arith.smulLoop M A fuel acc cur k)
  | 0, _, _, _, ha, _ => ha
  | fuel + 1, acc, cur, k, ha, hc => by
    rw [Arith.smulLoop]
    split
    · exact ha
    · refine smulLoop_mem hadd fuel _ _ _ ?_ (hadd _ _ hc hc)
      split
      · exact hadd _ _ ha hc
      · exact ha

/-- The free point of a composite modulus is reduced (43 R201). -/
theorem freePoint_reduced {M : Nat} (h : 0 < M) (n : Nat) : PointReduced M (freePoint M n) := by
  unfold freePoint
  split
  · intro x y e; cases e
  · intro x y e; cases e; exact ⟨Nat.mod_lt _ h, Nat.mod_lt _ h⟩

/-- A command that computes a group sum (43 R212, R214, R216), with its destination. -/
def GroupOp (i : Instr) (d : PIdx) : Prop := (∃ a b, i = .padd d a b) ∨ (∃ a, i = .pdbl d a) ∨ ∃ a b, i = .smul d a b

/-- A point is a sum of valid points of the curve `k`: it is in every set that holds them and infinity and that group addition does not
leave. -/
def GroupSum (s : State) (M : Nat) (k : Curve) (Q : Point Nat) : Prop :=
  ∀ S : Point Nat → Prop, S .infinity → (∀ P P', S P → S P' → S (Arith.padd M k.a.toNat P P')) →
    (∀ i q, s.pReg i = some q → s.curve q.crv = some k → S (ptOf q)) → S Q

/-- What a command can do: it faults with a cause of its own, or it completes with one of these writes and `RUN <- IDLE`. -/
inductive Effect (i : Instr) (s t : State) : Prop where
  | fault (e : ErrCode) (he : e ∈ faultsOf i) (ht : t = faulted e s)
  | modulus (b : Bank) (hi : i = .ldmod b) (hm : LegalModulus s.dbuf.toNat) (ht : t = retired (loadModulus b s.dbuf s))
  | curve (a b : FIdx) (c : CurveIdx) (x y : Word) (hi : i = .ldcrv a b c) (ha : s.fReg a = some ⟨.fp, x⟩)
      (hb : s.fReg b = some ⟨.fp, y⟩) (ht : t = retired (loadCurve c ⟨x, y⟩ s))
  | field (d : FIdx) (tg : Tag) (v : Word) (hi : writesField i = some d) (hv : StateInv s → FieldValue s tg v)
      (ht : t = retired (writeF d tg v s))
  | buffer (a : FIdx) (r : FReg) (hi : i = .stf a) (hr : s.fReg a = some r) (ht : t = retired (setDbuf r.val s))
  | compareF (x y : FIdx) (rx ry : FReg) (hi : i = .cmpf x y) (hx : s.fReg x = some rx) (hy : s.fReg y = some ry)
      (ht : t = retired (setEq (rx.val == ry.val) s))
  | compareP (x y : PIdx) (qx qy : PReg) (hi : i = .cmpp x y) (hx : s.pReg x = some qx) (hy : s.pReg y = some qy)
      (ht : t = retired (setEq (decide (qx.pt = qy.pt)) s))
  | test (a : PIdx) (q : PReg) (hi : i = .tstp a) (hq : s.pReg a = some q) (ht : t = retired (setInf (infFlag q.pt) s))
  | point (d : PIdx) (c : CurveIdx) (q : Point Word) (hi : writesPoint i = some d) (hv : StateInv s → PointValue s c q)
      (hp : PointsOnCurve s → OnItsCurve s c q) (ht : t = retired (writeP d c q s))
  | sum (d : PIdx) (c : CurveIdx) (m : Word) (k : Curve) (Q : Point Nat) (hi : GroupOp i d) (hm : s.modFP = some m)
      (hp : m.toNat.Prime) (hk : s.curve c = some k) (hq : GroupSum s m.toNat k Q)
      (ht : t = retired (writeP d c (Q.map Arith.toWord) s))
  | free (d : PIdx) (c : CurveIdx) (m : Word) (k : Curve) (hi : GroupOp i d) (hm : s.modFP = some m)
      (hc : ¬ m.toNat.Prime) (hk : s.curve c = some k)
      (ht : t = retired (drawn (writeP d c ((freePoint m.toNat s.draws).map Arith.toWord) s)))

/-- The write of a group sum is one of the last two effects. -/
theorem effect_writeGroup {i : Instr} {s t : State} {d : PIdx} {c : CurveIdx} {m : Word} {k : Curve} {Q : Point Nat} (hi : GroupOp i d)
    (hm : s.modFP = some m) (hk : s.curve c = some k) (hq : GroupSum s m.toNat k Q)
    (ht : retire (writeGroup d c m.toNat Q s) = .next t) : Effect i s t := by
  rw [retire_eq_next] at ht
  by_cases hp : m.toNat.Prime
  · exact .sum d c m k Q hi hm hp hk hq (by simpa [writeGroup, (Arith.isPrime_iff _).mpr hp] using ht)
  · have : Arith.isPrime m.toNat = false := by rw [← Bool.not_eq_true, Arith.isPrime_iff]; exact hp
    exact .free d c m k hi hm hp hk (by simpa [writeGroup, this] using ht)

/-- The end of a command that writes a residue of its own bank. -/
theorem effect_finishF {i : Instr} {s t : State} {d : FIdx} {tg : Tag} {v : Nat} (hi : writesField i = some d)
    (hv : StateInv s → FieldValue s tg (Arith.toWord v)) (ht : finishF d tg v s = .next t) : Effect i s t :=
  .field d tg _ hi hv (by simpa [finishF] using ht)

/-- A two-operand field command, given the end of it. -/
theorem effect_fieldPair {i : Instr} {s t : State} {a b : FIdx} {k : FReg → FReg → Nat → Out} (hu : .uninit ∈ faultsOf i)
    (hd : .domain ∈ faultsOf i) (h : fieldPair a b s k = .next t)
    (hk : ∀ n x y m, s.fReg a = some ⟨Bank.tag n, x⟩ → s.fReg b = some ⟨Bank.tag n, y⟩ → s.modulus n = some m →
      k ⟨Bank.tag n, x⟩ ⟨Bank.tag n, y⟩ m.toNat = .next t → Effect i s t) : Effect i s t := by
  obtain ht | ht | ⟨n, x, y, m, ha, hb, hm, h⟩ := fieldPair_next h
  · exact .fault _ hu ht
  · exact .fault _ hd ht
  · exact hk n x y m ha hb hm h

/-- A one-operand field command, given the end of it. -/
theorem effect_fieldOne {i : Instr} {s t : State} {a : FIdx} {k : FReg → Nat → Out} (hu : .uninit ∈ faultsOf i)
    (hd : .domain ∈ faultsOf i) (h : fieldOne a s k = .next t)
    (hk : ∀ n x m, s.fReg a = some ⟨Bank.tag n, x⟩ → s.modulus n = some m → k ⟨Bank.tag n, x⟩ m.toNat = .next t → Effect i s t) :
    Effect i s t := by
  obtain ht | ht | ⟨n, x, m, ha, hm, h⟩ := fieldOne_next h
  · exact .fault _ hu ht
  · exact .fault _ hd ht
  · exact hk n x m ha hm h

/-- A command with a field source, given the rest of it. -/
theorem effect_srcF {i : Instr} {s t : State} {a : FIdx} {k : FReg → Out} (hu : .uninit ∈ faultsOf i) (h : srcF a s k = .next t)
    (hk : ∀ r, s.fReg a = some r → k r = .next t → Effect i s t) : Effect i s t := by
  obtain ⟨-, ht⟩ | ⟨r, hr, h⟩ := srcF_next h
  · exact .fault _ hu ht
  · exact hk r hr h

/-- A command with a point source, given the rest of it. -/
theorem effect_srcP {i : Instr} {s t : State} {a : PIdx} {k : PReg → Out} (hu : .uninit ∈ faultsOf i) (h : srcP a s k = .next t)
    (hk : ∀ q, s.pReg a = some q → k q = .next t → Effect i s t) : Effect i s t := by
  obtain ⟨-, ht⟩ | ⟨q, hq, h⟩ := srcP_next h
  · exact .fault _ hu ht
  · exact hk q hq h

/-- A requirement, given the rest of the command. -/
theorem effect_require {i : Instr} {s t : State} {c : Bool} {e : ErrCode} {k : Out} (he : e ∈ faultsOf i) (h : require c e s k = .next t)
    (hk : c = true → k = .next t → Effect i s t) : Effect i s t := by
  obtain ⟨-, ht⟩ | ⟨hc, h⟩ := require_next h
  · exact .fault _ he ht
  · exact hk hc h

/-- A required modulus bank, given the rest of the command. -/
theorem effect_needModulus {i : Instr} {s t : State} {b : Bank} {k : Nat → Out} (he : .nomod ∈ faultsOf i)
    (h : needModulus b s k = .next t) (hk : ∀ m, s.modulus b = some m → k m.toNat = .next t → Effect i s t) : Effect i s t := by
  obtain ⟨-, ht⟩ | ⟨m, hm, h⟩ := needModulus_next h
  · exact .fault _ he ht
  · exact hk m hm h

/-- A required curve bank, given the rest of the command. -/
theorem effect_needCurve {i : Instr} {s t : State} {c : CurveIdx} {k : Curve → Out} (he : .nocrv ∈ faultsOf i)
    (h : needCurve c s k = .next t) (hk : ∀ v, s.curve c = some v → k v = .next t → Effect i s t) : Effect i s t := by
  obtain ⟨-, ht⟩ | ⟨v, hv, h⟩ := needCurve_next h
  · exact .fault _ he ht
  · exact hk v hv h

/-- A command with two point sources, given the rest of it. -/
theorem effect_pointPair {i : Instr} {s t : State} {a b : PIdx} {k : PReg → PReg → Curve → Out} (hu : .uninit ∈ faultsOf i)
    (hc : .curve ∈ faultsOf i) (h : pointPair a b s k = .next t)
    (hk : ∀ qa qb v, s.pReg a = some qa → s.pReg b = some qb → s.curve qa.crv = some v → s.curve qb.crv = some v →
      k qa qb v = .next t → Effect i s t) : Effect i s t := by
  obtain ht | ht | ⟨qa, qb, v, ha, hb, hva, hvb, h⟩ := pointPair_next h
  · exact .fault _ hu ht
  · exact .fault _ hc ht
  · exact hk qa qb v ha hb hva hvb h

/-- A coordinate of a valid finite point is a value that a command may write with tag `FP`. -/
theorem fieldValue_coord {s : State} (h : StateInv s) {i : PIdx} {c : CurveIdx} {x y : Word} (hq : s.pReg i = some ⟨c, .affine x y⟩) :
    FieldValue s .fp x ∧ FieldValue s .fp y := by
  obtain ⟨-, m, hm, hr⟩ := h.points i _ hq
  have := hr x.toNat y.toNat rfl
  exact ⟨.inr ⟨.fp, m, rfl, hm, this.1⟩, .inr ⟨.fp, m, rfl, hm, this.2⟩⟩

/-- What a command can do (files 40 to 43). -/
theorem exec_cases {i : Instr} {s t : State} (h : exec i s = .next t) : Effect i s t := by
  cases i with
  | ldmod b =>
    exact effect_require (by simp [faultsOf]) h fun hc h =>
      .modulus b rfl (by simp only [Bool.and_eq_true, decide_eq_true_eq] at hc; exact ⟨hc.2, hc.1⟩) (by simpa using h)
  | ldcrv a b c =>
    refine effect_srcF (by simp [faultsOf]) h fun ra ha h => effect_srcF (by simp [faultsOf]) h fun rb hb h =>
      effect_require (by simp [faultsOf]) h fun hc h => ?_
    simp only [Bool.and_eq_true, decide_eq_true_eq] at hc
    obtain ⟨ta, x⟩ := ra
    obtain ⟨tb, y⟩ := rb
    obtain ⟨rfl, rfl⟩ := hc
    exact .curve a b c x y rfl ha hb (by simpa using h)
  | ldf d b =>
    simp only [exec, execLdf] at h
    refine effect_needModulus (by simp [faultsOf]) h fun m hm h =>
      effect_require (e := .range) (by simp [faultsOf]) h fun hc h => ?_
    exact .field d b.tag s.dbuf rfl (fun _ => .inr ⟨b, m, rfl, hm, by simpa using hc⟩) (by simpa using h)
  | ldi d => exact .field d .raw s.dbuf rfl (fun _ => .inl rfl) (by simpa [exec, execLdi] using h)
  | stf a => exact effect_srcF (by simp [faultsOf]) h fun r hr h => .buffer a r rfl hr (by simpa using h)
  | movf d a =>
    exact effect_srcF (by simp [faultsOf]) h fun r hr h =>
      .field d r.tag r.val rfl (fun hs => fieldValue_of_fReg hs hr) (by simpa using h)
  | red d a b =>
    exact effect_srcF (by simp [faultsOf]) h fun r _ h => effect_needModulus (by simp [faultsOf]) h fun m hm h =>
      effect_finishF rfl (fun hs => fieldValue_mod hs hm _) h
  | add d a b =>
    exact effect_fieldPair (by simp [faultsOf]) (by simp [faultsOf]) h fun n x y m _ _ hm h =>
      effect_finishF rfl (fun hs => fieldValue_mod hs hm _) h
  | sub d a b =>
    exact effect_fieldPair (by simp [faultsOf]) (by simp [faultsOf]) h fun n x y m _ _ hm h =>
      effect_finishF rfl (fun hs => fieldValue_mod hs hm _) h
  | mul d a b =>
    exact effect_fieldPair (by simp [faultsOf]) (by simp [faultsOf]) h fun n x y m _ _ hm h =>
      effect_finishF rfl (fun hs => fieldValue_mod hs hm _) h
  | pow d a b neg =>
    refine effect_srcF (by simp [faultsOf]) h fun ra _ h => effect_srcF (by simp [faultsOf]) h fun rb _ h =>
      effect_require (by simp [faultsOf]) h fun _ h => effect_require (by simp [faultsOf]) h fun _ h => ?_
    obtain ⟨n, m, htag, hm, h⟩ := tagModulus_next h
    rw [htag] at h
    exact effect_finishF rfl (fun hs => fieldValue_powmod hs hm _ _) h
  | inv d a =>
    exact effect_fieldOne (by simp [faultsOf]) (by simp [faultsOf]) h fun n x m _ hm h =>
      effect_require (by simp [faultsOf]) h fun _ h => effect_finishF rfl (fun hs => fieldValue_powmod hs hm _ _) h
  | div d a b =>
    exact effect_fieldPair (by simp [faultsOf]) (by simp [faultsOf]) h fun n x y m _ _ hm h =>
      effect_require (by simp [faultsOf]) h fun _ h => effect_finishF rfl (fun hs => fieldValue_mod hs hm _) h
  | cmpf a b =>
    exact effect_srcF (by simp [faultsOf]) h fun ra ha h => effect_srcF (by simp [faultsOf]) h fun rb hb h =>
      effect_require (by simp [faultsOf]) h fun _ h => .compareF a b ra rb rfl ha hb (by simpa using h)
  | mmul d a b =>
    exact effect_fieldPair (by simp [faultsOf]) (by simp [faultsOf]) h fun n x y m _ _ hm h =>
      effect_finishF rfl (fun hs => fieldValue_mod hs hm _) h
  | tomont d a =>
    exact effect_fieldOne (by simp [faultsOf]) (by simp [faultsOf]) h fun n x m _ hm h =>
      effect_finishF rfl (fun hs => fieldValue_mod hs hm _) h
  | frommont d a =>
    exact effect_fieldOne (by simp [faultsOf]) (by simp [faultsOf]) h fun n x m _ hm h =>
      effect_finishF rfl (fun hs => fieldValue_mod hs hm _) h
  | ldp d a b c px py =>
    refine effect_require (by simp [faultsOf]) h fun _ h => ?_
    split at h
    · refine effect_needCurve (by simp [faultsOf]) h fun v hv h => ?_
      refine .point d c .infinity rfl (fun hs => ⟨⟨v, hv⟩, ?_⟩) (fun _ m k _ _ _ x y e => by cases e) (by simpa using h)
      obtain ⟨m, hm, -⟩ := hs.curves c v hv
      exact ⟨m, hm, fun x y e => by cases e⟩
    · refine effect_srcF (by simp [faultsOf]) h fun rx hx h => effect_srcF (by simp [faultsOf]) h fun ry hy h =>
        effect_needCurve (by simp [faultsOf]) h fun v hv h => effect_require (by simp [faultsOf]) h fun ht h => ?_
      obtain ⟨m, hm, h⟩ := coordModulus_next h
      refine effect_require (by simp [faultsOf]) h fun hon h => ?_
      simp only [Bool.and_eq_true, decide_eq_true_eq] at ht
      refine .point d c (.affine rx.val ry.val) rfl (fun hs => ⟨⟨v, hv⟩, m, hm, ?_⟩) ?_ (by simpa using h)
      · obtain ⟨mx, hmx, hlx⟩ := hs.fields a rx .fp hx ht.1
        obtain ⟨my, hmy, hly⟩ := hs.fields b ry .fp hy ht.2
        obtain rfl : m = mx := by rw [State.modulus, hm] at hmx; exact Option.some.inj hmx
        obtain rfl : m = my := by rw [State.modulus, hm] at hmy; exact Option.some.inj hmy
        intro x y e
        cases e
        exact ⟨hlx, hly⟩
      · intro _ m' k hm' _ hk x y e
        rw [hm, Option.some.injEq] at hm'
        rw [hv, Option.some.injEq] at hk
        subst hm' hk
        cases e
        exact hon
  | getx d a =>
    refine effect_srcP (by simp [faultsOf]) h fun q hq h => ?_
    obtain ⟨c, _ | ⟨x, y⟩⟩ := q
    · exact .fault .infCoord (by simp [faultsOf]) (by simpa using h)
    · exact .field d .fp x rfl (fun hs => (fieldValue_coord hs hq).1) (by simpa using h)
  | gety d a =>
    refine effect_srcP (by simp [faultsOf]) h fun q hq h => ?_
    obtain ⟨c, _ | ⟨x, y⟩⟩ := q
    · exact .fault .infCoord (by simp [faultsOf]) (by simpa using h)
    · exact .field d .fp y rfl (fun hs => (fieldValue_coord hs hq).2) (by simpa using h)
  | movp d a =>
    exact effect_srcP (by simp [faultsOf]) h fun q hq h =>
      .point d q.crv q.pt rfl (fun hs => pointValue_of_pReg hs hq) (fun hs m k hm hp hk => hs a q m k hq hm hp hk) (by simpa using h)
  | tstp a => exact effect_srcP (by simp [faultsOf]) h fun q hq h => .test a q rfl hq (by simpa using h)
  | cmpp a b =>
    exact effect_pointPair (by simp [faultsOf]) (by simp [faultsOf]) h fun qa qb v ha hb _ _ h =>
      .compareP a b qa qb rfl ha hb (by simpa using h)
  | padd d a b =>
    refine effect_pointPair (by simp [faultsOf]) (by simp [faultsOf]) h fun qa qb v ha hb hva hvb h => ?_
    obtain ⟨m, hm, h⟩ := coordModulus_next h
    exact effect_writeGroup (.inl ⟨a, b, rfl⟩) hm hva (fun S _ hadd hv => hadd _ _ (hv a qa ha hva) (hv b qb hb hvb)) h
  | pdbl d a =>
    refine effect_srcP (by simp [faultsOf]) h fun q hq h => ?_
    obtain ⟨v, hv, h⟩ := pointCurve_next h
    obtain ⟨m, hm, h⟩ := coordModulus_next h
    exact effect_writeGroup (.inr (.inl ⟨a, rfl⟩)) hm hv (fun S _ hadd hS => hadd _ _ (hS a q hq hv) (hS a q hq hv)) h
  | smul d a b =>
    refine effect_srcP (by simp [faultsOf]) h fun q hq h => effect_srcF (by simp [faultsOf]) h fun r _ h =>
      effect_needModulus (by simp [faultsOf]) h fun n _ h => effect_require (by simp [faultsOf]) h fun _ h => ?_
    obtain ⟨v, hv, h⟩ := pointCurve_next h
    obtain ⟨m, hm, h⟩ := coordModulus_next h
    exact effect_writeGroup (.inr (.inr ⟨a, b, rfl⟩)) hm hv
      (fun S hinf hadd hS => smulLoop_mem hadd _ _ _ _ hinf (hS a q hq hv)) h

end Sys2Proof.Machine
end

