-- ==== Sys2Proof/Laws/Jacobian.lean ====
section
/-! SUPPORT. What the loop and the normalisation of the datapath do under a change of number form (44 R245, R247). -/

namespace Sys2Proof.Arith

/-- Normalisation on plain residues, written out (44 R244). -/
theorem jnorm_eq (M : Nat) (T : Triple) :
    jnorm M T = if T.Z = 0 then .infinity
      else .affine (fmul M T.X (fmul M (finv M T.Z) (finv M T.Z)))
        (fmul M T.Y (fmul M (finv M T.Z) (fmul M (finv M T.Z) (finv M T.Z)))) := rfl

/-- One iteration of the loop of `SMUL` on plain residues (44 R245). -/
theorem jsmulLoop_succ (M A fuel : Nat) (acc cur : Triple) (k : Nat) :
    jsmulLoop M A (fuel + 1) acc cur k =
      if k = 0 then acc else jsmulLoop M A fuel (if k % 2 = 1 then jadd M A acc cur else acc) (jdbl M A cur) (k / 2) := rfl

/-- A map of triples that adder and doubler respect on a set they do not leave carries the one loop to the other (44 R247). -/
theorem jsmulLoopWith_map {add add' : Triple → Triple → Triple} {dbl dbl' : Triple → Triple} {g : Triple → Triple} {S : Triple → Prop}
    (hadd : ∀ T T', S T → S T' → S (add T T') ∧ add' (g T) (g T') = g (add T T'))
    (hdbl : ∀ T, S T → S (dbl T) ∧ dbl' (g T) = g (dbl T)) :
    ∀ (fuel : Nat) (acc cur : Triple) (k : Nat), S acc → S cur →
      S (jsmulLoopWith add dbl fuel acc cur k) ∧
        jsmulLoopWith add' dbl' fuel (g acc) (g cur) k = g (jsmulLoopWith add dbl fuel acc cur k)
  | 0, _, _, _, ha, _ => ⟨ha, rfl⟩
  | fuel + 1, acc, cur, k, ha, hc => by
    rw [jsmulLoopWith, jsmulLoopWith]
    split
    · exact ⟨ha, rfl⟩
    · rw [(hdbl cur hc).2]
      split
      · rw [(hadd acc cur ha hc).2]
        exact jsmulLoopWith_map hadd hdbl fuel _ _ _ (hadd acc cur ha hc).1 (hdbl cur hc).1
      · exact jsmulLoopWith_map hadd hdbl fuel _ _ _ ha (hdbl cur hc).1

/-- A change of number form that multiplication and inversion respect, whose way out undoes it on products, leaves normalisation as it is
(44 R247). -/
theorem jnormWith_map {mul mul' : Nat → Nat → Nat} {inv inv' out g : Nat → Nat} (hmul : ∀ a b, mul' (g a) (g b) = g (mul a b))
    (hinv : ∀ a, inv' (g a) = g (inv a)) (hout : ∀ a b, out (g (mul a b)) = mul a b) {T : Triple} (hz : g T.Z = 0 ↔ T.Z = 0) :
    jnormWith mul' inv' out ⟨g T.X, g T.Y, g T.Z⟩ = jnormWith mul inv id T := by
  simp only [jnormWith, hz, hinv, hmul, hout, id]

end Sys2Proof.Arith
end

