-- ==== Sys2Proof/Laws/PerInstr.lean ====
section
/-! SUPPORT. Statements made for every instruction as syntax: each command's fields pass the checks of the opcode table's row for its
opcode (30 R92, R93, R96), so no well-formedness hypothesis on a command is ever needed. -/

set_option linter.unusedSimpArgs false

namespace Sys2Proof.Laws.Spelled

/-- The fields of the command pass the checks of its own row. -/
def Statement (i : Instr) : Prop := wellFormed i = true

theorem ldmod (s : Bank) : Statement (.ldmod s) := by
  cases s <;> simp [Statement, wellFormed, fieldsOfInstr, Fields.wellFormed, Fields.check, opRow, opTable, opRowsMovement,
    opRowsField, opRowsMontgomery, opRowsPoint, FieldUse.admits, ofBank, ofCurve, ofSel, ofP_lt]

theorem ldcrv (a : FIdx) (b : FIdx) (c : CurveIdx) : Statement (.ldcrv a b c) := by
  cases c <;> simp [Statement, wellFormed, fieldsOfInstr, Fields.wellFormed, Fields.check, opRow, opTable, opRowsMovement,
    opRowsField, opRowsMontgomery, opRowsPoint, FieldUse.admits, ofBank, ofCurve, ofSel, ofP_lt]

theorem ldf (d : FIdx) (s : Bank) : Statement (.ldf d s) := by
  cases s <;> simp [Statement, wellFormed, fieldsOfInstr, Fields.wellFormed, Fields.check, opRow, opTable, opRowsMovement,
    opRowsField, opRowsMontgomery, opRowsPoint, FieldUse.admits, ofBank, ofCurve, ofSel, ofP_lt]

theorem ldi (d : FIdx) : Statement (.ldi d) := by
  simp [Statement, wellFormed, fieldsOfInstr, Fields.wellFormed, Fields.check, opRow, opTable, opRowsMovement,
    opRowsField, opRowsMontgomery, opRowsPoint, FieldUse.admits, ofBank, ofCurve, ofSel, ofP_lt]

theorem stf (a : FIdx) : Statement (.stf a) := by
  simp [Statement, wellFormed, fieldsOfInstr, Fields.wellFormed, Fields.check, opRow, opTable, opRowsMovement,
    opRowsField, opRowsMontgomery, opRowsPoint, FieldUse.admits, ofBank, ofCurve, ofSel, ofP_lt]

theorem movf (d : FIdx) (a : FIdx) : Statement (.movf d a) := by
  simp [Statement, wellFormed, fieldsOfInstr, Fields.wellFormed, Fields.check, opRow, opTable, opRowsMovement,
    opRowsField, opRowsMontgomery, opRowsPoint, FieldUse.admits, ofBank, ofCurve, ofSel, ofP_lt]

theorem red (d : FIdx) (a : FIdx) (s : Bank) : Statement (.red d a s) := by
  cases s <;> simp [Statement, wellFormed, fieldsOfInstr, Fields.wellFormed, Fields.check, opRow, opTable, opRowsMovement,
    opRowsField, opRowsMontgomery, opRowsPoint, FieldUse.admits, ofBank, ofCurve, ofSel, ofP_lt]

theorem add (d : FIdx) (a : FIdx) (b : FIdx) : Statement (.add d a b) := by
  simp [Statement, wellFormed, fieldsOfInstr, Fields.wellFormed, Fields.check, opRow, opTable, opRowsMovement,
    opRowsField, opRowsMontgomery, opRowsPoint, FieldUse.admits, ofBank, ofCurve, ofSel, ofP_lt]

theorem sub (d : FIdx) (a : FIdx) (b : FIdx) : Statement (.sub d a b) := by
  simp [Statement, wellFormed, fieldsOfInstr, Fields.wellFormed, Fields.check, opRow, opTable, opRowsMovement,
    opRowsField, opRowsMontgomery, opRowsPoint, FieldUse.admits, ofBank, ofCurve, ofSel, ofP_lt]

theorem mul (d : FIdx) (a : FIdx) (b : FIdx) : Statement (.mul d a b) := by
  simp [Statement, wellFormed, fieldsOfInstr, Fields.wellFormed, Fields.check, opRow, opTable, opRowsMovement,
    opRowsField, opRowsMontgomery, opRowsPoint, FieldUse.admits, ofBank, ofCurve, ofSel, ofP_lt]

theorem pow (d : FIdx) (a : FIdx) (b : FIdx) (neg : Bool) : Statement (.pow d a b neg) := by
  cases neg <;> simp [Statement, wellFormed, fieldsOfInstr, Fields.wellFormed, Fields.check, opRow, opTable, opRowsMovement,
    opRowsField, opRowsMontgomery, opRowsPoint, FieldUse.admits, ofBank, ofCurve, ofSel, ofP_lt]

theorem inv (d : FIdx) (a : FIdx) : Statement (.inv d a) := by
  simp [Statement, wellFormed, fieldsOfInstr, Fields.wellFormed, Fields.check, opRow, opTable, opRowsMovement,
    opRowsField, opRowsMontgomery, opRowsPoint, FieldUse.admits, ofBank, ofCurve, ofSel, ofP_lt]

theorem div (d : FIdx) (a : FIdx) (b : FIdx) : Statement (.div d a b) := by
  simp [Statement, wellFormed, fieldsOfInstr, Fields.wellFormed, Fields.check, opRow, opTable, opRowsMovement,
    opRowsField, opRowsMontgomery, opRowsPoint, FieldUse.admits, ofBank, ofCurve, ofSel, ofP_lt]

theorem cmpf (a : FIdx) (b : FIdx) : Statement (.cmpf a b) := by
  simp [Statement, wellFormed, fieldsOfInstr, Fields.wellFormed, Fields.check, opRow, opTable, opRowsMovement,
    opRowsField, opRowsMontgomery, opRowsPoint, FieldUse.admits, ofBank, ofCurve, ofSel, ofP_lt]

theorem mmul (d : FIdx) (a : FIdx) (b : FIdx) : Statement (.mmul d a b) := by
  simp [Statement, wellFormed, fieldsOfInstr, Fields.wellFormed, Fields.check, opRow, opTable, opRowsMovement,
    opRowsField, opRowsMontgomery, opRowsPoint, FieldUse.admits, ofBank, ofCurve, ofSel, ofP_lt]

theorem tomont (d : FIdx) (a : FIdx) : Statement (.tomont d a) := by
  simp [Statement, wellFormed, fieldsOfInstr, Fields.wellFormed, Fields.check, opRow, opTable, opRowsMovement,
    opRowsField, opRowsMontgomery, opRowsPoint, FieldUse.admits, ofBank, ofCurve, ofSel, ofP_lt]

theorem frommont (d : FIdx) (a : FIdx) : Statement (.frommont d a) := by
  simp [Statement, wellFormed, fieldsOfInstr, Fields.wellFormed, Fields.check, opRow, opTable, opRowsMovement,
    opRowsField, opRowsMontgomery, opRowsPoint, FieldUse.admits, ofBank, ofCurve, ofSel, ofP_lt]

theorem ldp (d : PIdx) (a : FIdx) (b : FIdx) (c : CurveIdx) (px : Bool) (py : Bool) : Statement (.ldp d a b c px py) := by
  cases c <;> cases px <;> cases py <;> simp [Statement, wellFormed, fieldsOfInstr, Fields.wellFormed, Fields.check, opRow, opTable, opRowsMovement,
    opRowsField, opRowsMontgomery, opRowsPoint, FieldUse.admits, ofBank, ofCurve, ofSel, ofP_lt]

theorem getx (d : FIdx) (a : PIdx) : Statement (.getx d a) := by
  simp [Statement, wellFormed, fieldsOfInstr, Fields.wellFormed, Fields.check, opRow, opTable, opRowsMovement,
    opRowsField, opRowsMontgomery, opRowsPoint, FieldUse.admits, ofBank, ofCurve, ofSel, ofP_lt]

theorem gety (d : FIdx) (a : PIdx) : Statement (.gety d a) := by
  simp [Statement, wellFormed, fieldsOfInstr, Fields.wellFormed, Fields.check, opRow, opTable, opRowsMovement,
    opRowsField, opRowsMontgomery, opRowsPoint, FieldUse.admits, ofBank, ofCurve, ofSel, ofP_lt]

theorem movp (d : PIdx) (a : PIdx) : Statement (.movp d a) := by
  simp [Statement, wellFormed, fieldsOfInstr, Fields.wellFormed, Fields.check, opRow, opTable, opRowsMovement,
    opRowsField, opRowsMontgomery, opRowsPoint, FieldUse.admits, ofBank, ofCurve, ofSel, ofP_lt]

theorem tstp (a : PIdx) : Statement (.tstp a) := by
  simp [Statement, wellFormed, fieldsOfInstr, Fields.wellFormed, Fields.check, opRow, opTable, opRowsMovement,
    opRowsField, opRowsMontgomery, opRowsPoint, FieldUse.admits, ofBank, ofCurve, ofSel, ofP_lt]

theorem cmpp (a : PIdx) (b : PIdx) : Statement (.cmpp a b) := by
  simp [Statement, wellFormed, fieldsOfInstr, Fields.wellFormed, Fields.check, opRow, opTable, opRowsMovement,
    opRowsField, opRowsMontgomery, opRowsPoint, FieldUse.admits, ofBank, ofCurve, ofSel, ofP_lt]

theorem padd (d : PIdx) (a : PIdx) (b : PIdx) : Statement (.padd d a b) := by
  simp [Statement, wellFormed, fieldsOfInstr, Fields.wellFormed, Fields.check, opRow, opTable, opRowsMovement,
    opRowsField, opRowsMontgomery, opRowsPoint, FieldUse.admits, ofBank, ofCurve, ofSel, ofP_lt]

theorem pdbl (d : PIdx) (a : PIdx) : Statement (.pdbl d a) := by
  simp [Statement, wellFormed, fieldsOfInstr, Fields.wellFormed, Fields.check, opRow, opTable, opRowsMovement,
    opRowsField, opRowsMontgomery, opRowsPoint, FieldUse.admits, ofBank, ofCurve, ofSel, ofP_lt]

theorem smul (d : PIdx) (a : PIdx) (b : FIdx) : Statement (.smul d a b) := by
  simp [Statement, wellFormed, fieldsOfInstr, Fields.wellFormed, Fields.check, opRow, opTable, opRowsMovement,
    opRowsField, opRowsMontgomery, opRowsPoint, FieldUse.admits, ofBank, ofCurve, ofSel, ofP_lt]

end Sys2Proof.Laws.Spelled
end

