-- ==== Sys2Proof/Laws/Window.lean ====
section
/-! SUPPORT. The words of `DBUF` bit by bit (20 R64), and what one step does, event by event (20 R70, R71; 70 R300). -/

namespace Sys2Proof.Machine

/-- Bit `i` of word `k` of `DBUF` is bit `32k + i` of the value. -/
theorem getLsbD_dbufWord (k : Fin 8) (v : Word) (i : Nat) :
    (dbufWord k v).getLsbD i = (decide (i < 32) && v.getLsbD (32 * k.val + i)) := by
  simp [dbufWord, BitVec.getLsbD_extractLsb']

/-- The mask of word `k`, bit by bit. -/
theorem getLsbD_wordMask (n i : Nat) (hi : i < 256) :
    ((BitVec.allOnes 32).setWidth 256 <<< n).getLsbD i = decide (n ≤ i ∧ i < n + 32) := by
  rw [BitVec.getLsbD_shiftLeft, BitVec.getLsbD_setWidth, BitVec.getLsbD_allOnes]
  by_cases h : i < n
  · simp [h, Nat.not_le.mpr h]
  · have : i - n < 256 := by omega
    by_cases h2 : i < n + 32
    · have : i - n < 32 := by omega
      simp [*]
      omega
    · have : ¬ i - n < 32 := by omega
      simp [*]

/-- A write of word `k` sets that word's bits and keeps the others (20 R67). -/
theorem getLsbD_withDbufWord (k : Fin 8) (w : Word32) (v : Word) (i : Nat) (hi : i < 256) :
    (withDbufWord k w v).getLsbD i =
      if 32 * k.val ≤ i ∧ i < 32 * k.val + 32 then w.getLsbD (i - 32 * k.val) else v.getLsbD i := by
  unfold withDbufWord
  rw [BitVec.getLsbD_or, BitVec.getLsbD_and, BitVec.getLsbD_not, getLsbD_wordMask _ _ hi, BitVec.getLsbD_shiftLeft,
    BitVec.getLsbD_setWidth]
  by_cases h : 32 * k.val ≤ i ∧ i < 32 * k.val + 32
  · have h1 : ¬ i < 32 * k.val := by omega
    have h2 : i - 32 * k.val < 256 := by omega
    simp [hi, h, h1, h2]
  · rw [if_neg h]
    by_cases h1 : i < 32 * k.val
    · simp [hi, h, h1]
    · have h2 : w.getLsbD (i - 32 * k.val) = false := BitVec.getLsbD_of_ge _ _ (by omega)
      simp [hi, h, h2]

/-- A word read after a write of the same word is the word written; the other words keep their value (20 R67). -/
theorem dbufWord_withDbufWord (j k : Fin 8) (w : Word32) (v : Word) :
    dbufWord j (withDbufWord k w v) = if j = k then w else dbufWord j v := by
  apply BitVec.eq_of_getLsbD_eq
  intro i hi
  have hj := j.isLt
  rw [getLsbD_dbufWord, getLsbD_withDbufWord _ _ _ _ (by omega)]
  by_cases h : j = k
  · subst h
    simp [hi]
  · have : ¬ (32 * k.val ≤ 32 * j.val + i ∧ 32 * j.val + i < 32 * k.val + 32) := by
      intro hh; apply h; apply Fin.ext; omega
    simp [h, this, getLsbD_dbufWord]

/-- A step with an event pending is that event. -/
theorem step_event {s : State} {e : Event} {rest : List Event} (h : s.events = e :: rest) :
    step s = applyEvent e { s with events := rest } := by
  simp [step, nextEvent, h]

/-- A step with no event pending is the unit's own. -/
theorem step_alone {s : State} (h : s.events = []) : step s = unitAlone s := by
  simp [step, nextEvent, h]

/-- The unit's turn while BUSY is *complete* (20 R70). -/
theorem unitMove_busy {s : State} (hr : s.inReset = false) (hb : s.run = .busy) : unitMove s = complete s := by
  simp [unitMove, hr, hb]

/-- The unit has no step but *complete* (10 R33, 60 R270, 70 R300). -/
theorem unitMove_quiet {s : State} (h : s.inReset = true ∨ s.run ≠ .busy) : unitMove s = .next s := by
  unfold unitMove
  split
  · rfl
  · next hr =>
    cases hrun : s.run with
    | busy => simp_all
    | idle => rfl
    | fault => rfl

end Sys2Proof.Machine
end

