-- ==== Sys2Proof/Tests/Slice0.lean ====
section
/-! SUPPORT. Tests on values of spec/95 (named V<section>.<n> in the docstrings), the smoke test of the checks on a command word, and for every
statement with hypotheses a concrete state and operands that meet them. -/

namespace Sys2Proof.Tests

-- The kernel evaluations below wait for each other: taken in order they need a few threads, not one each.
set_option Elab.async false

open Sys2Proof.Machine Sys2Proof.Arith

/-! ### Helpers -/

/-- A value for a field register. -/
def fv (t : Tag) (v : Nat) : Option FReg := some ⟨t, toWord v⟩

/-- A point for a point register. -/
def pv (c : CurveIdx) (x y : Nat) : Option PReg := some ⟨c, .affine (toWord x) (toWord y)⟩

/-- The state of 95 section 3: `MOD[FP] = 31`, `MOD[FN] = 7`, two operands. -/
def two (f1 f2 : Option FReg) : State := setF 2 f2 (setF 1 f1 { State.reset with modFP := some 31#256, modFN := some 7#256 })

/-- The F223 curve of 95 section 5: `CRV[0] = (0, 7)`, `CRV[1] = (0, 5)`, `MOD[FN] = 21`, two points. -/
def curve223 (p0 p1 : Option PReg) : State :=
  setP 1 p1 (setP 0 p0 { State.reset with
    modFP := some 223#256, modFN := some 21#256, crv0 := some ⟨0#256, 7#256⟩, crv1 := some ⟨0#256, 5#256⟩ })

/-- Run one command word. -/
def runWord (w : Nat) (s : State) : Host.Outcome State Fault Refusal := step (s.withFetchWord 32 w)

/-- A field register after a step, as tag and natural. -/
def fOf (i : FIdx) : Host.Outcome State Fault Refusal → Option (Tag × Nat)
  | .next t => (t.fReg i).map fun r => (r.tag, r.val.toNat)
  | _ => none

/-- A point register after a step, as bank and point of naturals. -/
def pOf (i : PIdx) : Host.Outcome State Fault Refusal → Option (CurveIdx × Point Nat)
  | .next t => (t.pReg i).map fun q => (q.crv, ptOf q)
  | _ => none

/-- `STATUS` after a step. -/
def statusOf : Host.Outcome State Fault Refusal → Option Nat
  | .next t => some (statusWord t).toNat
  | _ => none

/-- `DBUF` after a step. -/
def dbufOf : Host.Outcome State Fault Refusal → Option Nat
  | .next t => some t.dbuf.toNat
  | _ => none

/-- The state of `RUN` after a step. -/
def runAfter : Host.Outcome State Fault Refusal → Option Run
  | .next t => some t.run
  | _ => none

/-- The bit `OVR` after a step. -/
def ovrAfter : Host.Outcome State Fault Refusal → Option Bool
  | .next t => some t.ovr
  | _ => none

/-- The newest word a host read returned. -/
def replyOf : Host.Outcome State Fault Refusal → Option Nat
  | .next t => t.replies.head?.map BitVec.toNat
  | _ => none

/-! ### The checks on a command word (30 R92, R96): one ill-formed field tuple for each -/

/-- V9.38: `z` not zero. -/
theorem test_check_z : decode 0x20312100#32 = .error .zNotZero := by decide

/-- V9.31: a reserved opcode. -/
theorem test_check_op : decode 0x17000000#32 = .error .reservedOp := by decide

/-- V9.53: a P-index above 7 in `d`. -/
theorem test_check_d : decode 0x40823006#32 = .error .fieldD := by decide

/-- V9.50: a P-index above 7 in `a`. -/
theorem test_check_a : decode 0x41480000#32 = .error .fieldA := by decide

/-- V9.44: an unused field `b` not zero. -/
theorem test_check_b : decode 0x24213000#32 = .error .fieldB := by decide

/-- V9.54: an unused bit of `imm`. -/
theorem test_check_imm : decode 0x40023008#32 = .error .unusedImm := by decide

/-- The same checks on field tuples, by the check that each tuple fails. -/
theorem test_wellFormed_smoke :
    (Fields.mk 0x20#8 3 1 2 1 0).check ⟨.fIndex, .fIndex, .fIndex, 0⟩ = some .zNotZero ∧
    (Fields.mk 0x14#8 1 5 0 0 0).check ⟨.unused, .fIndex, .unused, 0⟩ = some .fieldD ∧
    (Fields.mk 0x4A#8 1 8 4 0 0).check ⟨.pIndex, .pIndex, .fIndex, 0⟩ = some .fieldA ∧
    (Fields.mk 0x48#8 2 0 9 0 0).check ⟨.pIndex, .pIndex, .pIndex, 0⟩ = some .fieldB ∧
    (Fields.mk 0x16#8 1 2 0 0 2).check ⟨.fIndex, .fIndex, .unused, 1⟩ = some .unusedImm ∧
    (Fields.mk 0x20#8 3 1 2 0 0).wellFormed ⟨.fIndex, .fIndex, .fIndex, 0⟩ = true := by decide

/-! ### Decoding: a word of 95 section 9 for every command -/

/-- V9.1 to V9.7. -/
theorem test_decode_movement :
    decode 0x10000001#32 = .ok (.ldmod .fn) ∧ decode 0x11001000#32 = .ok (.ldcrv 0 1 .c0) ∧
    decode 0x12400001#32 = .ok (.ldf 4 .fn) ∧ decode 0x13F00000#32 = .ok (.ldi 15) ∧
    decode 0x14050000#32 = .ok (.stf 5) ∧ decode 0x15120000#32 = .ok (.movf 1 2) ∧
    decode 0x16440000#32 = .ok (.red 4 4 .fp) := by decide

/-- V9.8 to V9.14. -/
theorem test_decode_field :
    decode 0x20312000#32 = .ok (.add 3 1 2) ∧ decode 0x21FED000#32 = .ok (.sub 15 14 13) ∧
    decode 0x22312000#32 = .ok (.mul 3 1 2) ∧ decode 0x23210001#32 = .ok (.pow 2 1 0 true) ∧
    decode 0x24210000#32 = .ok (.inv 2 1) ∧ decode 0x25312000#32 = .ok (.div 3 1 2) ∧
    decode 0x26045000#32 = .ok (.cmpf 4 5) := by decide

/-- V9.15 to V9.17. -/
theorem test_decode_montgomery :
    decode 0x30312000#32 = .ok (.mmul 3 1 2) ∧ decode 0x31210000#32 = .ok (.tomont 2 1) ∧
    decode 0x32420000#32 = .ok (.frommont 4 2) := by decide

/-- V9.18 to V9.28, with the free fields of V5.6. -/
theorem test_decode_point :
    decode 0x40023006#32 = .ok (.ldp 0 2 3 .c0 true true) ∧ decode 0x407AB007#32 = .ok (.ldp 7 10 11 .c1 true true) ∧
    decode 0x40100000#32 = .ok (.ldp 1 0 0 .c0 false false) ∧ decode 0x401FF000#32 = .ok (.ldp 1 15 15 .c0 false false) ∧
    decode 0x41410000#32 = .ok (.getx 4 1) ∧ decode 0x42F70000#32 = .ok (.gety 15 7) ∧
    decode 0x43310000#32 = .ok (.movp 3 1) ∧ decode 0x44010000#32 = .ok (.tstp 1) ∧
    decode 0x45001000#32 = .ok (.cmpp 0 1) ∧ decode 0x48201000#32 = .ok (.padd 2 0 1) ∧
    decode 0x49100000#32 = .ok (.pdbl 1 0) ∧ decode 0x4A10F000#32 = .ok (.smul 1 0 15) := by decide

/-- The `match` and `mask` columns of 30 R95 follow from its columns of field uses. -/
def fieldMask : FieldUse → BitVec 4
  | .unused => 0xF#4
  | .pIndex => 0x8#4
  | .fIndex => 0x0#4
  | .free => 0x0#4

theorem test_mask_columns :
    opTable.map (fun r => (r.mnemonic, wordOf ⟨r.op, 0, 0, 0, 0, 0⟩,
        wordOf ⟨0xFF#8, fieldMask r.usage.d, fieldMask r.usage.a, fieldMask r.usage.b, 0xF#4, ~~~r.usage.imm⟩)) =
      maskTable.map (fun r => (r.mnemonic, r.matchWord, r.mask)) := by decide

/-- The table's numbering: the word as one number (30 R90). -/
theorem test_decodeTableWord :
    decodeTableWord 32 0x22312000 = some (.mul 3 1 2) ∧ decodeTableWord 32 0x00000000 = none := by decide

/-! ### Data movement (95 section 2) -/

/-- V2.4 and V2.2. -/
theorem test_ldmod :
    statusOf (runWord 0x10000001 { State.reset with dbuf := 3#256 }) = some 0 ∧
    statusOf (runWord 0x10000000 { State.reset with dbuf := 30#256 }) = some 0x0502 := by decide

/-- V2.7: before the reload of `MOD[FP]`. -/
def beforeReload : State :=
  setF 5 (fv .fn 20) (setF 6 (fv .raw 99) (setF 2 (fv .fp 47) { curve223 (pv .c0 47 71) none with dbuf := 31#256 }))

/-- V2.7: a reload of `MOD[FP]` keeps only what does not depend on it. -/
theorem test_ldmod_invalidates :
    fOf 2 (runWord 0x10000000 beforeReload) = none ∧ fOf 5 (runWord 0x10000000 beforeReload) = some (.fn, 20) ∧
    fOf 6 (runWord 0x10000000 beforeReload) = some (.raw, 99) ∧ pOf 0 (runWord 0x10000000 beforeReload) = none := by decide

/-- V2.24. -/
theorem test_ldcrv :
    (match runWord 0x11001001 { setF 1 (fv .fp 7) (setF 0 (fv .fp 0) State.reset) with modFP := some 31#256 } with
     | .next t => (t.crv0, t.crv1)
     | _ => (none, none)) = (none, some ⟨0#256, 7#256⟩) := by decide

/-- V2.27: the points of the loaded bank become invalid, those of the other stay. -/
theorem test_ldcrv_invalidates :
    pOf 0 (runWord 0x11001000 (setF 1 (fv .fp 7) (setF 0 (fv .fp 0) (curve223 (pv .c0 47 71) (pv .c1 47 71))))) = none ∧
    pOf 1 (runWord 0x11001000 (setF 1 (fv .fp 7) (setF 0 (fv .fp 0) (curve223 (pv .c0 47 71) (pv .c1 47 71))))) =
      some (.c1, .affine 47 71) := by decide

/-- V2.9 and V2.10: the modulus itself is out of range. -/
theorem test_ldf :
    fOf 4 (runWord 0x12400000 { two none none with dbuf := 30#256 }) = some (.fp, 30) ∧
    statusOf (runWord 0x12400000 { two none none with dbuf := 31#256 }) = some 0x1002 := by decide

/-- V2.13. -/
theorem test_ldi : fOf 15 (runWord 0x13F00000 { State.reset with dbuf := BitVec.allOnes 256 }) = some (.raw, 2 ^ 256 - 1) := by decide +kernel

/-- V2.15. -/
theorem test_stf : dbufOf (runWord 0x14050000 (setF 5 (fv .fp 29) { two none none with dbuf := 12345#256 })) = some 29 := by decide

/-- V2.17: `Z` is refreshed. -/
theorem test_movf :
    fOf 1 (runWord 0x15120000 (two none (fv .fp 0))) = some (.fp, 0) ∧
    statusOf (runWord 0x15120000 (two none (fv .fp 0))) = some 0x10 := by decide

/-- V2.19 and V2.23: an invalid source is reported before an invalid bank. -/
theorem test_red :
    fOf 4 (runWord 0x16440000 (setF 4 (fv .raw 250) (curve223 none none))) = some (.fp, 27) ∧
    statusOf (runWord 0x16540001 State.reset) = some 0x0202 := by decide

/-! ### Field arithmetic (95 section 3) -/

/-- V3.1 and V3.2. -/
theorem test_add :
    fOf 3 (runWord 0x20312000 (two (fv .fp 17) (fv .fp 21))) = some (.fp, 7) ∧
    statusOf (runWord 0x20312000 (two (fv .fp 30) (fv .fp 1))) = some 0x10 := by decide

/-- V3.38: the tags differ. -/
theorem test_add_domain : statusOf (runWord 0x20312000 (two (fv .fp 5) (fv .fn 5))) = some 0x2002 := by decide

/-- V3.5 and V3.8: the modulus is added back. -/
theorem test_sub :
    fOf 3 (runWord 0x21312000 (two (fv .fp 17) (fv .fp 21))) = some (.fp, 27) ∧
    fOf 3 (runWord 0x21312000 (two (fv .fp 0) (fv .fp 1))) = some (.fp, 30) := by decide

/-- V3.47: over the scalar field, with the destination a source. -/
theorem test_mul : fOf 1 (runWord 0x22112000 (two (fv .fn 5) (fv .fn 4))) = some (.fn, 6) := by decide

/-- V3.19 (the source's own example) and V3.25 (base 0, a negative multiple of `M - 1`). -/
theorem test_pow :
    fOf 3 (runWord 0x23312001 (two (fv .fp 17) (fv .raw 3))) = some (.fp, 29) ∧
    fOf 3 (runWord 0x23312001 (two (fv .fp 0) (fv .raw 60))) = some (.fp, 1) := by decide +kernel

/-- V3.32: the largest magnitude. -/
theorem test_pow_max : fOf 3 (runWord 0x23312000 (two (fv .fp 3) (fv .raw (2 ^ 256 - 1)))) = some (.fp, 30) := by decide +kernel

/-- `INV` of 17 modulo 31, and V3.34. -/
theorem test_inv :
    fOf 3 (runWord 0x24310000 (two (fv .fp 17) none)) = some (.fp, 11) ∧
    statusOf (runWord 0x24310000 (two (fv .fp 0) none)) = some 0x3002 := by decide +kernel

/-- V3.14, and V3.37: the domain is tested before the divisor. -/
theorem test_div :
    fOf 3 (runWord 0x25312000 (two (fv .fp 3) (fv .fp 24))) = some (.fp, 4) ∧
    statusOf (runWord 0x25312000 (two (fv .fp 5) (fv .fn 0))) = some 0x2002 := by decide +kernel

/-- V3.51 and V3.50. -/
theorem test_cmpf :
    statusOf (runWord 0x26012000 (two (fv .raw 5) (fv .raw 5))) = some 0x40 ∧
    statusOf (runWord 0x26012000 (two (fv .fp 5) (fv .fn 5))) = some 0x2002 := by decide

/-! ### Montgomery commands (95 section 4, 42 R189) -/

/-- V4.1 and V4.3. -/
theorem test_mmul :
    fOf 3 (runWord 0x30312000 (two (fv .fp 17) (fv .fp 21))) = some (.fp, 8) ∧
    fOf 3 (runWord 0x30312000 (two (fv .fp 17) (fv .fp 2))) = some (.fp, 17) := by decide +kernel

/-- V4.7. -/
theorem test_tomont : fOf 3 (runWord 0x31310000 (two (fv .fp 17) none)) = some (.fp, 3) := by decide +kernel

/-- V4.10. -/
theorem test_frommont : fOf 3 (runWord 0x32310000 (two (fv .fp 3) none)) = some (.fp, 17) := by decide +kernel

/-- 42 R189: the constants for secp256k1's `p`. -/
theorem test_constants_p :
    radix % secp256k1P = 0x1000003D1 ∧ r2 secp256k1P = 0x1000007A2000E90A1 ∧
    nprime secp256k1P = 0xC9BD1905155383999C46C2C295F2B761BCB223FEDC24A059D838091DD2253531 := by decide +kernel

/-- 42 R189: the constants for the curve order `n`. -/
theorem test_constants_n :
    r2 0xFFFFFFFFFFFFFFFFFFFFFFFFFFFFFFFEBAAEDCE6AF48A03BBFD25E8CD0364141 =
      0x9D671CD581C69BC5E697F5E45BCD07C6741496C20E7CF878896CF21467D7D140 ∧
    nprime 0xFFFFFFFFFFFFFFFFFFFFFFFFFFFFFFFEBAAEDCE6AF48A03BBFD25E8CD0364141 =
      0xD9E8890D6494EF93897F30C127CFAB5E50A51AC834B9EC244B0DFF665588B13F := by decide +kernel

/-- 42 R186: the worked reduction, `M = 31`, `T = 357`; 42 R187 on the same operands. -/
theorem test_redc : redc 31 357 = 8 ∧ mulSerial 31 17 21 = 8 := by decide +kernel

/-! ### Points (95 section 5) -/

/-- V5.1 and V5.2. -/
theorem test_ldp :
    pOf 0 (runWord 0x40023006 (setF 2 (fv .fp 47) (setF 3 (fv .fp 71) (curve223 none none)))) = some (.c0, .affine 47 71) ∧
    statusOf (runWord 0x40023006 (setF 2 (fv .fp 47) (setF 3 (fv .fp 72) (curve223 none none)))) = some 0x1102 := by decide +kernel

/-- V5.6 (free fields, infinity) and V5.7 (the partial form). -/
theorem test_ldp_forms :
    pOf 1 (runWord 0x401FF000 (curve223 none none)) = some (.c0, .infinity) ∧
    statusOf (runWord 0x40120002 (curve223 none none)) = some 0x1202 := by decide

/-- V5.14 and V5.17. -/
theorem test_getx :
    fOf 4 (runWord 0x41410000 (curve223 none (pv .c0 36 111))) = some (.fp, 36) ∧
    statusOf (runWord 0x41410000 (curve223 none (some ⟨.c0, .infinity⟩))) = some 0x3102 := by decide

/-- V5.15. -/
theorem test_gety : fOf 5 (runWord 0x42510000 (curve223 none (pv .c0 36 111))) = some (.fp, 111) := by decide

/-- V5.19. -/
theorem test_movp : pOf 3 (runWord 0x43310000 (curve223 none (pv .c0 36 111))) = some (.c0, .affine 36 111) := by decide

/-- V5.20 and V5.21. -/
theorem test_tstp :
    statusOf (runWord 0x44010000 (curve223 none (some ⟨.c0, .infinity⟩))) = some 0x20 ∧
    statusOf (runWord 0x44000000 (curve223 (pv .c0 47 71) none)) = some 0 := by decide

/-- V5.22 and V5.45: the curves are compared also for two infinities. -/
theorem test_cmpp :
    statusOf (runWord 0x45001000 (curve223 (pv .c0 47 71) (pv .c0 47 71))) = some 0x40 ∧
    statusOf (runWord 0x45001000 (curve223 (some ⟨.c0, .infinity⟩) (some ⟨.c1, .infinity⟩))) = some 0x2102 := by decide

/-- V5.26 (chord) and V5.32 (vertical tangent). -/
theorem test_padd :
    pOf 2 (runWord 0x48201000 (curve223 (pv .c0 170 142) (pv .c0 60 139))) = some (.c0, .affine 220 181) ∧
    pOf 2 (runWord 0x48201000 (curve223 (pv .c0 6 0) (pv .c0 6 0))) = some (.c0, .infinity) := by decide +kernel

/-- V5.44 (the curve test comes before the infinity) and V5.46 (equal numbers in two banks are one curve; the result takes `Pa`'s bank). -/
theorem test_padd_curves :
    statusOf (runWord 0x48201000 (curve223 (some ⟨.c0, .infinity⟩) (pv .c1 3 60))) = some 0x2102 ∧
    pOf 2 (runWord 0x48210000 { curve223 (pv .c0 47 71) (pv .c1 36 111) with crv1 := some ⟨0#256, 7#256⟩ }) =
      some (.c1, .affine 15 137) := by decide +kernel

/-- V5.38, and the doubling of (3, 6) on `y^2 = x^3 + 2x + 3` over F97. -/
theorem test_pdbl :
    pOf 1 (runWord 0x49100000 (curve223 (pv .c0 47 71) none)) = some (.c0, .affine 36 111) ∧
    pOf 1 (runWord 0x49100000 { curve223 (pv .c0 3 6) none with modFP := some 97#256, crv0 := some ⟨2#256, 3#256⟩ }) =
      some (.c0, .affine 80 10) := by decide +kernel

/-- V5.53 (reduction of the largest scalar) and V5.62 (a missing order is reported before the scalar's tag). -/
theorem test_smul :
    pOf 1 (runWord 0x4A104000 (setF 4 (fv .raw (2 ^ 256 - 1)) (curve223 (pv .c0 47 71) none))) = some (.c0, .affine 139 86) ∧
    statusOf (runWord 0x4A104000 { setF 4 (fv .fp 5) (curve223 (pv .c0 47 71) none) with modFN := none }) = some 0x0302 := by decide +kernel

/-- V1.2: the source's scenario, `smul(8) == (116,55)`, also on the projective datapath (44 R245). -/
theorem test_smul_source :
    smul 223 0 (.affine 47 71) 8 = .affine 116 55 ∧ jSmul 223 0 (.affine 47 71) 8 = .affine 116 55 ∧
    smul 223 0 (.affine 47 71) 21 = .infinity := by decide +kernel

/-- 44 R242 and R243: the worked doubling and addition. -/
theorem test_jacobian :
    jdbl 223 0 ⟨47, 71, 1⟩ = ⟨39, 16, 142⟩ ∧ jadd 223 0 ⟨170, 142, 1⟩ ⟨60, 139, 1⟩ = ⟨49, 137, 113⟩ ∧
    jnorm 223 ⟨49, 137, 113⟩ = .affine 220 181 := by decide +kernel

/-- The same on Montgomery forms (44 R247): the worked addition and doubling, and V1.2. -/
theorem test_montgomery_datapath :
    jPaddMont 223 0 (.affine 170 142) (.affine 60 139) = .affine 220 181 ∧ jPdblMont 223 0 (.affine 47 71) = .affine 36 111 ∧
    jSmulMont 223 0 (.affine 47 71) 8 = .affine 116 55 ∧ jSmulMont 223 0 (.affine 47 71) 21 = .infinity := by decide +kernel

/-- 44 R240: over the composite 221 the affine law and the datapath disagree, `5 * (124, 213)`. -/
theorem test_composite_disagrees :
    smul 221 0 (.affine 124 213) 5 = .affine 7 8 ∧ jSmul 221 0 (.affine 124 213) 5 = .affine 102 34 := by decide +kernel

/-- V6.2: the double of secp256k1's generator. -/
theorem test_double_G :
    padd secp256k1P 0 (.affine 0x79BE667EF9DCBBAC55A06295CE870B07029BFCDB2DCE28D959F2815B16F81798 0x483ADA7726A3C4655DA4FBFC0E1108A8FD17B448A68554199C47D08FFB10D4B8)
      (.affine 0x79BE667EF9DCBBAC55A06295CE870B07029BFCDB2DCE28D959F2815B16F81798 0x483ADA7726A3C4655DA4FBFC0E1108A8FD17B448A68554199C47D08FFB10D4B8) =
    .affine 0xC6047F9441ED7D6D3045406E95C07CD85C778E4B8CEF3CA7ABAC09B95C709EE5 0x1AE168FEA63DC339A3C58419466CEAEEF7F632653266D0E1236431A950CFE52A := by
  decide +kernel

/-! ### The host window (95 section 8) -/

/-- V8.2: one word of `DBUF`. -/
theorem test_dbuf_write :
    dbufOf (step { State.reset with events := [.write (.dbuf 7) 0x80000000#32] }) = some (2 ^ 255) := by decide +kernel

/-- V8.3: a command is accepted, and only accepted. -/
theorem test_cmd_write :
    statusOf (step { two (fv .fp 17) (fv .fp 14) with events := [.write .cmd 0x20312000#32] }) = some 0x01 ∧
    fOf 3 (step { two (fv .fp 17) (fv .fp 14) with events := [.write .cmd 0x20312000#32] }) = none := by decide

/-- V8.4: a write while BUSY is dropped. -/
theorem test_dropped :
    statusOf (step { State.reset with run := .busy, events := [.write (.dbuf 0) 99#32] }) = some 0x05 ∧
    dbufOf (step { State.reset with run := .busy, dbuf := 5#256, events := [.write (.dbuf 0) 99#32] }) = some 5 := by decide

/-- V8.5: a write to `CMD` in FAULT is dropped; V8.6: a soft reset leaves FAULT. -/
theorem test_fault_and_reset :
    statusOf (step { State.reset with run := .fault, err := some .zeroInv, z := true, events := [.write .cmd 0x13000000#32] }) = some 0x3016 ∧
    statusOf (step { State.reset with run := .fault, err := some .zeroInv, z := true, events := [.write .ctrl 1#32] }) = some 0 := by decide

/-- V8.1: a read after reset. -/
theorem test_read_id : replyOf (step { State.reset with events := [.read .id] }) = some 0x4D323536 := by decide

/-- 30 R108: an illegal word faults at completion. -/
theorem test_illegal : statusOf (runWord 0x00000000 State.reset) = some 0x0102 := by decide

/-! ### Witnesses: states and operands that meet the hypotheses of the statements -/

/-- A legal state of a busy unit over `MOD[FP] = 223`, `MOD[FN] = 21` with two curves, registers of every tag, and registers not valid. -/
def demo : State :=
  setF 0 (fv .fp 0) (setF 1 (fv .fp 7) (setF 2 (fv .fp 47) (setF 3 (fv .fp 222) (setF 4 (fv .raw (2 ^ 256 - 1)) (setF 5 (fv .fn 20)
    (setF 6 (fv .raw 0) (setF 7 (fv .fp 71) (setP 2 (pv .c1 3 60) (setP 3 (some ⟨.c0, .infinity⟩) (setP 4 (pv .c0 6 0)
      { curve223 (pv .c0 47 71) (pv .c0 36 111) with run := .busy }))))))))))

/-- A legal state over the composite modulus 15: (3, 2) is on `y^2 = x^3 + 7`. -/
def demo15 : State :=
  setF 4 (fv .raw 5) (setP 0 (pv .c0 3 2)
    { State.reset with modFP := some 15#256, modFN := some 21#256, crv0 := some ⟨0#256, 7#256⟩, run := .busy })

/-- What a field register of `demo` may hold, as a computation. -/
def fieldOk (s : State) (r : Option FReg) : Bool :=
  match r with
  | none => true
  | some r =>
    match r.tag with
    | .raw => true
    | .fp => s.modFP.any fun m => r.val.toNat < m.toNat
    | .fn => s.modFN.any fun m => r.val.toNat < m.toNat

/-- What a point register of `demo` may hold, as a computation. -/
def pointOk (s : State) (q : Option PReg) : Bool :=
  match q with
  | none => true
  | some q =>
    match s.curve q.crv, s.modFP, ptOf q with
    | some _, some _, .infinity => true
    | some k, some m, .affine x y => x < m.toNat && y < m.toNat && onCurve m.toNat k.a.toNat k.b.toNat x y
    | _, _, _ => false

/-- The computations imply the invariant. -/
theorem inv_of_ok {s : State} (hm : ModuliLegal s) (hf : ∀ i, fieldOk s (s.fReg i) = true) (hc : CurvesReduced s)
    (hp : ∀ i, pointOk s (s.pReg i) = true) (hi : CodeIffFault s) (hr : s.inReset = false) : StateInv s ∧ PointsOnCurve s := by
  refine ⟨⟨hm, ?_, hc, ?_, hi, fun h => by rw [hr] at h; cases h⟩, ?_⟩
  · intro i r b h ht
    have := hf i
    rw [h] at this
    cases b <;> rw [fieldOk, ht] at this <;> simpa [Bank.tag, State.modulus, Option.any_eq_true] using this
  · intro i q h
    have := hp i
    rw [h, pointOk] at this
    split at this
    · next k m hk hm hq => exact ⟨⟨_, hk⟩, _, hm, by rw [hq]; intro x y e; cases e⟩
    · next k m x y hk hm hq =>
      simp only [Bool.and_eq_true, decide_eq_true_eq] at this
      exact ⟨⟨_, hk⟩, _, hm, by rw [hq]; intro u v e; cases e; exact this.1⟩
    · cases this
  · intro i q m k h hm' _ hk
    have := hp i
    rw [h, pointOk, hk, hm'] at this
    intro x y e
    rw [e] at this
    simp only [Bool.and_eq_true, decide_eq_true_eq] at this
    exact this.2

theorem demo_inv : StateInv demo ∧ PointsOnCurve demo :=
  inv_of_ok
    (by rintro (_ | _) m h
        · obtain rfl : 223#256 = m := Option.some.inj h
          exact ⟨by decide, by decide⟩
        · obtain rfl : 21#256 = m := Option.some.inj h
          exact ⟨by decide, by decide⟩)
    (by decide +kernel)
    (by rintro (_ | _) k h
        · obtain rfl : (⟨0#256, 7#256⟩ : Curve) = k := Option.some.inj h
          exact ⟨223#256, rfl, by decide, by decide⟩
        · obtain rfl : (⟨0#256, 5#256⟩ : Curve) = k := Option.some.inj h
          exact ⟨223#256, rfl, by decide, by decide⟩)
    (by decide +kernel) (by simp [CodeIffFault, demo]; decide) rfl

theorem demo15_inv : StateInv demo15 ∧ PointsOnCurve demo15 :=
  inv_of_ok
    (by rintro (_ | _) m h
        · obtain rfl : 15#256 = m := Option.some.inj h
          exact ⟨by decide, by decide⟩
        · obtain rfl : 21#256 = m := Option.some.inj h
          exact ⟨by decide, by decide⟩)
    (by decide +kernel)
    (by rintro (_ | _) k h
        · obtain rfl : (⟨0#256, 7#256⟩ : Curve) = k := Option.some.inj h
          exact ⟨15#256, rfl, by decide, by decide⟩
        · cases h)
    (by decide +kernel) (by simp [CodeIffFault, demo15]; decide) rfl

/-- `demo` with the unit idle. -/
def demoIdle : State := { demo with run := .idle }

/-- `demo` stopped by a fault. -/
def demoFault : State := { demo with run := .fault, err := some .domain }

/-- A state held in reset. -/
def demoHeld : State := { State.reset with inReset := true }

/-- `EncodeOfDecode`: a word with the largest operands. -/
theorem witness_EncodeOfDecode : decode 0x407AB007#32 = .ok (.ldp 7 10 11 .c1 true true) := by decide

/-- `DecoderAgreesWithMasks`: the row of `LDP` and a word it matches. -/
theorem witness_DecoderAgreesWithMasks :
    (maskTable.any fun r => r.mnemonic == "LDP" && 0x407AB007#32 &&& r.mask == r.matchWord) = true := by decide

/-- `StepRunsDecodedCommand`: a busy unit, with no event to come and with its turn next. -/
theorem witness_StepRunsDecodedCommand :
    demo.run = .busy ∧ demo.inReset = false ∧ demo.events = [] ∧ decode 0x25312000#32 = .ok (.div 3 1 2) ∧
    wellFormed (.div 3 1 2) = true ∧ ({ demo with cmd := 0x25312000#32, events := [.unitTurn] } : State).events = .unitTurn :: [] := by
  decide

/-- `IllegalWordFaults`: the zero word, issued to an idle unit and completed by a busy one. -/
theorem witness_IllegalWordFaults :
    decode 0x00000000#32 = .error .reservedOp ∧ demoIdle.run = .idle ∧ demoIdle.inReset = false ∧
    ({ demoIdle with events := [.write .cmd 0#32] } : State).events = .write .cmd 0#32 :: [] ∧
    decode demo.cmd = .error .reservedOp ∧ demo.run = .busy ∧ demo.events = [] ∧
    ({ demo with events := [.unitTurn] } : State).events = .unitTurn :: [] := by decide

/-- `IllegalWordFaults`: the first and the last `op` of each reserved range, and the assigned ones beside them. -/
theorem witness_reservedOps :
    ([0x00, 0x0F, 0x17, 0x1F, 0x27, 0x2F, 0x33, 0x3F, 0x46, 0x47, 0x4B, 0xFF].all fun o =>
      (opRow (BitVec.ofNat 8 o)).isNone) = true ∧
    ([0x10, 0x16, 0x20, 0x26, 0x30, 0x32, 0x40, 0x45, 0x48, 0x4A].all fun o => (opRow (BitVec.ofNat 8 o)).isSome) = true := by decide

/-- `HardwareReset`: reset asserted on a busy unit; the four kinds of event while it is asserted. -/
theorem witness_HardwareReset :
    ({ demo with events := [.assertReset] } : State).events = .assertReset :: [] ∧ demoHeld.inReset = true ∧
    ({ demoHeld with events := [.unitTurn] } : State).events = .unitTurn :: [] ∧
    ({ demoHeld with events := [.write .ctrl 1#32] } : State).events = .write .ctrl 1#32 :: [] ∧
    ({ demoHeld with events := [.read (.dbuf 7)] } : State).events = .read (.dbuf 7) :: [] ∧
    ({ demoHeld with events := [.releaseReset] } : State).events = .releaseReset :: [] := by decide

/-- `SoftReset` and `OtherWrites`: bit 0 alone, and every bit but bit 0. -/
theorem witness_SoftReset :
    demo.inReset = false ∧ ({ demo with events := [.write .ctrl 1#32] } : State).events = .write .ctrl 1#32 :: [] ∧
    (1#32).getLsbD 0 = true ∧ (0xFFFFFFFE#32).getLsbD 0 = false := by decide

/-- `CmdWriteAcceptedOrDropped`, `DroppedAndTakenWrites`, `CleanRunLostNothing`: a write of `CMD` and of the last word of `DBUF` in IDLE, BUSY and
FAULT. -/
theorem witness_writes :
    demoIdle.run = .idle ∧ demo.run ≠ .idle ∧ demoFault.run ≠ .idle ∧ demoIdle.inReset = false ∧
    ({ demoIdle with events := [.write .cmd 0#32] } : State).events = .write .cmd 0#32 :: [] ∧
    ({ demoFault with events := [.write (.dbuf 7) 1#32] } : State).events = .write (.dbuf 7) 1#32 :: [] := by decide

/-- `DroppedAndTakenWrites`, `CleanRunLostNothing`: a step from a state with `OVR` set, and a clean step that takes a write. -/
theorem witness_ovr :
    (step { demo with ovr := true, events := [.read .status] } |> ovrAfter) = some true ∧
    (step { demoIdle with events := [.write (.dbuf 0) 5#32] } |> ovrAfter) = some false ∧
    (step { demoIdle with events := [.write (.dbuf 0) 5#32] } |> runAfter) = some .idle := by decide

/-- `OtherWrites`: the read-only registers and the last reserved word. -/
theorem witness_OtherWrites :
    ({ demo with events := [.write .id 7#32] } : State).events = .write .id 7#32 :: [] ∧
    ({ demoFault with events := [.write .status 7#32] } : State).events = .write .status 7#32 :: [] ∧
    ({ demo with events := [.write (.reserved 3) 7#32] } : State).events = .write (.reserved 3) 7#32 :: [] := by decide

/-- `ReadsReturnTheWindow`, `BusyReadIsAFreeDraw`: a read of a word of `DBUF` by a host of an idle, a busy and a stopped unit. -/
theorem witness_reads :
    ({ demoIdle with events := [.read (.dbuf 7)] } : State).events = .read (.dbuf 7) :: [] ∧ demoIdle.run ≠ .busy ∧
    demoFault.run ≠ .busy ∧ demo.run = .busy ∧ demo.inReset = false ∧
    ({ demo with events := [.read (.dbuf 0)] } : State).events = .read (.dbuf 0) :: [] := by decide

/-- `WindowMap`: the first and the last offset. -/
theorem witness_WindowMap : winAt 0x00 = some .id ∧ winAt 0x3C = some (.dbuf 7) ∧ 0x3C % 4 = 0 ∧ winAt 0x40 = none ∧ winAt 0x02 = none := by
  decide

/-- `LdmodMeaning`: values at the edges of legality. -/
theorem witness_LdmodMeaning :
    ¬ LegalModulus 1 ∧ ¬ LegalModulus 2 ∧ LegalModulus 3 ∧ ¬ LegalModulus 4 ∧ LegalModulus (2 ^ 256 - 1) := by
  simp [LegalModulus]

/-- `LdcrvMeaning`: an invalid register, wrong tags, two `FP` registers. -/
theorem witness_LdcrvMeaning :
    demo.fReg 15 = none ∧ demo.fReg 0 = fv .fp 0 ∧ demo.fReg 5 = fv .fn 20 ∧ demo.fReg 4 = fv .raw (2 ^ 256 - 1) ∧
    demo.fReg 3 = fv .fp 222 := by decide +kernel

/-- `LdfMeaning`: no bank; the modulus itself and the value below it. -/
theorem witness_LdfMeaning :
    State.reset.modulus .fn = none ∧ demo.modulus .fp = some 223#256 ∧ demo.modulus .fn = some 21#256 ∧
    (223#256 : Word).toNat ≤ (223#256 : Word).toNat ∧ (222#256 : Word).toNat < (223#256 : Word).toNat := by decide

/-- `LdiStfMovfMeaning`, `RedMeaning`: an invalid source, and sources of every tag; a bank that is not valid. -/
theorem witness_sources :
    ModuliLegal demo ∧ demo.fReg 15 = none ∧ demo.fReg 4 = fv .raw (2 ^ 256 - 1) ∧ demo.fReg 5 = fv .fn 20 ∧ demo.fReg 3 = fv .fp 222 ∧
    State.modulus .fp { demo with modFP := none } = none := ⟨demo_inv.1.moduli, by decide +kernel⟩

/-- `AddSubMulMeaning`, `MontgomeryCommandsMeaning`: the largest and the least residue of one bank, of the other, and the refused pairs. -/
theorem witness_pairs :
    ModuliLegal demo ∧ demo.fReg 3 = some ⟨Bank.fp.tag, 222#256⟩ ∧ demo.fReg 0 = some ⟨Bank.fp.tag, 0#256⟩ ∧
    demo.modulus .fp = some 223#256 ∧ demo.fReg 5 = some ⟨Bank.fn.tag, 20#256⟩ ∧ demo.modulus .fn = some 21#256 ∧
    demo.fReg 6 = some ⟨.raw, 0#256⟩ ∧ Tag.fp ≠ Tag.fn ∧ 1 ≤ 8 ∧ 8 < 223 ∧ (2 ^ 256 * 8) % 223 = 1 :=
  ⟨demo_inv.1.moduli, by decide +kernel⟩

/-- `PowMeaning`: a base, the exponents 0 and `2^256 - 1`, and the reduced exponents of both signs. -/
theorem witness_PowMeaning :
    ModuliLegal demo ∧ demo.fReg 3 = some ⟨Bank.fp.tag, 222#256⟩ ∧ demo.fReg 6 = some ⟨.raw, 0#256⟩ ∧
    demo.fReg 4 = some ⟨.raw, toWord (2 ^ 256 - 1)⟩ ∧ demo.modulus .fp = some 223#256 ∧
    (223 - 1 - (2 ^ 256 - 1) % (223 - 1)) % (223 - 1) = 207 :=
  ⟨demo_inv.1.moduli, by decide +kernel⟩

/-- `InvDivMeaning`: a zero and a non-zero operand of a prime modulus. -/
theorem witness_InvDivMeaning :
    ModuliLegal demo ∧ demo.fReg 0 = some ⟨Bank.fp.tag, 0#256⟩ ∧ demo.fReg 3 = some ⟨Bank.fp.tag, 222#256⟩ ∧
    demo.modulus .fp = some 223#256 ∧ (223#256 : Word).toNat.Prime ∧ 0 < (222#256 : Word).toNat ∧ (222#256 : Word).toNat < (223#256 : Word).toNat :=
  ⟨demo_inv.1.moduli, by decide +kernel, by decide +kernel, by decide, by norm_num, by decide, by decide⟩

/-- `CmpfMeaning`: different tags, and two `RAW` registers. -/
theorem witness_CmpfMeaning :
    demo.fReg 3 = fv .fp 222 ∧ demo.fReg 5 = fv .fn 20 ∧ demo.fReg 4 = fv .raw (2 ^ 256 - 1) ∧ demo.fReg 6 = fv .raw 0 ∧ demo.fReg 15 = none := by
  decide +kernel

/-- `FieldLaws` and the statements about one modulus: the least legal modulus, a prime one, a composite one. -/
theorem witness_moduli :
    LegalModulus 3 ∧ LegalModulus 223 ∧ LegalModulus 15 ∧ LegalModulus (2 ^ 256 - 1) ∧ Nat.Prime 3 ∧ Nat.Prime 223 ∧ ¬ Nat.Prime 15 ∧
    223 < 2 ^ 256 ∧ 222 < 223 ∧ (222 : Nat) ≠ 0 := by
  refine ⟨⟨rfl, by decide⟩, ⟨rfl, by decide⟩, ⟨rfl, by decide⟩, ⟨by norm_num, by norm_num⟩, ?_⟩
  norm_num

/-- `RadixInverse`: the inverse of the radix modulo 31 (95 section 4). -/
theorem witness_RadixInverse : LegalModulus 31 ∧ 1 ≤ 16 ∧ 16 < 31 ∧ (2 ^ 256 * 16) % 31 = 1 ∧ (30 : Nat) < 31 :=
  ⟨⟨rfl, by decide⟩, by decide +kernel⟩

/-- `RedcIsMontgomeryProduct`, `BitSerialIsMontgomeryProduct`, `MontgomeryIdentities`: the largest operands modulo 31. -/
theorem witness_redc : LegalModulus 31 ∧ 31 * radix - 1 < 31 * radix ∧ 30 < 2 ^ 256 ∧ (30 : Nat) < 31 ∧ 256 ≤ 256 :=
  ⟨⟨rfl, by decide⟩, by decide +kernel⟩

/-- `LdpMeaning`: the partial forms, a missing curve bank, wrong tags, a point off the curve and one on it. -/
theorem witness_LdpMeaning :
    true ≠ false ∧ State.curve .c1 { demo with crv1 := none } = none ∧ demo.curve .c0 = some ⟨0#256, 7#256⟩ ∧ demo.fReg 15 = none ∧
    demo.fReg 2 = fv .fp 47 ∧ demo.fReg 7 = fv .fp 71 ∧ demo.fReg 5 = fv .fn 20 ∧ demo.modFP = some 223#256 ∧
    (71 * 71) % 223 = (47 * 47 * 47 + 0 * 47 + 7) % 223 ∧ (222 * 222) % 223 ≠ (47 * 47 * 47 + 0 * 47 + 7) % 223 := by decide +kernel

/-- `GetxGetyMeaning`, `MovpTstpMeaning`, `CmppMeaning`: an invalid point, infinity, finite points of both curves. -/
theorem witness_points :
    demo.pReg 7 = none ∧ demo.pReg 3 = some ⟨.c0, .infinity⟩ ∧ ptOf ⟨.c0, .infinity⟩ = .infinity ∧ demo.pReg 0 = pv .c0 47 71 ∧
    ptOf ⟨.c0, .affine (toWord 47) (toWord 71)⟩ = .affine 47 71 ∧ demo.pReg 1 = pv .c0 36 111 ∧ demo.pReg 2 = pv .c1 3 60 ∧
    demo.curve .c0 = some ⟨0#256, 7#256⟩ ∧ demo.curve .c1 = some ⟨0#256, 5#256⟩ ∧
    (⟨0#256, 7#256⟩ : Curve) ≠ ⟨0#256, 5#256⟩ := by decide +kernel

/-- `GroupAdditionCases`: the five cases over 223. -/
theorem witness_GroupAdditionCases :
    Nat.Prime 223 ∧ LegalModulus 223 ∧ 223 < 2 ^ 256 ∧ 47 < 223 ∧ 71 < 223 ∧ 36 < 223 ∧ 111 < 223 ∧ (71 : Nat) ≠ 152 ∧ (47 : Nat) ≠ 36 ∧
    (71 : Nat) ≠ 0 := ⟨by norm_num, ⟨rfl, by decide⟩, by norm_num⟩

/-- `PaddPdblMeaning`, `SmulMeaning`: points of one curve and of two, over a prime modulus; scalars of the three tags; a missing order. -/
theorem witness_group :
    demo.pReg 0 = pv .c0 47 71 ∧ demo.pReg 1 = pv .c0 36 111 ∧ demo.pReg 2 = pv .c1 3 60 ∧ demo.pReg 7 = none ∧
    demo.curve .c0 = some ⟨0#256, 7#256⟩ ∧ demo.curve .c1 = some ⟨0#256, 5#256⟩ ∧ demo.modFP = some 223#256 ∧
    (223#256 : Word).toNat.Prime ∧ demo.modFN = some 21#256 ∧ ({ demo with modFN := none } : State).modFN = none ∧
    demo.fReg 4 = fv .raw (2 ^ 256 - 1) ∧ demo.fReg 5 = fv .fn 20 ∧ demo.fReg 3 = fv .fp 222 ∧ demo.fReg 15 = none := by
  refine ⟨by decide +kernel, by decide +kernel, by decide +kernel, by decide, by decide, by decide, by decide, by norm_num, ?_⟩
  decide +kernel

/-- `CompositeModulusCompletes`: a legal state over 15. -/
theorem witness_CompositeModulusCompletes :
    ModuliLegal demo15 ∧ demo15.pReg 0 = pv .c0 3 2 ∧ demo15.curve .c0 = some ⟨0#256, 7#256⟩ ∧ demo15.modFP = some 15#256 ∧
    demo15.modFN = some 21#256 ∧ demo15.fReg 4 = fv .raw 5 ∧ Tag.raw ≠ Tag.fp ∧ ¬ (15#256 : Word).toNat.Prime :=
  ⟨demo15_inv.1.moduli, by decide +kernel, by decide, by decide, by decide, by decide +kernel, by decide, by norm_num⟩

/-- `CompositeModulusCompletes`: the premises of `PADD` and `PDBL` with no order loaded and no field register valid. -/
theorem witness_CompositeModulus_noOrder :
    ModuliLegal { setF 4 none demo15 with modFN := none } ∧ State.pReg 0 { setF 4 none demo15 with modFN := none } = pv .c0 3 2 ∧
    State.fReg 4 { setF 4 none demo15 with modFN := none } = none := by
  refine ⟨?_, by decide +kernel⟩
  rintro (_ | _) m h
  · exact demo15_inv.1.moduli .fp m h
  · cases h

/-- A point with residues of the modulus is reduced. -/
theorem reduced_affine {M x y : Nat} (hx : x < M) (hy : y < M) : PointReduced M (.affine x y) := by
  intro u v e; cases e; exact ⟨hx, hy⟩

/-- A point that satisfies the equation is on the curve. -/
theorem on_affine {M A B x y : Nat} (h : onCurve M A B x y = true) : PointOn M A B (.affine x y) := by
  intro u v e; cases e; exact h

/-- `GroupLaws`, `SmulIsRepeatedAddition`: three points of the non-singular curve `y^2 = x^3 + 7` over 223. -/
theorem witness_GroupLaws :
    Nat.Prime 223 ∧ LegalModulus 223 ∧ 223 < 2 ^ 256 ∧ 0 < 223 ∧ 7 < 223 ∧ (4 * 0 ^ 3 + 27 * 7 ^ 2) % 223 ≠ 0 ∧
    PointReduced 223 (.affine 47 71) ∧ PointReduced 223 (.affine 36 111) ∧ PointReduced 223 (.affine 15 137) ∧
    PointOn 223 0 7 (.affine 47 71) ∧ PointOn 223 0 7 (.affine 36 111) ∧ PointOn 223 0 7 (.affine 15 137) ∧ 21 < 2 ^ 256 :=
  ⟨by norm_num, ⟨rfl, by decide⟩, by norm_num, by norm_num, by norm_num, by norm_num, reduced_affine (by norm_num) (by norm_num),
    reduced_affine (by norm_num) (by norm_num), reduced_affine (by norm_num) (by norm_num), on_affine (by decide), on_affine (by decide),
    on_affine (by decide), by norm_num⟩

/-- `JacobianRefinesGroupLaw`, `JacobianCommandsRefineAffine`, `MontgomeryDatapathAgrees`: a triple with `Z = 1`, one with another `Z`. -/
theorem witness_jacobian :
    Nat.Prime 223 ∧ LegalModulus 223 ∧ 223 < 2 ^ 256 ∧ 0 < 223 ∧ 47 < 223 ∧ 71 < 223 ∧ 1 < 223 ∧ 39 < 223 ∧ 16 < 223 ∧ 142 < 223 ∧
    PointReduced 223 (.affine 47 71) ∧ PointReduced 223 .infinity :=
  ⟨by norm_num, ⟨rfl, by decide⟩, by norm_num, by norm_num, by norm_num, by norm_num, by norm_num, by norm_num, by norm_num, by norm_num,
    reduced_affine (by norm_num) (by norm_num), fun _ _ e => by cases e⟩

/-- `StepKeepsInvariant`, `StepKeepsPointsOnCurve`, `EveryCommandCompletes`, `BusyUnitCompletes`: a legal busy state that steps. -/
theorem witness_step :
    StateInv demo ∧ PointsOnCurve demo ∧ demo.run = .busy ∧ (223#256 : Word).toNat.Prime ∧
    runAfter (step (demo.withFetchWord 32 0x48201000)) = some .idle :=
  ⟨demo_inv.1, demo_inv.2, rfl, by norm_num, by decide +kernel⟩

/-- `RunTransitions`: a read that leaves `RUN`, an accepted write, a command that completes, one that faults, a word that spells none, and the
three resets. -/
theorem witness_RunTransitions :
    runAfter (step { demo with events := [.read .cmd] }) = some .busy ∧
    runAfter (step { demoIdle with events := [.write .cmd 0#32] }) = some .busy ∧
    runAfter (step { demo with cmd := 0x20312000#32, events := [.unitTurn] }) = some .idle ∧
    runAfter (step { demo with cmd := 0x14F00000#32 }) = some .fault ∧
    runAfter (step { demo with cmd := 0x140F0000#32 }) = some .fault ∧ decode 0x140F0000#32 = .ok (.stf 15) ∧
    decode 0x14F00000#32 = .error .fieldD ∧
    runAfter (step { demoFault with events := [.write .ctrl 1#32] }) = some .idle ∧
    runAfter (step { demo with events := [.assertReset] }) = some .idle ∧
    runAfter (step { demoHeld with events := [.releaseReset] }) = some .idle := by decide +kernel

/-- `FaultsArePrecise`: a command that faults, and each kind of event in FAULT. -/
theorem witness_FaultsArePrecise :
    runAfter (exec (.stf 15) demo) = some .fault ∧ demoFault.run = .fault ∧ demoFault.inReset = false ∧
    demoFault.events = [] ∧ ({ demoFault with events := [.unitTurn] } : State).events = .unitTurn :: [] ∧
    ({ demoFault with events := [.write .cmd 0#32] } : State).events = .write .cmd 0#32 :: [] ∧
    ({ demoFault with events := [.read .status] } : State).events = .read .status :: [] := by decide

/-- `FaultLeftOnlyByReset`: a step from FAULT that stays there, and one that leaves it. -/
theorem witness_FaultLeftOnlyByReset :
    runAfter (step { demoFault with events := [.read .cmd] }) = some .fault ∧
    runAfter (step { demoFault with events := [.write .ctrl 1#32] }) = some .idle := by decide

/-- `FlagsByCommand`, `CommandFrame`: a command of each kind that completes, each of those that write `EQ` or test a point among them. -/
theorem witness_completed :
    runAfter (exec (.add 1 2 3) demo) = some .idle ∧
    runAfter (exec (.movp 5 0) demo) = some .idle ∧
    runAfter (exec (.stf 4) demo) = some .idle ∧
    runAfter (exec (.cmpp 0 1) demo) = some .idle ∧
    runAfter (exec (.cmpf 4 6) demo) = some .idle ∧
    runAfter (exec (.tstp 3) demo) = some .idle ∧
    runAfter (exec (.ldmod .fn) { demo with dbuf := 3#256 }) = some .idle ∧
    runAfter (exec (.ldcrv 0 1 .c1) demo) = some .idle := by decide +kernel

/-- `InvalidSourceFaults`: an invalid second field source, an invalid point source, and `LDP` with both coordinates. -/
theorem witness_InvalidSourceFaults :
    (15 : FIdx) ∈ readsF (.add 1 2 15) ∧ demo.fReg 15 = none ∧ (7 : PIdx) ∈ readsP (.padd 1 0 7) ∧ demo.pReg 7 = none ∧
    (15 : FIdx) ∈ readsF (.ldp 0 15 2 .c0 true true) := by decide

/-- A busy unit with nothing valid but two `RAW` registers. -/
def demoRaw : State := setF 2 (fv .raw 7) (setF 1 (fv .raw 5) { State.reset with dbuf := 3#256, run := .busy })

/-- `BootNeedsLoads`: what it assumes of `demoRaw`. -/
theorem witness_BootNeedsLoads_raw :
    (∀ b, demoRaw.modulus b = none) ∧ (∀ c, demoRaw.curve c = none) ∧ (∀ j, demoRaw.pReg j = none) ∧
    (∀ j r, demoRaw.fReg j = some r → r.tag = .raw) := by
  refine ⟨by rintro (_ | _) <;> rfl, by rintro (_ | _) <;> rfl, by decide +kernel, fun j r h => ?_⟩
  have hall : ∀ j : FIdx, (demoRaw.fReg j).all (fun r => r.tag == .raw) = true := by decide +kernel
  have := hall j
  rw [h] at this
  simpa using this

/-- `BootNeedsLoads`: the five commands that complete in such a state. -/
theorem witness_BootNeedsLoads_completes :
    runAfter (exec (.ldmod .fn) demoRaw) = some .idle ∧ runAfter (exec (.ldi 0) demoRaw) = some .idle ∧
    runAfter (exec (.stf 1) demoRaw) = some .idle ∧ runAfter (exec (.movf 15 2) demoRaw) = some .idle ∧
    runAfter (exec (.cmpf 1 2) demoRaw) = some .idle := by decide +kernel

/-- `BootNeedsLoads`: the two commands that succeed after reset. -/
theorem witness_BootNeedsLoads :
    runAfter (exec (.ldmod .fp) { State.reset with dbuf := 3#256 }) = some .idle ∧
    runAfter (exec (.ldi 15) { State.reset with dbuf := 0#256 }) = some .idle := by decide

end Sys2Proof.Tests
end

section
/-! PROOFS. Reset and the invariant it meets (10 R31, R35, R45; 70 R300), `STATUS` (10 R28) and the hidden constants (10 R22). -/

namespace Sys2Proof.Machine

/-! ### The reset table (10 R45) -/

/-- The reset values are the table of 10 R45, whatever stands outside the unit. -/
theorem isResetState_outside (held : Bool) (events : List Event) (replies : List Word32) (draws : Nat) :
    IsResetState { State.reset with inReset := held, events := events, replies := replies, draws := draws } :=
  ⟨rfl, rfl, rfl, rfl, rfl, rfl, rfl, rfl, reset_modulus, reset_curve, reset_fReg, reset_pReg⟩

theorem isResetState_reset : IsResetState State.reset := isResetState_outside _ _ _ _

theorem isResetState_unitReset (s : State) : IsResetState (unitReset s) := isResetState_outside _ _ _ _

theorem isResetState_assertReset (s : State) : IsResetState (assertReset s) := isResetState_outside _ _ _ _

/-- Releasing an asserted reset input. -/
theorem releaseReset_held {s : State} (h : s.inReset = true) : releaseReset s = { unitReset s with inReset := false } := if_pos h

/-- An input that is not asserted has nothing to release. -/
theorem releaseReset_released {s : State} (h : s.inReset = false) : releaseReset s = s := by simp [releaseReset, h]

theorem isResetState_releaseReset {s : State} (h : s.inReset = true) : IsResetState (releaseReset s) := by
  rw [releaseReset_held h]
  exact isResetState_outside _ _ _ _

/-- `STATUS` reads 0 in the reset table (10 R28, R45). -/
theorem IsResetState.statusWord_eq_zero {t : State} (h : IsResetState t) : statusWord t = 0#32 := by
  obtain ⟨hrun, hz, hinf, heq, hovr, herr, -⟩ := h
  rw [statusWord, hrun, hz, hinf, heq, hovr, herr]
  rfl

/-! ### The window while reset is held, and writes (70 R300; 10 R31) -/

theorem windowView_held {s : State} (h : s.inReset = true) : windowView s = { State.reset with draws := s.draws } := if_pos h

/-- The reset values do not show the counter of free draws: the unit is not BUSY. -/
theorem windowRead_reset (r : WinReg) (n : Nat) : windowRead r { State.reset with draws := n } = windowRead r State.reset := by
  cases r <;> rfl

theorem readDraws_reset (r : WinReg) (n : Nat) : readDraws r { State.reset with draws := n } = false := by
  cases r <;> rfl

/-- A read while reset is held returns the reset value and draws nothing. -/
theorem hostRead_held {s : State} (h : s.inReset = true) (r : WinReg) :
    hostRead r s = { s with replies := windowRead r State.reset :: s.replies } := by
  simp [hostRead, windowView_held h, windowRead_reset, readDraws_reset]

/-- A write while reset is held is lost. -/
theorem hostWrite_held {s : State} (h : s.inReset = true) (r : WinReg) (v : Word32) : hostWrite r v s = s := if_pos h

theorem hostWrite_ctrl {s : State} (h : s.inReset = false) (v : Word32) :
    hostWrite .ctrl v s = if v.getLsbD 0 then unitReset s else s := by
  simp [hostWrite, writeCtrl, h]

/-- A write of `STATUS` is ignored in every state. -/
theorem hostWrite_status (v : Word32) (s : State) : hostWrite .status v s = s := by simp [hostWrite]

/-- Settles O8: each event on the unit by its own rule, and the table by `isResetState_outside`. -/
theorem hardwareReset : Obligations.HardwareReset := by
  refine ⟨isResetState_reset, isResetState_reset.statusWord_eq_zero, rfl, ?asserted, ?quiet, ?read, ?released⟩
  case asserted =>
    intro s rest hev
    exact ⟨_, step_event hev, isResetState_assertReset _, rfl, rfl⟩
  case quiet =>
    rintro s _ rest hheld hev (rfl | ⟨r, v, rfl⟩)
    · rw [step_event hev]
      exact unitMove_quiet (.inl hheld)
    · rw [step_event hev, applyEvent, hostWrite_held (s := { s with events := rest }) hheld]
  case read =>
    intro s r rest hheld hev
    rw [step_event hev, applyEvent, hostRead_held (s := { s with events := rest }) hheld]
  case released =>
    intro s rest hheld hev
    rw [step_event hev, applyEvent, releaseReset_held (s := { s with events := rest }) hheld]
    exact ⟨_, rfl, isResetState_outside _ _ _ _, rfl, rfl⟩

/-- Settles O9: a write of `CTRL` is `unitReset` or nothing, by its bit 0. -/
theorem softReset : Obligations.SoftReset := by
  refine ⟨rfl, fun _ => rfl, fun s v rest hheld hev => ?_⟩
  have hstep : step s = .next (if v.getLsbD 0 then unitReset { s with events := rest } else { s with events := rest }) := by
    rw [step_event hev, applyEvent, hostWrite_ctrl (s := { s with events := rest }) hheld]
  constructor
  · intro hbit
    rw [hbit] at hstep
    have hreset := isResetState_unitReset { s with events := rest }
    exact ⟨_, hstep, hreset, hreset.statusWord_eq_zero, hheld, rfl, rfl⟩
  · intro hbit
    rwa [hbit] at hstep

/-! ### `STATUS` (10 R28) -/

/-- The low byte of `STATUS`, bit by bit. -/
theorem statusWord_low (s : State) :
    (statusWord s).getLsbD 0 = decide (s.run = .busy) ∧ (statusWord s).getLsbD 1 = decide (s.run = .fault) ∧
    (statusWord s).getLsbD 2 = s.ovr ∧ (statusWord s).getLsbD 3 = false ∧ (statusWord s).getLsbD 4 = s.z ∧
    (statusWord s).getLsbD 5 = s.inf ∧ (statusWord s).getLsbD 6 = s.eq ∧ (statusWord s).getLsbD 7 = false := by
  simp only [statusWord, BitVec.getLsbD_append]
  simp [beq_eq_decide]

/-- Above its low byte `STATUS` is the fault code. -/
theorem statusWord_high (s : State) : (statusWord s).toNat / 2 ^ 8 = (errByte s.err).toNat := by
  have hshift : statusWord s >>> 8 = (errByte s.err).setWidth 32 := by
    ext i hi
    simp only [statusWord, BitVec.getElem_ushiftRight, BitVec.getLsbD_append, BitVec.getElem_setWidth]
    interval_cases i <;> simp
  have hnat := congrArg BitVec.toNat hshift
  rwa [BitVec.toNat_ushiftRight, Nat.shiftRight_eq_div_pow, BitVec.toNat_setWidth_of_le (by decide)] at hnat

/-- Settles O16: the bits are those of `statusWord_low` and `statusWord_high`; the rest is by the three values of `RUN`. -/
theorem statusLayout : Obligations.StatusLayout := by
  refine ⟨rfl, isResetState_reset.statusWord_eq_zero, fun s => ?_⟩
  obtain ⟨hbusy, hfault, hovr, h3, hz, hinf, heq, h7⟩ := statusWord_low s
  refine ⟨hbusy, hfault, hovr, h3, hz, hinf, heq, h7, statusWord_high s, ?exclusive, ?idle, ?write⟩
  case exclusive =>
    rw [hbusy, hfault]
    cases s.run <;> rfl
  case idle =>
    rw [hbusy, hfault]
    cases s.run <;> simp
  case write =>
    intro v rest hev
    rw [step_event hev, applyEvent, hostWrite_status]

end Sys2Proof.Machine

namespace Sys2Proof.Arith

open Sys2Proof.Machine (LegalModulus)

/-! ### The hidden constants (10 R22) -/

/-- `R2` is the Montgomery form of `R mod M` (42 R180). -/
theorem r2_eq_mont (M : Nat) : r2 M = mont M (radix % M) := by
  rw [r2, mont, Nat.mod_mul_mod, radix, ← pow_add]

/-- The equation that defines `NPRIME` (10 R22). -/
theorem mul_nprime {M : Nat} (h : LegalModulus M) : M * nprime M + 1 = radix * rinv M := by
  have hinv : radix * rinv M % M = 1 % M := radix_mul_rinv h.1
  rw [Nat.mod_eq_of_lt (show 1 < M by have := h.2; omega)] at hinv
  have hpos : 1 ≤ radix * rinv M := hinv ▸ Nat.mod_le _ _
  have hdvd : M ∣ radix * rinv M - 1 := (Nat.modEq_iff_dvd' hpos).mp (by rw [Nat.ModEq, hinv, Nat.mod_eq_of_lt]; have := h.2; omega)
  rw [nprime, Nat.mul_div_cancel' hdvd, Nat.sub_add_cancel hpos]

/-- `NPRIME` has 256 bits. -/
theorem nprime_lt {M : Nat} (h : LegalModulus M) : nprime M < radix := by
  have hM : 0 < M := by have := h.2; omega
  refine lt_of_mul_lt_mul_left (a := M) ?_ M.zero_le
  calc M * nprime M < radix * rinv M := by rw [← mul_nprime h]; exact Nat.lt_succ_self _
    _ ≤ radix * M := Nat.mul_le_mul_left _ (rinv_lt hM).le
    _ = M * radix := mul_comm _ _

/-- Settles O30: both constants from the inverse of the radix. -/
theorem hiddenConstants : Obligations.HiddenConstants := by
  intro M hM _
  exact ⟨r2_eq_mont M, nprime_lt hM, by rw [mul_nprime hM, Nat.mul_mod_right]⟩

end Sys2Proof.Arith

namespace Sys2Proof.Machine

/-! ### The invariant after reset (10 R35) -/

theorem reset_stateInv : StateInv State.reset where
  moduli b m h := by simp at h
  fields i r b h := by simp at h
  curves c k h := by simp at h
  points i q h := by simp at h
  code := by simp [CodeIffFault, State.reset]
  held h := by simp [State.reset] at h

/-- Settles O47: nothing is valid, no fault is recorded, and the reset input is released. -/
theorem resetMeetsInvariant : Obligations.ResetMeetsInvariant :=
  ⟨reset_stateInv, fun i q m k h => by simp at h⟩

end Sys2Proof.Machine
end

section
/-! PROOFS. The transitions of `RUN` (10 R33): what a step, the unit's move and a host write can do to it. -/

namespace Sys2Proof.Machine

/-- A step is the unit's own, with no event or its turn first, or another event of the total order (20 R71). -/
theorem step_cases {s t : State} (h : step s = .next t) :
    ((s.events = [] ∨ s.events.head? = some .unitTurn) ∧ unitMove { s with events := s.events.tail } = .next t) ∨
      ∃ e rest, e ≠ .unitTurn ∧ s.events = e :: rest ∧ applyEvent e { s with events := rest } = .next t := by
  cases hev : s.events with
  | nil =>
    have hs : { s with events := s.events.tail } = s := by rw [hev, List.tail_nil, ← hev]
    rw [step_alone hev, unitAlone] at h
    split at h
    · cases h
    · rw [hev] at hs
      exact .inl ⟨.inl rfl, hs ▸ h⟩
  | cons e rest =>
    rw [step_event hev] at h
    by_cases he : e = .unitTurn
    · subst he
      exact .inl ⟨.inr rfl, h⟩
    · exact .inr ⟨e, rest, he, rfl, h⟩

/-- The unit's move is *complete* or nothing (20 R70). -/
theorem unitMove_cases {s t : State} (h : unitMove s = .next t) :
    t = s ∨ (s.run = .busy ∧ s.inReset = false ∧ complete s = .next t) := by
  by_cases hquiet : s.inReset = true ∨ s.run ≠ .busy
  · rw [unitMove_quiet hquiet, Host.Outcome.next.injEq] at h
    exact .inl h.symm
  · obtain ⟨hheld, hbusy⟩ := not_or.mp hquiet
    rw [Bool.not_eq_true] at hheld
    rw [not_not] at hbusy
    rw [unitMove_busy hheld hbusy] at h
    exact .inr ⟨hbusy, hheld, h⟩

/-- *complete* is the decoded command, or the fault of a word that spells none (20 R70, 30 R108). -/
theorem complete_cases {s t : State} (h : complete s = .next t) :
    (∃ i, decode s.cmd = .ok i ∧ exec i s = .next t) ∨ ∃ why, decode s.cmd = .error why ∧ t = faultRecord .illegal s := by
  unfold complete at h
  cases hd : decode s.cmd with
  | ok i =>
    rw [hd] at h
    exact .inl ⟨i, rfl, h⟩
  | error why =>
    rw [hd] at h
    exact .inr ⟨why, rfl, takeFault_eq_next.mp h⟩

/-- A command completes or leaves the record of a fault of its own (20 R70, 60 R270). -/
theorem exec_completes_or_faults {i : Instr} {s t : State} (h : exec i s = .next t) :
    t.run = .idle ∨ (t.run = .fault ∧ ∃ e ∈ faultsOf i, t = faultRecord e s) := by
  cases exec_cases h with
  | fault e he ht => exact .inr ⟨by rw [ht]; rfl, e, he, ht⟩
  | modulus _ _ _ ht | curve _ _ _ _ _ _ _ _ ht | field _ _ _ _ _ ht | buffer _ _ _ _ ht | compareF _ _ _ _ _ _ _ ht
  | compareP _ _ _ _ _ _ _ ht | test _ _ _ _ ht | point _ _ _ _ _ _ ht | sum _ _ _ _ _ _ _ _ _ _ ht | free _ _ _ _ _ _ _ _ ht =>
    exact .inl (by rw [ht]; rfl)

/-- A host write changes `RUN` only as an accepted command or as a reset (20 R66 to R69). -/
theorem hostWrite_cases (r : WinReg) (v : Word32) (s : State) :
    (hostWrite r v s).run = s.run ∨
    (s.run = .idle ∧ s.inReset = false ∧ r = .cmd ∧ hostWrite r v s = { s with cmd := v, run := .busy }) ∨
    (s.inReset = false ∧ r = .ctrl ∧ v.getLsbD 0 = true ∧ hostWrite r v s = unitReset s) := by
  cases hheld : s.inReset with
  | true => exact .inl (by rw [hostWrite_held hheld])
  | false =>
    cases r with
    | id | status | reserved => exact .inl (by simp [hostWrite])
    | dbuf k =>
      refine .inl ?_
      simp only [hostWrite, writeDbuf]
      split_ifs <;> rfl
    | cmd =>
      by_cases hidle : s.run = .idle
      · exact .inr (.inl ⟨hidle, rfl, rfl, by simp [hostWrite, writeCmd, hheld, hidle]⟩)
      · exact .inl (by simp [hostWrite, writeCmd, hheld, hidle])
    | ctrl =>
      rw [hostWrite_ctrl hheld]
      by_cases hbit : v.getLsbD 0 = true
      · exact .inr (.inr ⟨rfl, rfl, hbit, if_pos hbit⟩)
      · exact .inl (by rw [if_neg hbit])

/-- Settles O54: the unit's own step by `complete_cases`, the other events one by one. -/
theorem runTransitions : Obligations.RunTransitions := by
  intro s t h
  obtain ⟨hturn, hmove⟩ | ⟨e, rest, hne, hev, happly⟩ := step_cases h
  · obtain rfl | ⟨hbusy, hheld, hcomplete⟩ := unitMove_cases hmove
    · exact .inl rfl
    obtain ⟨i, hdec, hexec⟩ | ⟨why, hdec, ht⟩ := complete_cases hcomplete
    · obtain hidle | ⟨hfault, e, he, ht⟩ := exec_completes_or_faults hexec
      · exact .inr (.inr (.inl ⟨hbusy, hheld, hturn, hidle, i, hdec, hexec⟩))
      · exact .inr (.inr (.inr (.inl ⟨hbusy, hheld, hturn, hfault, e, ht, .inr ⟨i, he, hdec, hexec⟩⟩)))
    · exact .inr (.inr (.inr (.inl ⟨hbusy, hheld, hturn, by rw [ht]; rfl, .illegal, ht, .inl ⟨rfl, why, hdec⟩⟩)))
  have hhead : s.events.head? = some e := by rw [hev, List.head?_cons]
  cases e with
  | unitTurn => exact absurd rfl hne
  | read r =>
    cases happly
    exact .inl rfl
  | assertReset =>
    cases happly
    exact .inr (.inr (.inr (.inr ⟨rfl, isResetState_assertReset _, .inl hhead⟩)))
  | releaseReset =>
    cases happly
    obtain hheld | hheld := Bool.eq_false_or_eq_true s.inReset
    · have hreset := isResetState_releaseReset (s := { s with events := rest }) hheld
      exact .inr (.inr (.inr (.inr ⟨hreset.1, hreset, .inr (.inl ⟨hheld, hhead⟩)⟩)))
    · exact .inl (by rw [releaseReset_released (s := { s with events := rest }) hheld])
  | write r v =>
    cases happly
    obtain hrun | ⟨hidle, hheld, rfl, ht⟩ | ⟨hheld, rfl, hbit, ht⟩ := hostWrite_cases r v { s with events := rest }
    · exact .inl hrun
    · exact .inr (.inl ⟨hidle, hheld, v, rest, hev, ht⟩)
    · rw [ht]
      exact .inr (.inr (.inr (.inr ⟨rfl, isResetState_unitReset _, .inr (.inr ⟨hheld, v, hbit, hhead⟩)⟩)))

end Sys2Proof.Machine
end

section
/-! PROOFS. What a completed command changes: its flags and its frame (10 R21 to R29, 20 R70). -/

namespace Sys2Proof.Machine

/-- The ways a command completes: the effects of `exec_cases` but the fault, without the conditions on what is written. -/
inductive Completion (s : State) : Instr → State → Prop where
  | ldmod (b : Bank) : Completion s (.ldmod b) (retired (loadModulus b s.dbuf s))
  | ldcrv (a b : FIdx) (c : CurveIdx) (k : Curve) : Completion s (.ldcrv a b c) (retired (loadCurve c k s))
  | field {i : Instr} {d : FIdx} (hi : writesField i = some d) (tg : Tag) (v : Word) : Completion s i (retired (writeF d tg v s))
  | stf {a : FIdx} {r : FReg} (hr : s.fReg a = some r) : Completion s (.stf a) (retired (setDbuf r.val s))
  | cmpf {a b : FIdx} {ra rb : FReg} (ha : s.fReg a = some ra) (hb : s.fReg b = some rb) :
      Completion s (.cmpf a b) (retired (setEq (ra.val == rb.val) s))
  | cmpp {a b : PIdx} {qa qb : PReg} (ha : s.pReg a = some qa) (hb : s.pReg b = some qb) :
      Completion s (.cmpp a b) (retired (setEq (decide (qa.pt = qb.pt)) s))
  | tstp {a : PIdx} {q : PReg} (hq : s.pReg a = some q) : Completion s (.tstp a) (retired (setInf (infFlag q.pt) s))
  | point {i : Instr} {d : PIdx} (hi : writesPoint i = some d) (c : CurveIdx) (q : Point Word) :
      Completion s i (retired (writeP d c q s))
  | freePoint {i : Instr} {d : PIdx} (hi : GroupOp i d) (c : CurveIdx) (q : Point Word) :
      Completion s i (retired (drawn (writeP d c q s)))

/-- A group command writes its point register. -/
theorem GroupOp.writesPoint {i : Instr} {d : PIdx} (h : GroupOp i d) : writesPoint i = some d := by
  obtain ⟨a, b, rfl⟩ | ⟨a, rfl⟩ | ⟨a, b, rfl⟩ := h <;> rfl

/-- A command that ends in IDLE completes in one of these ways. -/
theorem completion_of_exec {i : Instr} {s t : State} (h : exec i s = .next t) (hrun : t.run = .idle) : Completion s i t := by
  cases exec_cases h with
  | fault e _ ht => rw [ht] at hrun; cases hrun
  | modulus b hi _ ht => rw [hi, ht]; exact .ldmod b
  | curve a b c x y hi _ _ ht => rw [hi, ht]; exact .ldcrv a b c _
  | field d tg v hi _ ht => rw [ht]; exact .field hi tg v
  | buffer a r hi hr ht => rw [hi, ht]; exact .stf hr
  | compareF a b ra rb hi ha hb ht => rw [hi, ht]; exact .cmpf ha hb
  | compareP a b qa qb hi ha hb ht => rw [hi, ht]; exact .cmpp ha hb
  | test a q hi hq ht => rw [hi, ht]; exact .tstp hq
  | point d c q hi _ _ ht => rw [ht]; exact .point hi c q
  | sum d c m k Q hi _ _ _ _ ht => rw [ht]; exact .point hi.writesPoint c _
  | free d c m k hi _ _ _ ht => rw [ht]; exact .freePoint hi c _

/-- No command has both a field register and a point register as its destination. -/
theorem destinations_exclusive {i : Instr} {d : FIdx} {e : PIdx} (hd : writesField i = some d) (he : writesPoint i = some e) :
    False := by
  cases i <;> simp_all [writesField, writesPoint]

/-- `Z` as a statement about the number written. -/
theorem zFlag_eq_decide (v : Word) : zFlag v = decide (v.toNat = 0) := by
  simp [zFlag, beq_eq_decide, ← BitVec.toNat_inj]

/-- `INF` as a statement about the mathematical point. -/
theorem infFlag_eq_decide (q : PReg) : infFlag q.pt = decide (ptOf q = .infinity) := by
  obtain ⟨c, _ | ⟨x, y⟩⟩ := q <;> rfl

/-- Points are equal exactly when the mathematical points are. -/
theorem ptOf_inj {qa qb : PReg} : ptOf qa = ptOf qb ↔ qa.pt = qb.pt := by
  obtain ⟨ca, _ | ⟨x, y⟩⟩ := qa <;> obtain ⟨cb, _ | ⟨x', y'⟩⟩ := qb <;> simp [ptOf, Point.map, BitVec.toNat_inj]

section
variable {i : Instr} {s t : State}

/-- `Z` follows the value written to a field register. -/
theorem Completion.z_written (h : Completion s i t) {d : FIdx} (hd : writesField i = some d) :
    ∃ r, t.fReg d = some r ∧ t.z = decide (r.val.toNat = 0) := by
  cases h with
  | field hi tg v =>
    cases hi.symm.trans hd
    exact ⟨⟨tg, v⟩, by simp [writeF_fReg], zFlag_eq_decide v⟩
  | point hi => exact (destinations_exclusive hd hi).elim
  | freePoint hi => exact (destinations_exclusive hd hi.writesPoint).elim
  | ldmod | ldcrv | stf | cmpf | cmpp | tstp => cases hd

theorem Completion.z_kept (h : Completion s i t) (hd : writesField i = none) : t.z = s.z := by
  cases h with
  | field hi => cases hi.symm.trans hd
  | ldmod | ldcrv | stf | cmpf | cmpp | tstp | point | freePoint => rfl

/-- `INF` follows the point written to a point register. -/
theorem Completion.inf_written (h : Completion s i t) {d : PIdx} (hd : writesPoint i = some d) :
    ∃ q, t.pReg d = some q ∧ t.inf = decide (ptOf q = .infinity) := by
  cases h with
  | field hi => exact (destinations_exclusive hi hd).elim
  | point hi c q =>
    cases hi.symm.trans hd
    exact ⟨⟨c, q⟩, by simp [writeP_pReg], infFlag_eq_decide ⟨c, q⟩⟩
  | freePoint hi c q =>
    cases hi.writesPoint.symm.trans hd
    exact ⟨⟨c, q⟩, by simp [writeP_pReg], infFlag_eq_decide ⟨c, q⟩⟩
  | ldmod | ldcrv | stf | cmpf | cmpp | tstp => cases hd

/-- `INF` follows the point that `TSTP` tests. -/
theorem Completion.inf_tested {a : PIdx} (h : Completion s (.tstp a) t) :
    ∃ q, s.pReg a = some q ∧ t.inf = decide (ptOf q = .infinity) := by
  cases h with
  | tstp hq => exact ⟨_, hq, infFlag_eq_decide _⟩
  | field hi => cases hi
  | point hi => cases hi
  | freePoint hi => cases hi.writesPoint

theorem Completion.inf_kept (h : Completion s i t) (hd : writesPoint i = none) (htest : ∀ a, i ≠ .tstp a) : t.inf = s.inf := by
  cases h with
  | point hi => cases hi.symm.trans hd
  | freePoint hi => cases hi.writesPoint.symm.trans hd
  | @tstp a => exact absurd rfl (htest a)
  | ldmod | ldcrv | field | stf | cmpf | cmpp => rfl

/-- `EQ` follows the two values that `CMPF` compares. -/
theorem Completion.eq_cmpf {a b : FIdx} (h : Completion s (.cmpf a b) t) :
    ∃ ra rb, s.fReg a = some ra ∧ s.fReg b = some rb ∧ t.eq = decide (ra.val.toNat = rb.val.toNat) := by
  cases h with
  | cmpf ha hb => exact ⟨_, _, ha, hb, by simp [beq_eq_decide, BitVec.toNat_inj]⟩
  | field hi => cases hi
  | point hi => cases hi
  | freePoint hi => cases hi.writesPoint

/-- `EQ` follows the two points that `CMPP` compares. -/
theorem Completion.eq_cmpp {a b : PIdx} (h : Completion s (.cmpp a b) t) :
    ∃ qa qb, s.pReg a = some qa ∧ s.pReg b = some qb ∧ t.eq = decide (ptOf qa = ptOf qb) := by
  cases h with
  | cmpp ha hb => exact ⟨_, _, ha, hb, by simp [ptOf_inj]⟩
  | field hi => cases hi
  | point hi => cases hi
  | freePoint hi => cases hi.writesPoint

theorem Completion.eq_kept (h : Completion s i t) (hf : ∀ a b, i ≠ .cmpf a b) (hp : ∀ a b, i ≠ .cmpp a b) : t.eq = s.eq := by
  cases h with
  | @cmpf a b => exact absurd rfl (hf a b)
  | @cmpp a b => exact absurd rfl (hp a b)
  | ldmod | ldcrv | field | stf | tstp | point | freePoint => rfl

/-- No command touches these fields of the state. -/
theorem Completion.untouched (h : Completion s i t) :
    t.cmd = s.cmd ∧ t.err = s.err ∧ t.ovr = s.ovr ∧ t.inReset = s.inReset ∧ t.events = s.events ∧ t.replies = s.replies := by
  cases h <;> exact ⟨rfl, rfl, rfl, rfl, rfl, rfl⟩

theorem Completion.dbuf_eq (h : Completion s i t) : t.dbuf = s.dbuf ∨ ∃ a, i = .stf a := by
  cases h with
  | @stf a => exact .inr ⟨a, rfl⟩
  | ldmod | ldcrv | field | cmpf | cmpp | tstp | point | freePoint => exact .inl rfl

theorem Completion.draws_eq (h : Completion s i t) : t.draws = s.draws ∨ ∃ d, GroupOp i d := by
  cases h with
  | freePoint hi => exact .inr ⟨_, hi⟩
  | ldmod | ldcrv | stf | field | cmpf | cmpp | tstp | point => exact .inl rfl

/-- Moduli and field registers: only `LDMOD` changes more than the destination. -/
theorem Completion.fields_eq (h : Completion s i t) (hi : ∀ b, i ≠ .ldmod b) :
    t.modFP = s.modFP ∧ t.modFN = s.modFN ∧ ∀ j, writesField i ≠ some j → t.fReg j = s.fReg j := by
  cases h with
  | ldmod b => exact absurd rfl (hi b)
  | @field _ d hd tg v =>
    refine ⟨rfl, rfl, fun j hj => ?_⟩
    have hne : j ≠ d := fun e => hj (e ▸ hd)
    rw [retired_fReg, writeF_fReg, if_neg hne]
  | ldcrv | stf | cmpf | cmpp | tstp | point | freePoint => exact ⟨rfl, rfl, fun _ _ => rfl⟩

/-- A write of a point register and a read of another one. -/
theorem writeP_pReg_frame {d j : PIdx} (hd : writesPoint i = some d) (hj : writesPoint i ≠ some j) (c : CurveIdx) (q : Point Word) :
    (writeP d c q s).pReg j = s.pReg j := by
  have hne : j ≠ d := fun e => hj (e ▸ hd)
  rw [writeP_pReg, if_neg hne]

/-- Curves and point registers: only `LDMOD` and `LDCRV` change more than the destination. -/
theorem Completion.points_eq (h : Completion s i t) (hi : ∀ b, i ≠ .ldmod b) (hi' : ∀ a b c, i ≠ .ldcrv a b c) :
    t.crv0 = s.crv0 ∧ t.crv1 = s.crv1 ∧ ∀ j, writesPoint i ≠ some j → t.pReg j = s.pReg j := by
  cases h with
  | ldmod b => exact absurd rfl (hi b)
  | ldcrv a b c => exact absurd rfl (hi' a b c)
  | point hd c q => exact ⟨rfl, rfl, fun j hj => writeP_pReg_frame hd hj c q⟩
  | freePoint hd c q => exact ⟨rfl, rfl, fun j hj => writeP_pReg_frame hd.writesPoint hj c q⟩
  | field | stf | cmpf | cmpp | tstp => exact ⟨rfl, rfl, fun _ _ => rfl⟩

end

/-- Settles O55: each flag by its own lemma on `Completion`. -/
theorem flagsByCommand : Obligations.FlagsByCommand := by
  intro i s t hexec hrun
  have h := completion_of_exec hexec hrun
  obtain ⟨-, -, hovr, -⟩ := h.untouched
  refine ⟨fun d => h.z_written, h.z_kept, fun d => h.inf_written, ?tstp, h.inf_kept, ?cmpf, ?cmpp, h.eq_kept, hovr⟩
  case tstp =>
    rintro a rfl
    exact h.inf_tested
  case cmpf =>
    rintro a b rfl
    exact h.eq_cmpf
  case cmpp =>
    rintro a b rfl
    exact h.eq_cmpp

/-- Settles O56: each part of the state by its own lemma on `Completion`. -/
theorem commandFrame : Obligations.CommandFrame := by
  intro i s t hexec hrun
  have h := completion_of_exec hexec hrun
  obtain ⟨hcmd, herr, -, hheld, hevents, hreplies⟩ := h.untouched
  refine ⟨hcmd, herr, hheld, hevents, hreplies, ?dbuf, ?banks, ?draws⟩
  case dbuf =>
    intro hstf
    exact h.dbuf_eq.resolve_right fun ⟨a, hi⟩ => hstf a hi
  case banks =>
    intro hldmod
    obtain ⟨hfp, hfn, hf⟩ := h.fields_eq hldmod
    exact ⟨hfp, hfn, hf, fun hldcrv => h.points_eq hldmod hldcrv⟩
  case draws =>
    intro hpadd hpdbl hsmul
    refine h.draws_eq.resolve_right ?_
    rintro ⟨d, ⟨a, b, hi⟩ | ⟨a, hi⟩ | ⟨a, b, hi⟩⟩
    · exact hpadd d a b hi
    · exact hpdbl d a hi
    · exact hsmul d a b hi

end Sys2Proof.Machine
end

section
/-! PROOFS. What cannot complete where nothing but `RAW` registers is valid (70 R305). -/

namespace Sys2Proof.Machine

/-- The answer never is a completed command. -/
def NeverIdle (o : Out) : Prop := ∀ t, o = .next t → t.run ≠ .idle

theorem neverIdle_takeFault (e : ErrCode) (s : State) : NeverIdle (takeFault e s) := by
  intro t h
  rw [takeFault_eq_next.mp h, faulted_run]
  nofun

/-- A command that starts by reading an invalid field register does not complete. -/
theorem neverIdle_srcF_none {a : FIdx} {s : State} (h : s.fReg a = none) (k : FReg → Out) : NeverIdle (srcF a s k) := by
  rw [srcF_none h]
  exact neverIdle_takeFault _ _

theorem neverIdle_srcF {a : FIdx} {s : State} {k : FReg → Out} (hk : ∀ r, s.fReg a = some r → NeverIdle (k r)) :
    NeverIdle (srcF a s k) := by
  cases hr : s.fReg a with
  | none => exact neverIdle_srcF_none hr k
  | some r => rw [srcF_some hr]; exact hk r hr

theorem neverIdle_require {c : Bool} {e : ErrCode} {s : State} {k : Out} (hk : c = true → NeverIdle k) : NeverIdle (require c e s k) := by
  cases c with
  | false => exact neverIdle_takeFault _ _
  | true => exact hk rfl

/-- The premise of 70 R305: no bank and no point is valid, and every valid field register is `RAW`. -/
structure OnlyRaw (s : State) : Prop where
  modulus : ∀ b, s.modulus b = none
  curve : ∀ c, s.curve c = none
  point : ∀ j, s.pReg j = none
  field : ∀ j r, s.fReg j = some r → r.tag = .raw

section
variable {s : State} (hs : OnlyRaw s)
include hs

theorem OnlyRaw.srcP (a : PIdx) (k : PReg → Out) : NeverIdle (srcP a s k) := by
  rw [srcP_none (hs.point a)]
  exact neverIdle_takeFault _ _

theorem OnlyRaw.needModulus (b : Bank) (k : Nat → Out) : NeverIdle (needModulus b s k) := by
  rw [Machine.needModulus, hs.modulus b]
  exact neverIdle_takeFault _ _

theorem OnlyRaw.needCurve (c : CurveIdx) (k : Curve → Out) : NeverIdle (needCurve c s k) := by
  rw [Machine.needCurve, hs.curve c]
  exact neverIdle_takeFault _ _

theorem OnlyRaw.tagModulus (tg : Tag) (k : Nat → Out) : NeverIdle (tagModulus tg s k) := by
  intro t h
  obtain ⟨b, m, -, hm, -⟩ := tagModulus_next h
  rw [hs.modulus b] at hm
  cases hm

theorem OnlyRaw.fieldPair (a b : FIdx) (k : FReg → FReg → Nat → Out) : NeverIdle (fieldPair a b s k) :=
  neverIdle_srcF fun _ _ => neverIdle_srcF fun _ _ => neverIdle_require fun _ => hs.tagModulus _ _

theorem OnlyRaw.fieldOne (a : FIdx) (k : FReg → Nat → Out) : NeverIdle (fieldOne a s k) :=
  neverIdle_srcF fun _ _ => neverIdle_require fun _ => hs.tagModulus _ _

theorem OnlyRaw.execLdcrv (a b : FIdx) (c : CurveIdx) : NeverIdle (execLdcrv a b c s) :=
  neverIdle_srcF fun ra ha => neverIdle_srcF fun _ _ => neverIdle_require fun htag => by
    simp [hs.field a ra ha] at htag

theorem OnlyRaw.execLdp (d : PIdx) (a b : FIdx) (c : CurveIdx) (px py : Bool) : NeverIdle (execLdp d a b c px py s) := by
  refine neverIdle_require fun _ => ?_
  split
  · exact hs.needCurve _ _
  · exact neverIdle_srcF fun _ _ => neverIdle_srcF fun _ _ => hs.needCurve _ _

/-- The five commands of 70 R305 are the only ones that can complete. -/
theorem OnlyRaw.exec_completes {i : Instr} {t : State} (h : exec i s = .next t) (hrun : t.run = .idle) :
    (∃ b, i = .ldmod b) ∨ (∃ d, i = .ldi d) ∨ (∃ a, i = .stf a) ∨ (∃ d a, i = .movf d a) ∨ ∃ a b, i = .cmpf a b := by
  by_contra hne
  simp only [not_or, not_exists] at hne
  obtain ⟨hldmod, hldi, hstf, hmovf, hcmpf⟩ := hne
  suffices NeverIdle (exec i s) from this t h hrun
  cases i with
  | ldmod b => exact absurd rfl (hldmod b)
  | ldi d => exact absurd rfl (hldi d)
  | stf a => exact absurd rfl (hstf a)
  | movf d a => exact absurd rfl (hmovf d a)
  | cmpf a b => exact absurd rfl (hcmpf a b)
  | ldcrv a b c => exact hs.execLdcrv a b c
  | ldf d b =>
    rw [exec, execLdf]
    exact hs.needModulus _ _
  | red d a b => exact neverIdle_srcF fun _ _ => hs.needModulus _ _
  | add | sub | mul | div | mmul => exact hs.fieldPair _ _ _
  | inv | tomont | frommont => exact hs.fieldOne _ _
  | pow =>
    exact neverIdle_srcF fun _ _ => neverIdle_srcF fun _ _ => neverIdle_require fun _ => neverIdle_require fun _ => hs.tagModulus _ _
  | ldp d a b c px py => exact hs.execLdp d a b c px py
  | getx | gety | movp | tstp | cmpp | padd | pdbl | smul => exact hs.srcP _ _

end

/-- Settles O59: `OnlyRaw.exec_completes`; with no field register valid `STF`, `MOVF` and `CMPF` have no source. -/
theorem bootNeedsLoads : Obligations.BootNeedsLoads := by
  intro i s t hmod hcrv hpt hraw h hrun
  have hfive := OnlyRaw.exec_completes ⟨hmod, hcrv, hpt, hraw⟩ h hrun
  refine ⟨hfive, fun hnone => ?_⟩
  obtain hldmod | hldi | ⟨a, rfl⟩ | ⟨d, a, rfl⟩ | ⟨a, b, rfl⟩ := hfive
  · exact .inl hldmod
  · exact .inr hldi
  all_goals exact absurd hrun (neverIdle_srcF_none (hnone a) _ t h)

end Sys2Proof.Machine
end

section
/-! PROOFS. The host window (20 R60 to R67, R69): its map, the words of `DBUF`, what a read returns, and which writes are taken, dropped and
ignored; `OVR` stays until reset, so a clean run lost nothing (70 R310, R312). -/

namespace Sys2Proof.Machine

/-! ### The map of the window (20 R61 to R63) -/

theorem winOffset_aligned (r : WinReg) : winOffset r % 4 = 0 ∧ winOffset r < 0x40 := by
  cases r with
  | id | ctrl | status | cmd => decide
  | reserved k | dbuf k => simp only [winOffset]; omega

theorem winAt_winOffset (r : WinReg) : winAt (winOffset r) = some r := by
  cases r with
  | id | ctrl | status | cmd => rfl
  | reserved k => fin_cases k <;> rfl
  | dbuf k => fin_cases k <;> rfl

/-- The register found at an offset has that offset. -/
theorem winOffset_of_winAt {off : Nat} {r : WinReg} (h : winAt off = some r) : winOffset r = off := by
  unfold winAt at h
  split_ifs at h
  all_goals
    cases h
    simp only [winOffset, Fin.val_ofNat]
    omega

theorem winAt_eq_some_iff {off : Nat} {r : WinReg} : winAt off = some r ↔ winOffset r = off :=
  ⟨winOffset_of_winAt, fun h => h ▸ winAt_winOffset r⟩

/-- No aligned offset of the window is empty. -/
theorem exists_winAt {off : Nat} (haligned : off % 4 = 0) (hlt : off < 0x40) : ∃ r, winAt off = some r := by
  rw [winAt, if_neg (not_not.mpr haligned), if_pos hlt]
  split_ifs <;> exact ⟨_, rfl⟩

/-- The host's moves are the four-byte accesses at `BASE` plus the offset of a register. -/
theorem winOfAccess_eq_some_iff {addr size : Nat} {r : WinReg} :
    winOfAccess addr size = some r ↔ size = 4 ∧ addr = Config.base + winOffset r := by
  rw [winOfAccess, Option.ite_none_right_eq_some, winAt_eq_some_iff]
  omega

/-- Settles O17: offsets and registers determine each other, by `winAt_eq_some_iff`. -/
theorem windowMap : Obligations.WindowMap :=
  ⟨fun r => ⟨winAt_winOffset r, winOffset_aligned r⟩, fun _ _ => winOffset_of_winAt, fun _ => exists_winAt,
    winAt_winOffset .id, winAt_winOffset .ctrl, winAt_winOffset .status, winAt_winOffset .cmd,
    fun k => winAt_winOffset (.reserved k), fun k => winAt_winOffset (.dbuf k), Nat.mul_mod_right _ _, fun _ _ _ => winOfAccess_eq_some_iff⟩

/-! ### The words of `DBUF` (20 R64) -/

theorem toNat_dbufWord (k : Fin 8) (v : Word) : (dbufWord k v).toNat = v.toNat / 2 ^ (32 * k.val) % 2 ^ 32 := by
  rw [dbufWord, BitVec.extractLsb'_toNat, Nat.shiftRight_eq_div_pow]

/-- Settles O12: the words are the eight digits of the value in base `2 ^ 32`, and `finFunctionFinEquiv` puts digits together again. -/
theorem dbufIsSumOfWords : Obligations.DbufIsSumOfWords := by
  intro v
  have hdigits := congrArg Fin.val (finFunctionFinEquiv.apply_symm_apply (⟨v.toNat, v.isLt⟩ : Fin ((2 ^ 32) ^ 8)))
  rw [finFunctionFinEquiv_apply] at hdigits
  simp only [toNat_dbufWord, pow_mul]
  exact hdigits.symm

/-! ### Reads (20 R65) -/

/-- A read of a unit not held in reset returns what `windowRead` says of its state, which it leaves as it was. -/
theorem hostRead_released {s : State} (hheld : s.inReset = false) (r : WinReg) :
    hostRead r s =
      { s with replies := windowRead r s :: s.replies, draws := if readDraws r s then s.draws + 1 else s.draws } := by
  simp [hostRead, windowView, hheld]

theorem windowRead_dbuf {s : State} (hrun : s.run ≠ .busy) (k : Fin 8) : windowRead (.dbuf k) s = dbufWord k s.dbuf := if_neg hrun

/-- A step at a read: the newest reply is the window's, and no state of the unit changes. -/
theorem step_read {s : State} {r : WinReg} {rest : List Event} (hheld : s.inReset = false) (hev : s.events = .read r :: rest) :
    step s = .next { s with
      events := rest, replies := windowRead r s :: s.replies, draws := if readDraws r s then s.draws + 1 else s.draws } := by
  rw [step_event hev, applyEvent, hostRead_released (s := { s with events := rest }) hheld]
  cases r <;> rfl

/-- Settles O14: `step_read`, and `windowRead` register by register. -/
theorem readsReturnTheWindow : Obligations.ReadsReturnTheWindow := by
  intro s r rest hheld hev
  refine ⟨_, _, step_read hheld hev, ?id, ?ctrl, ?status, ?cmd, ?reserved, ?dbuf⟩
  case id | ctrl | status | cmd =>
    rintro rfl
    rfl
  case reserved =>
    rintro k rfl
    rfl
  case dbuf =>
    rintro k rfl hrun
    rw [windowRead_dbuf hrun, toNat_dbufWord]

/-! ### Writes (20 R66, R67, R69) -/

/-- A write is the pending event: the step is `hostWrite` without the event. -/
theorem step_write {s : State} {r : WinReg} {v : Word32} {rest : List Event} (hev : s.events = .write r v :: rest) :
    step s = .next (hostWrite r v { s with events := rest }) := step_event hev

section
variable {s : State}

theorem hostWrite_cmd_idle (hheld : s.inReset = false) (hrun : s.run = .idle) (v : Word32) :
    hostWrite .cmd v s = { s with cmd := v, run := .busy } := by
  simp [hostWrite, writeCmd, hheld, hrun]

theorem hostWrite_dbuf_idle (hheld : s.inReset = false) (hrun : s.run = .idle) (k : Fin 8) (v : Word32) :
    hostWrite (.dbuf k) v s = { s with dbuf := withDbufWord k v s.dbuf } := by
  simp [hostWrite, writeDbuf, hheld, hrun]

/-- Outside IDLE a write of `CMD` or of a word of `DBUF` is dropped (20 R66, R67). -/
theorem hostWrite_dropped {r : WinReg} (hheld : s.inReset = false) (hrun : s.run ≠ .idle) (hr : r = .cmd ∨ ∃ k, r = .dbuf k)
    (v : Word32) : hostWrite r v s = { s with ovr := true } := by
  obtain rfl | ⟨k, rfl⟩ := hr
  · simp [hostWrite, writeCmd, hheld, hrun]
  · simp [hostWrite, writeDbuf, hheld, hrun]

/-- A write of a read-only or reserved word is ignored in every state (20 R69). -/
theorem hostWrite_ignored {r : WinReg} (hr : r = .id ∨ r = .status ∨ ∃ k, r = .reserved k) (v : Word32) (s : State) :
    hostWrite r v s = s := by
  obtain rfl | rfl | ⟨k, rfl⟩ := hr
  · simp [hostWrite]
  · exact hostWrite_status v s
  · simp [hostWrite]

end

/-- Settles O10: the two outcomes of `writeCmd`. -/
theorem cmdWriteAcceptedOrDropped : Obligations.CmdWriteAcceptedOrDropped := by
  intro s v rest hheld hev
  rw [step_write hev]
  constructor
  · intro hrun
    rw [hostWrite_cmd_idle (s := { s with events := rest }) hheld hrun]
  · intro hrun
    rw [hostWrite_dropped (s := { s with events := rest }) hheld hrun (.inl rfl)]

/-- Settles O13: `hostWrite_ignored`, and `softReset` for `CTRL`. -/
theorem otherWrites : Obligations.OtherWrites := by
  refine ⟨fun s r v rest hev hr => ?ignored, fun s v rest hheld hev => ?ctrl⟩
  case ignored => rw [step_write hev, hostWrite_ignored hr]
  case ctrl =>
    obtain ⟨-, -, hwrite⟩ := softReset
    obtain ⟨hset, hclear⟩ := hwrite s v rest hheld hev
    refine ⟨fun hbit => ?_, hclear⟩
    obtain ⟨t, hstep, hreset, -, -, hevents, -⟩ := hset hbit
    exact ⟨t, hstep, hreset, hevents⟩

/-! ### `OVR` stays until reset (20 R67) -/

theorem exec_ovr {i : Instr} {s t : State} (h : exec i s = .next t) : t.ovr = s.ovr := by
  obtain hidle | ⟨-, e, -, ht⟩ := exec_completes_or_faults h
  · obtain ⟨-, -, hovr, -⟩ := (completion_of_exec h hidle).untouched
    exact hovr
  · rw [ht, faultRecord]

theorem unitMove_ovr {s t : State} (h : unitMove s = .next t) : t.ovr = s.ovr := by
  obtain ht | ⟨-, -, hcomplete⟩ := unitMove_cases h
  · rw [ht]
  obtain ⟨i, -, hexec⟩ | ⟨why, -, ht⟩ := complete_cases hcomplete
  · exact exec_ovr hexec
  · rw [ht, faultRecord]

/-- A host write never clears `OVR`, but as a reset. -/
theorem hostWrite_ovr {s : State} (hovr : s.ovr = true) (r : WinReg) (v : Word32) :
    (hostWrite r v s).ovr = true ∨ IsResetState (hostWrite r v s) := by
  cases hheld : s.inReset with
  | true => exact .inl (by rwa [hostWrite_held hheld])
  | false =>
    cases r with
    | id | status | reserved => exact .inl (by rwa [hostWrite_ignored (by simp)])
    | ctrl =>
      rw [hostWrite_ctrl hheld]
      split_ifs
      · exact .inr (isResetState_unitReset s)
      · exact .inl hovr
    | cmd | dbuf =>
      by_cases hrun : s.run = .idle
      · exact .inl (by simpa [hostWrite_cmd_idle hheld hrun, hostWrite_dbuf_idle hheld hrun])
      · exact .inl (by rw [hostWrite_dropped hheld hrun (by simp)])

theorem step_ovr {s t : State} (hovr : s.ovr = true) (h : step s = .next t) : t.ovr = true ∨ IsResetState t := by
  obtain ⟨-, hmove⟩ | ⟨e, rest, hne, -, happly⟩ := step_cases h
  · exact .inl ((unitMove_ovr hmove).trans hovr)
  cases e with
  | unitTurn => exact absurd rfl hne
  | read r =>
    cases happly
    exact .inl hovr
  | write r v =>
    cases happly
    exact hostWrite_ovr (s := { s with events := rest }) hovr r v
  | assertReset =>
    cases happly
    exact .inr (isResetState_assertReset _)
  | releaseReset =>
    cases happly
    obtain hheld | hheld := Bool.eq_false_or_eq_true s.inReset
    · exact .inr (isResetState_releaseReset (s := { s with events := rest }) hheld)
    · exact .inl (by rwa [releaseReset_released (s := { s with events := rest }) hheld])

/-- Settles O11: `hostWrite_dropped`, the bits of `withDbufWord`, and `step_ovr`. -/
theorem droppedAndTakenWrites : Obligations.DroppedAndTakenWrites := by
  refine ⟨?dropped, ?taken, fun s t => step_ovr⟩
  case dropped =>
    intro s r v rest hheld hev hrun hr
    rw [step_write hev, hostWrite_dropped (s := { s with events := rest }) hheld hrun hr]
  case taken =>
    intro s k v rest hheld hev hrun
    refine ⟨withDbufWord k v s.dbuf, ?_, fun n hn => getLsbD_withDbufWord k v s.dbuf n hn⟩
    rw [step_write hev, hostWrite_dbuf_idle (s := { s with events := rest }) hheld hrun]

/-! ### A clean run (70 R310, R312) -/

/-- From FAULT a step goes to FAULT or resets the unit. -/
theorem step_of_fault {s t : State} (hrun : s.run = .fault) (h : step s = .next t) : t.run = .fault ∨ IsResetState t := by
  obtain hsame | ⟨hidle, -⟩ | ⟨hbusy, -⟩ | ⟨hbusy, -⟩ | ⟨-, hreset, -⟩ := runTransitions s t h
  · exact .inl (hsame.trans hrun)
  · exact nomatch hrun.symm.trans hidle
  · exact nomatch hrun.symm.trans hbusy
  · exact nomatch hrun.symm.trans hbusy
  · exact .inr hreset

/-- Settles O57: a dropped write sets `OVR`; a fault and `OVR` end only by a reset. -/
theorem cleanRunLostNothing : Obligations.CleanRunLostNothing := by
  refine ⟨fun s t r v rest hheld hev hr h hclean => ?taken, fun s t h hclean => ?kept⟩
  case taken =>
    by_contra hrun
    rw [step_write hev, hostWrite_dropped (s := { s with events := rest }) hheld hrun hr] at h
    cases h
    obtain ⟨-, hovr⟩ := hclean
    cases hovr
  case kept =>
    obtain ⟨hrun, hovr⟩ := hclean
    by_cases hfault : s.run = .fault
    · exact .inr ((step_of_fault hfault h).resolve_left hrun)
    cases hs : s.ovr with
    | false => exact .inl ⟨hfault, hs⟩
    | true => exact .inr ((step_ovr hs h).resolve_left (by rw [hovr]; nofun))

end Sys2Proof.Machine
end

section
/-! PROOFS. Encodings (30 R91 to R96, R104, R108): the layout of a word, the rows of the opcode table and their `match` and `mask` columns,
the two round trips of decoder and encoder, and what an illegal word does. -/

namespace Sys2Proof

/-! ### The layout of a word (30 R91) -/

/-- Joining bit strings, on the numbers they stand for. -/
theorem toNat_append_eq_add {m n : Nat} (x : BitVec m) (y : BitVec n) : (x ++ y).toNat = x.toNat * 2 ^ n + y.toNat := by
  rw [BitVec.toNat_append, ← Nat.shiftLeft_add_eq_or_of_lt y.isLt, Nat.shiftLeft_eq]

theorem toNat_wordOf (f : Fields) :
    (wordOf f).toNat =
      f.op.toNat * 2 ^ 24 + f.d.toNat * 2 ^ 20 + f.a.toNat * 2 ^ 16 + f.b.toNat * 2 ^ 12 + f.z.toNat * 2 ^ 8 + f.imm.toNat := by
  simp only [wordOf, toNat_append_eq_add]
  omega

/-- `len` bits from `start` on are a digit of the number. -/
theorem toNat_extractLsb'_eq_div_mod {n : Nat} (start len : Nat) (x : BitVec n) :
    (x.extractLsb' start len).toNat = x.toNat / 2 ^ start % 2 ^ len := by
  rw [BitVec.extractLsb'_toNat, Nat.shiftRight_eq_div_pow]

theorem toNat_fieldsOf_op (w : Word32) : (fieldsOf w).op.toNat = w.toNat / 2 ^ 24 := by
  rw [fieldsOf, toNat_extractLsb'_eq_div_mod, Nat.mod_eq_of_lt (by omega)]

/-- Settles O2: `toNat_wordOf`, and each field is a digit of the word. -/
theorem wordLayout : Obligations.WordLayout :=
  ⟨toNat_wordOf, fun w => ⟨toNat_fieldsOf_op w, toNat_extractLsb'_eq_div_mod 20 4 w, toNat_extractLsb'_eq_div_mod 16 4 w,
    toNat_extractLsb'_eq_div_mod 12 4 w, toNat_extractLsb'_eq_div_mod 8 4 w, by
      rw [fieldsOf, toNat_extractLsb'_eq_div_mod, pow_zero, Nat.div_one]⟩⟩

theorem fieldsOf_inj {v w : Word32} : fieldsOf v = fieldsOf w ↔ v = w :=
  ⟨fun h => by rw [← wordOf_fieldsOf v, h, wordOf_fieldsOf], congrArg fieldsOf⟩

/-- The fields of a conjunction of words. -/
theorem fieldsOf_and (v w : Word32) :
    fieldsOf (v &&& w) =
      ⟨(fieldsOf v).op &&& (fieldsOf w).op, (fieldsOf v).d &&& (fieldsOf w).d, (fieldsOf v).a &&& (fieldsOf w).a,
        (fieldsOf v).b &&& (fieldsOf w).b, (fieldsOf v).z &&& (fieldsOf w).z, (fieldsOf v).imm &&& (fieldsOf w).imm⟩ := by
  simp only [fieldsOf, BitVec.extractLsb'_and]

/-! ### The opcode table and its checks (30 R94 to R96) -/

/-- No two rows share an opcode, and no two a mnemonic. -/
theorem nodup_ops : (opTable.map OpRow.op).Nodup := by decide

theorem nodup_mnemonics : (opTable.map OpRow.mnemonic).Nodup := by decide

theorem mem_and_op_of_opRow {op : BitVec 8} {r : OpRow} (h : opRow op = some r) : r ∈ opTable ∧ r.op = op := by
  unfold opRow at h
  exact ⟨List.mem_of_find?_eq_some h, by simpa using List.find?_some h⟩

theorem opRow_eq_none_iff {op : BitVec 8} : opRow op = none ↔ ∀ r ∈ opTable, r.op ≠ op := by
  simp [opRow, List.find?_eq_none]

theorem opRow_eq_some_iff {op : BitVec 8} {r : OpRow} : opRow op = some r ↔ r ∈ opTable ∧ r.op = op := by
  refine ⟨mem_and_op_of_opRow, ?_⟩
  rintro ⟨hr, rfl⟩
  cases hfound : opRow r.op with
  | none => exact absurd rfl (opRow_eq_none_iff.mp hfound r hr)
  | some q =>
    obtain ⟨hq, hop⟩ := mem_and_op_of_opRow hfound
    rw [List.inj_on_of_nodup_map nodup_ops hq hr hop]

/-- Every check of 30 R96 passes. -/
theorem check_eq_none_iff {f : Fields} {u : Usage} :
    f.check u = none ↔
      f.z = 0#4 ∧ u.d.admits f.d = true ∧ u.a.admits f.a = true ∧ u.b.admits f.b = true ∧ f.imm &&& ~~~u.imm = 0#8 := by
  unfold Fields.check
  split_ifs <;> simp_all

/-- The fields spell a command of row `r`: it is the row of their opcode, and every check passes (30 R96). -/
structure Fields.FitsRow (f : Fields) (r : OpRow) : Prop where
  row : opRow f.op = some r
  check : f.check r.usage = none

theorem decodeFields_eq_ok_iff {f : Fields} {i : Instr} : decodeFields f = .ok i ↔ ∃ r, f.FitsRow r ∧ r.build f = i := by
  constructor
  · intro h
    unfold decodeFields at h
    split at h
    next => cases h
    next r hrow =>
      split at h
      next => cases h
      next hcheck =>
        cases h
        exact ⟨r, ⟨hrow, hcheck⟩, rfl⟩
  · rintro ⟨r, ⟨hrow, hcheck⟩, rfl⟩
    simp only [decodeFields, hrow, hcheck]

theorem decodeFields_reserved {f : Fields} (h : ∀ r ∈ opTable, r.op ≠ f.op) : decodeFields f = .error .reservedOp := by
  rw [decodeFields, opRow_eq_none_iff.mpr h]

/-! ### Selectors (30 R93) -/

@[simp] theorem bankOf_ofBank (s : Bank) : bankOf (ofBank s) = s := by cases s <;> rfl

@[simp] theorem curveIdxOf_ofCurve (c : CurveIdx) : curveIdxOf (ofCurve c) = c := by cases c <;> rfl

@[simp] theorem ofSel_zero_bit (b : Bool) : (ofSel 0 b)[0] = b := by cases b <;> rfl

section
variable (c : CurveIdx) (px py : Bool)

/-! The selectors of `LDP`, read from the `imm` they make (43 R204). -/

@[simp] theorem ldp_imm_curve : curveIdxOf (ofCurve c ||| ofSel 1 px ||| ofSel 2 py) = c := by
  cases c <;> cases px <;> cases py <;> rfl

theorem ldp_imm_px : (ofCurve c ||| ofSel 1 px ||| ofSel 2 py).getLsbD 1 = px := by
  cases c <;> cases px <;> cases py <;> rfl

theorem ldp_imm_py : (ofCurve c ||| ofSel 1 px ||| ofSel 2 py).getLsbD 2 = py := by
  cases c <;> cases px <;> cases py <;> rfl

end

section
variable {imm : BitVec 8}

/-! An `imm` is made of its selectors again when no other bit of it is set. -/

theorem ofBank_bankOf (h : imm &&& 0xFE#8 = 0#8) : ofBank (bankOf imm) = imm := by
  revert imm; decide

theorem ofCurve_curveIdxOf (h : imm &&& 0xFE#8 = 0#8) : ofCurve (curveIdxOf imm) = imm := by
  revert imm; decide

theorem ofSel_getLsbD_zero (h : imm &&& 0xFE#8 = 0#8) : ofSel 0 imm[0] = imm := by
  revert imm; decide

theorem ldp_imm_of_selectors (h : imm &&& 0xF8#8 = 0#8) : ofCurve (curveIdxOf imm) ||| ofSel 1 imm[1] ||| ofSel 2 imm[2] = imm := by
  revert imm; decide

theorem imm_eq_zero (h : imm &&& 0xFF#8 = 0#8) : imm = 0#8 := by
  exact BitVec.and_allOnes.symm.trans h

end

/-! ### The two round trips -/

/-- A command passes the checks of its row, by its types: the lemmas of `Laws.Spelled`, one for each command. -/
theorem wellFormed_instr (i : Instr) : wellFormed i = true := by
  cases i with
  | ldmod s => exact Laws.Spelled.ldmod s
  | ldcrv a b c => exact Laws.Spelled.ldcrv a b c
  | ldf d s => exact Laws.Spelled.ldf d s
  | ldi d => exact Laws.Spelled.ldi d
  | stf a => exact Laws.Spelled.stf a
  | movf d a => exact Laws.Spelled.movf d a
  | red d a s => exact Laws.Spelled.red d a s
  | add d a b => exact Laws.Spelled.add d a b
  | sub d a b => exact Laws.Spelled.sub d a b
  | mul d a b => exact Laws.Spelled.mul d a b
  | pow d a b neg => exact Laws.Spelled.pow d a b neg
  | inv d a => exact Laws.Spelled.inv d a
  | div d a b => exact Laws.Spelled.div d a b
  | cmpf a b => exact Laws.Spelled.cmpf a b
  | mmul d a b => exact Laws.Spelled.mmul d a b
  | tomont d a => exact Laws.Spelled.tomont d a
  | frommont d a => exact Laws.Spelled.frommont d a
  | ldp d a b c px py => exact Laws.Spelled.ldp d a b c px py
  | getx d a => exact Laws.Spelled.getx d a
  | gety d a => exact Laws.Spelled.gety d a
  | movp d a => exact Laws.Spelled.movp d a
  | tstp a => exact Laws.Spelled.tstp a
  | cmpp a b => exact Laws.Spelled.cmpp a b
  | padd d a b => exact Laws.Spelled.padd d a b
  | pdbl d a => exact Laws.Spelled.pdbl d a
  | smul d a b => exact Laws.Spelled.smul d a b

theorem exists_fitsRow (i : Instr) : ∃ r, (fieldsOfInstr i).FitsRow r := by
  have hwf := wellFormed_instr i
  unfold wellFormed at hwf
  split at hwf
  next => cases hwf
  next r hrow => exact ⟨r, hrow, Option.isNone_iff_eq_none.mp hwf⟩

/-- The row of a command builds it again from its fields. -/
theorem build_fieldsOfInstr (i : Instr) : (opRow (fieldsOfInstr i).op).map (fun r => r.build (fieldsOfInstr i)) = some i := by
  cases i with
  | ldi | stf | movf | add | sub | mul | inv | div | cmpf | mmul | tomont | frommont => rfl
  | ldmod | ldcrv | ldf | red | pow | getx | gety | movp | tstp | cmpp | padd | pdbl | smul =>
    exact congrArg some (by simp [fieldsOfInstr])
  | ldp =>
    exact congrArg some (by simp only [fieldsOfInstr, pIdxOf_ofP, fIdxOf_ofF, ldp_imm_curve, ldp_imm_px, ldp_imm_py])

/-- Settles O3: the fields of the command's word fit the command's row, which builds the command again. -/
theorem decodeOfEncode : Obligations.DecodeOfEncode := by
  intro i
  rw [encode, decode, fieldsOf_wordOf, decodeFields_eq_ok_iff]
  obtain ⟨r, hfits⟩ := exists_fitsRow i
  have hbuild := build_fieldsOfInstr i
  rw [hfits.row] at hbuild
  exact ⟨r, hfits, Option.some.inj hbuild⟩

/-- The command built from fields that fit a row has these fields: what the row does not read is zero in them. -/
theorem fieldsOfInstr_build {f : Fields} {r : OpRow} (h : f.FitsRow r) : fieldsOfInstr (r.build f) = f := by
  obtain ⟨hr, hop⟩ := mem_and_op_of_opRow h.row
  obtain ⟨hz, hd, ha, hb, himm⟩ := check_eq_none_iff.mp h.check
  clear h
  obtain ⟨op, d, a, b, z, imm⟩ := f
  fin_cases hr
  all_goals
    simp_all [fieldsOfInstr, FieldUse.admits, ofP_pIdxOf, imm_eq_zero, ofBank_bankOf, ofCurve_curveIdxOf, ofSel_getLsbD_zero,
      ldp_imm_of_selectors]

/-- Settles O4: a legal word is the word of its fields, and they are the fields of its command (`fieldsOfInstr_build`). -/
theorem encodeOfDecode : Obligations.EncodeOfDecode := by
  intro w i h
  obtain ⟨r, hfits, rfl⟩ := decodeFields_eq_ok_iff.mp h
  rw [encode, fieldsOfInstr_build hfits, wordOf_fieldsOf]

/-! ### The `match` and `mask` columns (30 R95) -/

/-- The bits of a register field that the decoder requires to be zero (30 R92). -/
def FieldUse.mask : FieldUse → BitVec 4
  | .fIndex => 0x0#4
  | .pIndex => 0x8#4
  | .unused => 0xF#4
  | .free => 0x0#4

theorem admits_iff_mask {u : FieldUse} {v : BitVec 4} : u.admits v = true ↔ v &&& u.mask = 0#4 := by
  cases u <;> revert v <;> decide

/-- The `match` and `mask` columns of a row, from its opcode and its use of the fields. -/
def OpRow.maskRow (r : OpRow) : MaskRow where
  mnemonic := r.mnemonic
  matchWord := wordOf ⟨r.op, 0#4, 0#4, 0#4, 0#4, 0#8⟩
  mask := wordOf ⟨0xFF#8, r.usage.d.mask, r.usage.a.mask, r.usage.b.mask, 0xF#4, ~~~r.usage.imm⟩

/-- The columns the spec writes out are the ones its rows determine. -/
theorem maskTable_eq_map : maskTable = opTable.map OpRow.maskRow := rfl

/-- The masked comparison is the opcode and every check of 30 R96 at once. -/
theorem matches_maskRow_iff {w : Word32} {r : OpRow} (hr : r ∈ opTable) :
    w &&& r.maskRow.mask = r.maskRow.matchWord ↔ (fieldsOf w).FitsRow r := by
  have hbyte (v : BitVec 8) : v &&& 0xFF#8 = v := BitVec.and_allOnes
  have hnibble (v : BitVec 4) : v &&& 0xF#4 = v := BitVec.and_allOnes
  rw [← fieldsOf_inj, fieldsOf_and, OpRow.maskRow, fieldsOf_wordOf, fieldsOf_wordOf, Fields.mk.injEq]
  simp only [hbyte, hnibble, ← admits_iff_mask]
  constructor
  · rintro ⟨hop, hd, ha, hb, hz, himm⟩
    exact ⟨opRow_eq_some_iff.mpr ⟨hr, hop.symm⟩, check_eq_none_iff.mpr ⟨hz, hd, ha, hb, himm⟩⟩
  · rintro ⟨hrow, hcheck⟩
    obtain ⟨-, hop⟩ := opRow_eq_some_iff.mp hrow
    obtain ⟨hz, hd, ha, hb, himm⟩ := check_eq_none_iff.mp hcheck
    exact ⟨hop.symm, hd, ha, hb, hz, himm⟩

theorem mnemonic_build {f : Fields} {r : OpRow} (h : f.FitsRow r) : mnemonic (r.build f) = r.mnemonic := by
  rw [mnemonic, fieldsOfInstr_build h, h.row]

/-- The words that decode to a command with the mnemonic of a row are the words that fit the row: no other row has that mnemonic. -/
theorem decode_with_mnemonic_iff {w : Word32} {r : OpRow} (hr : r ∈ opTable) :
    (∃ i, decode w = .ok i ∧ mnemonic i = r.mnemonic) ↔ (fieldsOf w).FitsRow r := by
  constructor
  · rintro ⟨i, hdec, hname⟩
    obtain ⟨q, hfits, rfl⟩ := decodeFields_eq_ok_iff.mp hdec
    rw [mnemonic_build hfits] at hname
    rwa [← List.inj_on_of_nodup_map nodup_mnemonics (mem_and_op_of_opRow hfits.row).1 hr hname]
  · intro hfits
    exact ⟨r.build (fieldsOf w), decodeFields_eq_ok_iff.mpr ⟨r, hfits, rfl⟩, mnemonic_build hfits⟩

/-- Settles O5: each row of the columns is that of a row of the opcode table, and both sides say that the word fits it. -/
theorem decoderAgreesWithMasks : Obligations.DecoderAgreesWithMasks := by
  intro w m hm
  rw [maskTable_eq_map] at hm
  obtain ⟨r, hr, rfl⟩ := List.mem_map.mp hm
  exact (matches_maskRow_iff hr).trans (decode_with_mnemonic_iff hr).symm

/-! ### Sample words and reserved opcodes (30 R94, R108) -/

/-- Settles O1: the decoder, run on each of the ten words. -/
theorem sampleWordsDecode : Obligations.SampleWordsDecode := by
  unfold Obligations.SampleWordsDecode
  decide

/-- The assigned opcodes. -/
theorem op_of_mem_opTable : ∀ r ∈ opTable,
    (0x10 ≤ r.op.toNat ∧ r.op.toNat ≤ 0x16) ∨ (0x20 ≤ r.op.toNat ∧ r.op.toNat ≤ 0x26) ∨
    (0x30 ≤ r.op.toNat ∧ r.op.toNat ≤ 0x32) ∨ (0x40 ≤ r.op.toNat ∧ r.op.toNat ≤ 0x45) ∨ (0x48 ≤ r.op.toNat ∧ r.op.toNat ≤ 0x4A) := by
  decide

/-- A word whose `op` no row has is refused for that. -/
theorem decode_reserved {w : Word32} (h : ∀ r ∈ opTable, r.op.toNat ≠ w.toNat / 2 ^ 24) : decode w = .error .reservedOp :=
  decodeFields_reserved fun r hr hop => h r hr (by rw [hop, toNat_fieldsOf_op])

end Sys2Proof

namespace Sys2Proof.Machine

/-! ### The illegal word (30 R108) -/

/-- A word that spells no command completes with `E_ILLEGAL` and nothing else. -/
theorem complete_illegal {s : State} {why : Illegal} (h : decode s.cmd = .error why) : complete s = .next (faultRecord .illegal s) := by
  rw [complete, h]
  rfl

theorem unitMove_illegal {s : State} {why : Illegal} (h : decode s.cmd = .error why) (hrun : s.run = .busy) (hheld : s.inReset = false) :
    unitMove s = .next (faultRecord .illegal s) := by
  rw [unitMove_busy hheld hrun, complete_illegal h]

/-- Settles O7: accepted as every word is (`cmdWriteAcceptedOrDropped`), completed by `unitMove_illegal`; the reserved ranges are the
complement of `op_of_mem_opTable`. -/
theorem illegalWordFaults : Obligations.IllegalWordFaults := by
  refine ⟨?accepted, ?faults, ?reserved⟩
  case accepted =>
    intro s w why rest _ hrun hheld hev
    exact (cmdWriteAcceptedOrDropped s w rest hheld hev).1 hrun
  case faults =>
    intro s why hdec hrun hheld
    constructor
    · intro hev
      rw [step_alone hev, unitAlone, if_neg (by simp [hrun]), unitMove_illegal hdec hrun hheld]
    · intro rest hev
      exact (step_event hev).trans (unitMove_illegal (s := { s with events := rest }) hdec hrun hheld)
  case reserved =>
    intro w hop
    refine ⟨.reservedOp, decode_reserved fun r hr heq => ?_⟩
    have hassigned := op_of_mem_opTable r hr
    omega

end Sys2Proof.Machine
end

section
/-! PROOFS. The data movement commands (40 R122 to R134). First, what every command's meaning is stated with: the word that spells it
(30 R91), its sources and requirements, and its end (00 R11; 20 R70; 60 R270). -/

namespace Sys2Proof

/-! ### The fields of a command as numbers (30 R91 to R93) -/

@[simp] theorem toNat_ofF (i : FIdx) : (ofF i).toNat = i.val := rfl

@[simp] theorem toNat_ofBank (b : Bank) : (ofBank b).toNat = Machine.bankNum b := by cases b <;> rfl

@[simp] theorem toNat_ofCurve (c : CurveIdx) : (ofCurve c).toNat = Machine.curveNum c := by cases c <;> rfl

theorem fieldsOfInstr_z (i : Instr) : (fieldsOfInstr i).z = 0#4 := by cases i <;> rfl

end Sys2Proof

namespace Sys2Proof.Machine

/-- The numbers of a command's fields spell it: their word is the command's own (`decodeOfEncode`). -/
theorem spells_fieldsOfInstr (i : Instr) :
    Spells (fieldsOfInstr i).op.toNat (fieldsOfInstr i).d.toNat (fieldsOfInstr i).a.toNat (fieldsOfInstr i).b.toNat
      (fieldsOfInstr i).imm.toNat i := by
  have hword := toNat_wordOf (fieldsOfInstr i)
  rw [fieldsOfInstr_z, BitVec.toNat_zero, Nat.zero_mul, Nat.add_zero] at hword
  rw [Spells, ← hword, BitVec.ofNat_toNat, BitVec.setWidth_eq]
  exact decodeOfEncode i

/-! ### Requirements, sources and ends -/

section
variable {s : State} {e : ErrCode} {c : Bool} {k : Out}

theorem require_pos (h : c = true) : require c e s k = k := if_pos h

theorem require_neg (h : ¬ c = true) : require c e s k = .next (faultRecord e s) := if_neg h

/-- Of two field registers read one after the other, one that is not valid makes the command fault with `E_UNINIT`. -/
theorem srcF_srcF_none {a b : FIdx} (h : s.fReg a = none ∨ s.fReg b = none) (k : FReg → FReg → Out) :
    (srcF a s fun ra => srcF b s fun rb => k ra rb) = .next (faultRecord .uninit s) := by
  cases ha : s.fReg a with
  | none => exact srcF_none ha _
  | some ra =>
    have hb : s.fReg b = none := h.resolve_left (by simp [ha])
    exact (srcF_some ha _).trans (srcF_none hb _)

theorem needModulus_none {b : Bank} (h : s.modulus b = none) (k : Nat → Out) :
    needModulus b s k = .next (faultRecord .nomod s) := by
  rw [needModulus, h]
  rfl

/-- A command that wrote a word to a field register and completed. -/
theorem retire_writeF (d : FIdx) (t : Tag) (v : Word) : retire (writeF d t v s) = .next (wroteF d t v.toNat s) := by
  rw [wroteF, Arith.toWord_toNat, ← zFlag_eq_decide]
  rfl

/-- A command that wrote a natural below 2^256 to a field register and completed. -/
theorem finishF_of_lt {v : Nat} (h : v < 2 ^ 256) (d : FIdx) (t : Tag) : finishF d t v s = .next (wroteF d t v s) := by
  rw [finishF, retire_writeF, Arith.toNat_toWord h]

end

/-! ### The statements -/

/-- The condition that `LDMOD` tests is that the modulus is legal (40 R122). -/
theorem ldmod_test_iff {M : Nat} : (decide (3 ≤ M) && decide (M % 2 = 1)) = true ↔ LegalModulus M := by
  simp [LegalModulus, and_comm]

/-- Settles O18: the test is `ldmod_test_iff`, and each register and bank is read from `loadModulus` by its own law. -/
theorem ldmodMeaning : Obligations.LdmodMeaning := by
  intro b s
  refine ⟨by simpa [fieldsOfInstr] using spells_fieldsOfInstr (.ldmod b), ?refused, ?loaded⟩
  case refused =>
    intro hm
    exact require_neg (mt ldmod_test_iff.mp hm)
  case loaded =>
    intro hm
    refine ⟨retired (loadModulus b s.dbuf s), require_pos (ldmod_test_iff.mpr hm), rfl, ?_, fun i r => ?_, ?_, ?_⟩
    · exact fun n => loadModulus_modulus b n s.dbuf s
    · rw [retired_fReg, loadModulus_fReg, dropTag_eq_some]
    · exact loadModulus_curve b s.dbuf s
    · exact loadModulus_pReg b s.dbuf s

/-- Settles O19: both sources, then both tags; the bank and the points are read from `loadCurve`. -/
theorem ldcrvMeaning : Obligations.LdcrvMeaning := by
  intro a b c s
  refine ⟨by simpa [fieldsOfInstr] using spells_fieldsOfInstr (.ldcrv a b c), fun h => srcF_srcF_none h _, ?_⟩
  intro ra rb ha hb
  have hexec : exec (.ldcrv a b c) s =
      require (ra.tag = .fp && rb.tag = .fp) .domain s (retire (loadCurve c ⟨ra.val, rb.val⟩ s)) :=
    (srcF_some ha _).trans (srcF_some hb _)
  rw [hexec]
  refine ⟨?domain, ?loaded⟩
  case domain =>
    intro htag
    exact require_neg (by simpa [imp_iff_not_or] using htag)
  case loaded =>
    intro hta htb
    refine ⟨retired (loadCurve c ⟨ra.val, rb.val⟩ s), require_pos (by simp [hta, htb]), rfl, ?_, fun i q => ?_⟩
    · exact fun n => loadCurve_curve c n ⟨ra.val, rb.val⟩ s
    · rw [retired_pReg, loadCurve_pReg, dropCurve_eq_some]

/-- Settles O20: the bank, then the range of `DBUF`, then the write of `DBUF` itself. -/
theorem ldfMeaning : Obligations.LdfMeaning := by
  intro d b s
  have hexec : exec (.ldf d b) s =
      needModulus b s fun M => require (s.dbuf.toNat < M) .range s (retire (writeF d b.tag s.dbuf s)) := rfl
  rw [hexec, ← retire_writeF]
  refine ⟨by simpa [fieldsOfInstr] using spells_fieldsOfInstr (.ldf d b), fun hm => needModulus_none hm _, fun m hm => ?_⟩
  rw [needModulus_some hm]
  exact ⟨fun hge => require_neg (by simpa using hge), fun hlt => require_pos (by simpa using hlt)⟩

/-- Settles O21: `LDI` has no requirement; `STF` and `MOVF` have the one source. -/
theorem ldiStfMovfMeaning : Obligations.LdiStfMovfMeaning := by
  intro d a s
  refine ⟨spells_fieldsOfInstr (.ldi d), spells_fieldsOfInstr (.stf a), spells_fieldsOfInstr (.movf d a), retire_writeF d .raw s.dbuf,
    fun h => ⟨srcF_none h _, srcF_none h _⟩, fun r hr => ⟨srcF_some hr _, ?movf⟩⟩
  case movf => exact (srcF_some hr _).trans (retire_writeF d r.tag r.val)

/-- Settles O22: the source, then the bank; the remainder is a word, whatever the modulus. -/
theorem redMeaning : Obligations.RedMeaning := by
  intro d a b s
  refine ⟨by simpa [fieldsOfInstr] using spells_fieldsOfInstr (.red d a b), fun h => srcF_none h _,
    fun r hr => ⟨fun hm => ?nomod, fun m hm => ?reduced⟩⟩
  case nomod => exact (srcF_some hr _).trans (needModulus_none hm _)
  case reduced =>
    have hlt : r.val.toNat % m.toNat < 2 ^ 256 := (Nat.mod_le _ _).trans_lt r.val.isLt
    calc exec (.red d a b) s
      _ = needModulus b s fun M => finishF d b.tag (r.val.toNat % M) s := srcF_some hr _
      _ = finishF d b.tag (r.val.toNat % m.toNat) s := needModulus_some hm _
      _ = .next (wroteF d b.tag (r.val.toNat % m.toNat) s) := finishF_of_lt hlt d b.tag

end Sys2Proof.Machine
end

section
/-! PROOFS. The field commands (41 R151 to R162): what the engine's power is, the faults of the operand forms and the end of a command
that writes a residue, and from these the commands. -/

namespace Sys2Proof

/-- The sign selector of `POW` as a number (30 R93). -/
@[simp] theorem toNat_ofSel_zero (b : Bool) : (ofSel 0 b).toNat = b.toNat := by cases b <;> rfl

end Sys2Proof

namespace Sys2Proof.Arith

open Sys2Proof.Machine (LegalModulus)

/-! ### The power and the inverse (41 R156, R158) -/

section
variable {M : Nat}

/-- The engine's power is the rule's own recursion for every 256-bit exponent: both are the power modulo `M`. -/
theorem powmod_eq_powmodSpec (hM : LegalModulus M) (x : Nat) {e : Nat} (he : e < 2 ^ 256) : powmod M x e = powmodSpec M x e := by
  have h2 : 2 ≤ M := Nat.le_of_succ_le hM.2
  rw [powmod_eq h2 x he, powmodSpec_eq h2 x e]

/-- A reduced exponent of either sign is below the modulus. -/
theorem reduceExp_lt (hM : LegalModulus M) (e : Nat) (neg : Bool) : reduceExp M e neg < M := by
  have horder : 0 < M - 1 := by have := hM.2; omega
  have hlt : reduceExp M e neg < M - 1 := by
    cases neg with
    | false => exact Nat.mod_lt _ horder
    | true => exact Nat.mod_lt _ horder
  exact hlt.trans_le (Nat.sub_le M 1)

/-- The engine's inverse is the rule's power `M - 2`. -/
theorem finv_eq_powmodSpec (hM : LegalModulus M) (hlt : M < 2 ^ 256) (x : Nat) : finv M x = powmodSpec M x (M - 2) :=
  powmod_eq_powmodSpec hM x ((Nat.sub_le M 2).trans_lt hlt)

/-- Fermat: modulo a prime, the power `M - 2` inverts every residue but 0 (41 R158). -/
theorem mul_powmodSpec_sub_two (hp : M.Prime) {x : Nat} (hpos : 0 < x) (hlt : x < M) : (x * powmodSpec M x (M - 2)) % M = 1 := by
  have h2 : 2 ≤ M := hp.two_le
  have hcop : Nat.Coprime x M := (Nat.coprime_of_lt_prime hpos.ne' hlt hp).symm
  calc (x * powmodSpec M x (M - 2)) % M
    _ = powmodSpec M x (M - 2 + 1) := rfl
    _ = x ^ (M - 2 + 1) % M := powmodSpec_eq h2 x _
    _ = x ^ M.totient % M := by rw [Nat.totient_prime hp, show M - 2 + 1 = M - 1 by omega]
    _ = 1 % M := Nat.ModEq.pow_totient hcop
    _ = 1 := Nat.mod_eq_of_lt h2

end

end Sys2Proof.Arith

namespace Sys2Proof.Machine

/-! ### The faults of the operand forms (41 R151, R158) and the end of a command that writes a residue -/

section
variable {s : State} {a b : FIdx}

theorem fieldPair_uninit (h : s.fReg a = none ∨ s.fReg b = none) (k : FReg → FReg → Nat → Out) :
    fieldPair a b s k = .next (faultRecord .uninit s) :=
  srcF_srcF_none h _

theorem fieldPair_domain {ra rb : FReg} (ha : s.fReg a = some ra) (hb : s.fReg b = some rb)
    (h : ra.tag = .raw ∨ ra.tag ≠ rb.tag) (k : FReg → FReg → Nat → Out) : fieldPair a b s k = .next (faultRecord .domain s) := by
  rw [fieldPair, srcF_some ha, srcF_some hb]
  exact require_neg (by simpa [imp_iff_not_or] using h)

theorem fieldOne_domain {ra : FReg} (ha : s.fReg a = some ra) (h : ra.tag = .raw) (k : FReg → Nat → Out) :
    fieldOne a s k = .next (faultRecord .domain s) := by
  rw [fieldOne, srcF_some ha]
  exact require_neg (by simpa using h)

theorem bankTag_ne_raw (n : Bank) : n.tag ≠ .raw := by cases n <;> decide

/-- A zero operand of an inversion faults with `E_ZEROINV`. -/
theorem require_ne_zero_of_zero {y : Word} (h : y.toNat = 0) (k : Out) :
    require (y ≠ 0#256) .zeroInv s k = .next (faultRecord .zeroInv s) :=
  require_neg (by simpa [← BitVec.toNat_inj] using h)

/-- A non-zero operand of an inversion lets the command go on. -/
theorem require_ne_zero_of_ne {y : Word} (h : y.toNat ≠ 0) (k : Out) : require (y ≠ 0#256) .zeroInv s k = k :=
  require_pos (by simpa [← BitVec.toNat_inj] using h)

/-- A command that wrote a remainder by a word-sized legal modulus and completed. -/
theorem finishF_mod {m : Word} (hm : LegalModulus m.toNat) (v : Nat) (d : FIdx) (t : Tag) :
    finishF d t (v % m.toNat) s = .next (wroteF d t (v % m.toNat) s) :=
  have hpos : 0 < m.toNat := Nat.zero_lt_of_lt hm.2
  finishF_of_lt ((Nat.mod_lt v hpos).trans m.isLt) d t

/-- A command that wrote a power modulo a word-sized legal modulus and completed; the value is the rule's own recursion (41 R156). -/
theorem finishF_powmod {m : Word} (hm : LegalModulus m.toNat) (x : Nat) {e : Nat} (he : e < m.toNat) (d : FIdx) (t : Tag) :
    finishF d t (Arith.powmod m.toNat x e) s = .next (wroteF d t (Arith.powmodSpec m.toNat x e) s) := by
  have hlt : Arith.powmod m.toNat x e < m.toNat := Arith.powmod_lt (Nat.le_of_succ_le hm.2) x e
  rw [finishF_of_lt (hlt.trans m.isLt), Arith.powmod_eq_powmodSpec hm x (he.trans m.isLt)]

/-- `ADD`, `SUB` and `MUL` have the operand form `fieldpair` (41 R152 to R154). -/
theorem exec_eq_fieldPair {d : FIdx} {i : Instr} (hi : i ∈ [Instr.add d a b, .sub d a b, .mul d a b]) (s : State) :
    ∃ k, exec i s = fieldPair a b s k := by
  simp only [List.mem_cons, List.not_mem_nil, or_false] at hi
  obtain rfl | rfl | rfl := hi
  · exact ⟨_, rfl⟩
  · exact ⟨_, rfl⟩
  · exact ⟨_, rfl⟩

end

/-! ### The statements -/

/-- Settles O23: the faults are those of `fieldpair`; each value is a remainder by the bank's modulus. -/
theorem addSubMulMeaning : Obligations.AddSubMulMeaning := by
  intro d a b s hlegal
  refine ⟨spells_fieldsOfInstr (.add d a b), spells_fieldsOfInstr (.sub d a b), spells_fieldsOfInstr (.mul d a b), fun i hi => ?faults,
    fun n x y m ha hb hm => ?values⟩
  case faults =>
    obtain ⟨k, hk⟩ := exec_eq_fieldPair hi s
    rw [hk]
    exact ⟨fun h => fieldPair_uninit h k, fun ra rb ha hb h => fieldPair_domain ha hb h k⟩
  case values =>
    have hM : LegalModulus m.toNat := hlegal n m hm
    refine ⟨?add, ?sub, ?mul⟩
    case add => exact (fieldPair_some ha hb hm _).trans (finishF_mod hM _ d n.tag)
    case sub => exact (fieldPair_some ha hb hm _).trans (finishF_mod hM _ d n.tag)
    case mul => exact (fieldPair_some ha hb hm _).trans (finishF_mod hM _ d n.tag)

/-- Settles O24: `e1` is the exponent that the command reduces, below the modulus, so the engine's power is the rule's. -/
theorem powMeaning : Obligations.PowMeaning := by
  intro d a b neg s hlegal
  refine ⟨by simpa [fieldsOfInstr] using spells_fieldsOfInstr (.pow d a b neg), fun h => srcF_srcF_none h _,
    fun ra rb ha hb htag => ?domain, fun n x e m e1 ha hb hm he1 => ?power⟩
  case domain =>
    refine (srcF_some ha _).trans ((srcF_some hb _).trans ?_)
    by_cases hraw : ra.tag = .raw
    · exact require_neg (by simpa using hraw)
    · have hexp : rb.tag ≠ .raw := htag.resolve_left hraw
      exact (require_pos (by simpa using hraw)).trans (require_neg (by simpa using hexp))
  case power =>
    have hM : LegalModulus m.toNat := hlegal n m hm
    have hred : e1 = Arith.reduceExp m.toNat e.toNat neg := he1
    have hexec : exec (.pow d a b neg) s = require (n.tag ≠ .raw) .domain s (require (Tag.raw = .raw) .domain s
        (tagModulus n.tag s fun M => finishF d n.tag (Arith.powmod M x.toNat (Arith.reduceExp M e.toNat neg)) s)) :=
      (srcF_some ha _).trans (srcF_some hb _)
    rw [hexec, require_pos (by simpa using bankTag_ne_raw n), require_pos (by simp), tagModulus_some hm, hred]
    exact finishF_powmod hM x.toNat (Arith.reduceExp_lt hM e.toNat neg) d n.tag

/-- Settles O25: the operand form, then the zero test, then the power `M - 2`; its meaning modulo a prime is `mul_powmodSpec_sub_two`. -/
theorem invDivMeaning : Obligations.InvDivMeaning := by
  intro d a b s hlegal
  refine ⟨spells_fieldsOfInstr (.inv d a), spells_fieldsOfInstr (.div d a b), fun h => srcF_none h _, fun h => fieldPair_uninit h _,
    fun ra ha h => fieldOne_domain ha h _, fun ra rb ha hb h => fieldPair_domain ha hb h _,
    fun n x m ha hm => ?inverse, fun n x y m ha hb hm => ?quotient⟩
  case inverse =>
    have hM : LegalModulus m.toNat := hlegal n m hm
    have hexec : exec (.inv d a) s = require (x ≠ 0#256) .zeroInv s (finishF d n.tag (Arith.finv m.toNat x.toNat) s) :=
      fieldOne_some ha hm _
    rw [hexec]
    refine ⟨fun hx => require_ne_zero_of_zero hx _, fun hx => (require_ne_zero_of_ne hx _).trans ?_,
      fun hp => Arith.mul_powmodSpec_sub_two hp⟩
    exact finishF_powmod hM x.toNat (Nat.sub_lt (Nat.zero_lt_of_lt hM.2) two_pos) d n.tag
  case quotient =>
    have hM : LegalModulus m.toNat := hlegal n m hm
    have hexec : exec (.div d a b) s = require (y ≠ 0#256) .zeroInv s (finishF d n.tag (Arith.fdiv m.toNat x.toNat y.toNat) s) :=
      fieldPair_some ha hb hm _
    rw [hexec, ← Arith.finv_eq_powmodSpec hM m.isLt]
    exact ⟨fun hy => require_ne_zero_of_zero hy _, fun hy => (require_ne_zero_of_ne hy _).trans (finishF_mod hM _ d n.tag)⟩

/-- Settles O26: both sources, then the tags; words are equal exactly when their numbers are. -/
theorem cmpfMeaning : Obligations.CmpfMeaning := by
  intro a b s
  refine ⟨spells_fieldsOfInstr (.cmpf a b), fun h => srcF_srcF_none h _, fun ra rb ha hb => ?compared⟩
  case compared =>
    have hexec : exec (.cmpf a b) s = require (ra.tag = rb.tag) .domain s (retire (setEq (ra.val == rb.val) s)) :=
      (srcF_some ha _).trans (srcF_some hb _)
    have heq : (ra.val == rb.val) = decide (ra.val.toNat = rb.val.toNat) := by simp [beq_eq_decide, BitVec.toNat_inj]
    rw [hexec, heq]
    exact ⟨fun hne => require_neg (by simpa using hne), fun htag => require_pos (by simpa using htag)⟩

end Sys2Proof.Machine
end

section
/-! PROOFS. The Montgomery multiplier (42 R180 to R188). Each helper is a remainder by the modulus, so what it means is its value in the
ring `ZMod M`, where `Rinv(M)` is the inverse of the radix; an identity of helpers is then an identity of that ring. -/

namespace Sys2Proof.Arith

open Sys2Proof.Machine (LegalModulus)

/-! ### The helpers as elements of the ring of residues -/

/-- Residues that are equal in the ring are equal. -/
theorem eq_of_cast_eq {M a b : Nat} (ha : a < M) (hb : b < M) (h : (a : ZMod M) = b) : a = b :=
  ((ZMod.natCast_eq_natCast_iff a b M).mp h).eq_of_lt_of_lt ha hb

section
variable (M : Nat)

theorem cast_fadd (x y : Nat) : (fadd M x y : ZMod M) = x + y := by
  rw [fadd, ZMod.natCast_mod, Nat.cast_add]

theorem cast_fsub (x : Nat) {y : Nat} (hy : y ≤ M) : (fsub M x y : ZMod M) = x - y := by
  rw [fsub, ZMod.natCast_mod, Nat.cast_sub (hy.trans (Nat.le_add_left M x)), Nat.cast_add, ZMod.natCast_self, add_zero]

theorem cast_fmul (x y : Nat) : (fmul M x y : ZMod M) = x * y := by
  rw [fmul, ZMod.natCast_mod, Nat.cast_mul]

theorem cast_mp (x y : Nat) : (mp M x y : ZMod M) = x * y * rinv M := by
  rw [mp, ZMod.natCast_mod, Nat.cast_mul, Nat.cast_mul]

theorem cast_mont (x : Nat) : (mont M x : ZMod M) = x * radix := by
  rw [mont, ZMod.natCast_mod, Nat.cast_mul]

theorem cast_unmont (x : Nat) : (unmont M x : ZMod M) = x * rinv M := by
  rw [unmont, ZMod.natCast_mod, Nat.cast_mul]

theorem cast_r2 : (r2 M : ZMod M) = radix * radix := by
  rw [r2_eq_mont, cast_mont, ZMod.natCast_mod]

theorem mp_one (x : Nat) : mp M x 1 = unmont M x := by rw [mp, unmont, mul_one]

end

/-! ### The inverse of the radix, the two conversions and the identities (42 R180, R183 to R185, R188) -/

section
variable {M : Nat} (hM : LegalModulus M)
include hM

theorem pos_of_legalModulus : 0 < M := Nat.zero_lt_of_lt hM.2

theorem cast_radix_mul_rinv : (radix : ZMod M) * rinv M = 1 := by
  exact_mod_cast (ZMod.natCast_eq_natCast_iff _ _ M).mpr (radix_mul_rinv hM.1)

/-- `Rinv(M)` is the one inverse of the radix in `[1, M)` (42 R180). -/
theorem isRadixInverse_iff (ri : Nat) : (1 ≤ ri ∧ ri < M ∧ (radix * ri) % M = 1) ↔ ri = rinv M := by
  have hpos : 0 < M := pos_of_legalModulus hM
  constructor
  · rintro ⟨-, hlt, hri⟩
    have hinv : (radix : ZMod M) * ri = 1 := by rw [← Nat.cast_mul, ← ZMod.natCast_mod, hri, Nat.cast_one]
    exact eq_of_cast_eq hlt (rinv_lt hpos) (by linear_combination (rinv M : ZMod M) * hinv - ri * cast_radix_mul_rinv hM)
  · intro hri
    have hinv : (radix * rinv M) % M = 1 := Eq.trans (radix_mul_rinv hM.1) (Nat.mod_eq_of_lt (Nat.lt_of_succ_lt hM.2))
    have hne : rinv M ≠ 0 := fun h0 => by simp [h0] at hinv
    rw [hri]
    exact ⟨Nat.pos_of_ne_zero hne, rinv_lt hpos, hinv⟩

theorem mont_lt (x : Nat) : mont M x < M := Nat.mod_lt _ (pos_of_legalModulus hM)

theorem unmont_lt (x : Nat) : unmont M x < M := Nat.mod_lt _ (pos_of_legalModulus hM)

theorem mp_lt (x y : Nat) : mp M x y < M := Nat.mod_lt _ (pos_of_legalModulus hM)

theorem unmont_mont {x : Nat} (hx : x < M) : unmont M (mont M x) = x := by
  refine eq_of_cast_eq (unmont_lt hM _) hx ?_
  rw [cast_unmont, cast_mont]
  linear_combination (x : ZMod M) * cast_radix_mul_rinv hM

theorem mont_unmont {x : Nat} (hx : x < M) : mont M (unmont M x) = x := by
  refine eq_of_cast_eq (mont_lt hM _) hx ?_
  rw [cast_mont, cast_unmont]
  linear_combination (x : ZMod M) * cast_radix_mul_rinv hM

theorem mp_r2 (x : Nat) : mp M x (r2 M) = mont M x := by
  refine eq_of_cast_eq (mp_lt hM _ _) (mont_lt hM _) ?_
  rw [cast_mp, cast_r2, cast_mont]
  linear_combination (x * radix : ZMod M) * cast_radix_mul_rinv hM

theorem mont_mp (x y : Nat) : mont M (mp M x y) = fmul M x y := by
  refine eq_of_cast_eq (mont_lt hM _) (Nat.mod_lt _ (pos_of_legalModulus hM)) ?_
  rw [cast_mont, cast_mp, cast_fmul]
  linear_combination (x * y : ZMod M) * cast_radix_mul_rinv hM

theorem mp_mont_mont (x y : Nat) : mp M (mont M x) (mont M y) = mont M (fmul M x y) := by
  refine eq_of_cast_eq (mp_lt hM _ _) (mont_lt hM _) ?_
  rw [cast_mp, cast_mont, cast_mont, cast_mont, cast_fmul]
  linear_combination (x * y * radix : ZMod M) * cast_radix_mul_rinv hM

theorem fadd_mont_mont (x y : Nat) : fadd M (mont M x) (mont M y) = mont M (fadd M x y) := by
  refine eq_of_cast_eq (Nat.mod_lt _ (pos_of_legalModulus hM)) (mont_lt hM _) ?_
  rw [cast_fadd, cast_mont, cast_mont, cast_mont, cast_fadd, add_mul]

theorem fsub_mont_mont (x : Nat) {y : Nat} (hy : y ≤ M) : fsub M (mont M x) (mont M y) = mont M (fsub M x y) := by
  refine eq_of_cast_eq (Nat.mod_lt _ (pos_of_legalModulus hM)) (mont_lt hM _) ?_
  rw [cast_fsub M _ (mont_lt hM y).le, cast_mont, cast_mont, cast_mont, cast_fsub M x hy, sub_mul]

end

/-! ### The reduction and the bit-serial multiplier (42 R186, R187) -/

/-- One conditional subtraction reduces a value below `2M`. -/
theorem condSub_eq_mod {M t : Nat} (ht : t < 2 * M) : (if M ≤ t then t - M else t) = t % M := by
  split
  · next hge => rw [Nat.mod_eq_sub_mod hge, Nat.mod_eq_of_lt (by omega)]
  · next hlt => rw [Nat.mod_eq_of_lt (by omega)]

/-- What a multiplier's last step answers, given its accumulator `t` below `2M` with `R * t` known modulo `M` (42 R186, R187). -/
theorem condSub_eq_of_radix_mul {M t c : Nat} (hM : LegalModulus M) (ht : t < 2 * M) (hc : radix * t ≡ c [MOD M]) :
    (if M ≤ t then t - M else t) = (c * rinv M) % M := by
  have hcast : (radix : ZMod M) * t = c := by exact_mod_cast (ZMod.natCast_eq_natCast_iff _ _ M).mpr hc
  rw [condSub_eq_mod ht]
  refine (ZMod.natCast_eq_natCast_iff' _ _ M).mp ?_
  rw [Nat.cast_mul]
  linear_combination (rinv M : ZMod M) * hcast - t * cast_radix_mul_rinv hM

/-- The division of `REDC` before its final test is exact, (42 R186). -/
theorem radix_dvd_redc_dividend {M : Nat} (hM : LegalModulus M) (T : Nat) :
    radix ∣ T + ((T % radix) * nprime M) % radix * M := by
  have hm : ((T % radix) * nprime M) % radix * M ≡ T * nprime M * M [MOD radix] :=
    ((Nat.mod_modEq _ _).trans ((Nat.mod_modEq T radix).mul_right _)).mul_right M
  refine (Nat.modEq_zero_iff_dvd).mp ?_
  calc T + ((T % radix) * nprime M) % radix * M
      ≡ T + T * nprime M * M [MOD radix] := hm.add_left T
    _ = T * (M * nprime M + 1) := by ring
    _ = radix * (T * rinv M) := by rw [mul_nprime hM]; ring
    _ ≡ 0 [MOD radix] := (Nat.modEq_zero_iff_dvd).mpr (Nat.dvd_mul_right _ _)

/-- The value of `REDC` before its final test is below `2M` (42 R186). -/
theorem redc_quotient_lt {M T : Nat} (hM : 0 < M) (hT : T < M * radix) :
    (T + ((T % radix) * nprime M) % radix * M) / radix < 2 * M := by
  have hm : ((T % radix) * nprime M) % radix < radix := Nat.mod_lt _ (by decide)
  refine Nat.div_lt_of_lt_mul ?_
  calc T + ((T % radix) * nprime M) % radix * M
      < M * radix + radix * M := Nat.add_lt_add hT (Nat.mul_lt_mul_of_pos_right hm hM)
    _ = radix * (2 * M) := by ring

theorem redc_eq {M T : Nat} (hM : LegalModulus M) (hT : T < M * radix) : redc M T = (T * rinv M) % M := by
  refine condSub_eq_of_radix_mul hM (redc_quotient_lt (pos_of_legalModulus hM) hT) ?_
  rw [Nat.mul_div_cancel' (radix_dvd_redc_dividend hM T), Nat.ModEq, Nat.add_mul_mod_self_right]

/-- One iteration of the bit-serial multiplier: its conditional addition of `M` and its shift halve the sum modulo `M` (42 R187). -/
theorem serialLoop_succ (M y n x T : Nat) :
    serialLoop M y (n + 1) x T = serialLoop M y n (x / 2) (halves M 1 (T + x % 2 * y)) := by
  rw [serialLoop, halves, halves]
  rcases Nat.mod_two_eq_zero_or_one (T + x % 2 * y) with h | h
  · simp [h]
  · simp [h]

/-- The accumulator stays below `2M` (42 R187). -/
theorem serialLoop_lt {M y : Nat} (hy : y < M) : ∀ n x T : Nat, T < 2 * M → serialLoop M y n x T < 2 * M
  | 0, _, _, hT => hT
  | n + 1, x, T, hT => by
    rw [serialLoop_succ]
    refine serialLoop_lt hy n _ _ ?_
    have hbit : x % 2 * y ≤ 1 * y := Nat.mul_le_mul_right y (by omega)
    rw [halves, halves]
    split <;> omega

/-- After `n` iterations the accumulator is the sum for the low `n` bits of `x`, divided by `2^n` modulo `M` (42 R187). -/
theorem serialLoop_modEq {M : Nat} (hM : M % 2 = 1) (y : Nat) :
    ∀ n x T : Nat, 2 ^ n * serialLoop M y n x T ≡ T + x % 2 ^ n * y [MOD M]
  | 0, x, T => by simp [serialLoop, Nat.mod_one, Nat.ModEq.refl]
  | n + 1, x, T => by
    rw [serialLoop_succ]
    have hhalf : 2 * halves M 1 (T + x % 2 * y) ≡ T + x % 2 * y [MOD M] := halves_modEq hM 1 _
    have hlow : x % 2 ^ (n + 1) = x % 2 + 2 * (x / 2 % 2 ^ n) := by rw [pow_succ', Nat.mod_mul]
    calc 2 ^ (n + 1) * serialLoop M y n (x / 2) (halves M 1 (T + x % 2 * y))
        = 2 * (2 ^ n * serialLoop M y n (x / 2) (halves M 1 (T + x % 2 * y))) := by ring
      _ ≡ 2 * (halves M 1 (T + x % 2 * y) + x / 2 % 2 ^ n * y) [MOD M] := (serialLoop_modEq hM y n _ _).mul_left 2
      _ = 2 * halves M 1 (T + x % 2 * y) + 2 * (x / 2 % 2 ^ n) * y := by ring
      _ ≡ T + x % 2 * y + 2 * (x / 2 % 2 ^ n) * y [MOD M] := hhalf.add_right _
      _ = T + x % 2 ^ (n + 1) * y := by rw [hlow]; ring

theorem mulSerial_eq_mp {M x y : Nat} (hM : LegalModulus M) (hx : x < radix) (hy : y < M) : mulSerial M x y = mp M x y := by
  refine condSub_eq_of_radix_mul hM (serialLoop_lt hy 256 x 0 (by omega)) ?_
  have h : radix * serialLoop M y 256 x 0 ≡ 0 + x % radix * y [MOD M] := serialLoop_modEq hM.1 y 256 x 0
  rwa [Nat.mod_eq_of_lt hx, zero_add] at h

/-! ### The statements about the multiplier -/

/-- Settles O29: both parts say that `Rinv(M)` times the radix is 1 in the ring of residues. -/
theorem radixInverse : Obligations.RadixInverse := by
  intro M hM
  exact ⟨isRadixInverse_iff hM, fun v hv => ⟨mont_lt hM v, unmont_lt hM v, unmont_mont hM hv, mont_unmont hM hv⟩⟩

/-- Settles O31: the product of two residues is below `M * R`, so `REDC` applies to it. -/
theorem redcIsMontgomeryProduct : Obligations.RedcIsMontgomeryProduct := by
  intro M hM hlt
  refine ⟨fun T hT => ⟨?exact, redc_quotient_lt (pos_of_legalModulus hM) hT, redc_eq hM hT⟩, fun x y hx hy => ?product⟩
  case exact => exact Nat.mod_eq_zero_of_dvd (radix_dvd_redc_dividend hM T)
  case product => exact (redc_eq hM (Nat.mul_lt_mul'' hx (hy.trans hlt))).symm

/-- Settles O32: the loop's invariant and its value after all 256 bits of `x`. -/
theorem bitSerialIsMontgomeryProduct : Obligations.BitSerialIsMontgomeryProduct := by
  intro M x y hM hx _ hy
  exact ⟨mulSerial_eq_mp hM hx hy, fun n _ => serialLoop_lt hy n x 0 (by omega)⟩

/-- Settles O33: `mp` by `R2` is the form, the form of `mp` is the product, and the form is a factor that the ring operations carry. -/
theorem montgomeryIdentities : Obligations.MontgomeryIdentities := by
  intro M x y hM _ hy
  exact ⟨(mp_r2 hM _).trans (mont_mp hM x y), mp_r2 hM x, mp_one M x, mp_mont_mont hM x y, fadd_mont_mont hM x y,
    fsub_mont_mont hM x hy.le⟩

end Sys2Proof.Arith

namespace Sys2Proof.Machine

/-! ### The commands (42 R182 to R184) -/

/-- `TOMONT` and `FROMMONT` have the operand form `fieldone` (42 R183, R184). -/
theorem exec_eq_fieldOne {d a : FIdx} {i : Instr} (hi : i ∈ [Instr.tomont d a, .frommont d a]) (s : State) :
    ∃ k, exec i s = fieldOne a s k := by
  simp only [List.mem_cons, List.not_mem_nil, or_false] at hi
  obtain rfl | rfl := hi
  · exact ⟨_, rfl⟩
  · exact ⟨_, rfl⟩

/-- Settles O28: the faults are those of the operand forms; the inverse of the radix is `Rinv(M)` (`isRadixInverse_iff`), and each value is
a remainder by the bank's modulus. -/
theorem montgomeryCommandsMeaning : Obligations.MontgomeryCommandsMeaning := by
  intro d a b s hlegal
  refine ⟨spells_fieldsOfInstr (.mmul d a b), spells_fieldsOfInstr (.tomont d a), spells_fieldsOfInstr (.frommont d a),
    fun h => fieldPair_uninit h _, fun ra rb ha hb h => fieldPair_domain ha hb h _, fun i hi => ?faults,
    fun n x m ri ha hm hpos hlt hri => ?values⟩
  case faults =>
    obtain ⟨k, hk⟩ := exec_eq_fieldOne hi s
    rw [hk]
    exact ⟨fun h => srcF_none h _, fun ra ha h => fieldOne_domain ha h k⟩
  case values =>
    have hM : LegalModulus m.toNat := hlegal n m hm
    have hrinv : ri = Arith.rinv m.toNat := (Arith.isRadixInverse_iff hM ri).mp ⟨hpos, hlt, hri⟩
    rw [hrinv]
    refine ⟨(Arith.mp_r2 hM x.toNat).symm, (Arith.mp_one m.toNat x.toNat).symm, ?tomont, ?frommont, fun y hb => ?mmul⟩
    case tomont => exact (fieldOne_some ha hm _).trans (finishF_mod hM _ d n.tag)
    case frommont => exact (fieldOne_some ha hm _).trans (finishF_mod hM _ d n.tag)
    case mmul => exact (fieldPair_some ha hb hm _).trans (finishF_mod hM _ d n.tag)

end Sys2Proof.Machine
end

section
/-! PROOFS. Group addition over a prime modulus (43 R200, R211): its helpers are the operations of the field `ZMod M`, and the third point
of a chord or a tangent is on the curve, singular or not (10 R35 I6). -/

namespace Sys2Proof.Arith

open Sys2Proof.Machine (LegalModulus PointOn PointReduced)

/-! ### The division of the slope (41 R158, R160; 43 R200) -/

section
variable {M : Nat} [Fact M.Prime] (hM : LegalModulus M) (hlt : M < 2 ^ 256)
include hM hlt

/-- Fermat: the engine's inverse is the inverse of the field, and 0 where there is none. -/
theorem cast_finv (u : Nat) : (finv M u : ZMod M) = (u : ZMod M)⁻¹ := by
  have h3 : 3 ≤ M := hM.2
  rw [finv, powmod_eq (Nat.le_of_succ_le h3) u ((Nat.sub_le M 2).trans_lt hlt), ZMod.natCast_mod, Nat.cast_pow]
  by_cases hu : (u : ZMod M) = 0
  · rw [hu, inv_zero, zero_pow (by omega)]
  · refine eq_inv_of_mul_eq_one_left ?_
    rw [← pow_succ, show M - 2 + 1 = M - 1 by omega, ZMod.pow_card_sub_one_eq_one hu]

theorem cast_fdiv (u v : Nat) : (fdiv M u v : ZMod M) = u / v := by
  rw [fdiv, cast_fmul, cast_finv hM hlt, div_eq_mul_inv]

end

/-! ### The cases of group addition (43 R211) -/

@[simp] theorem padd_infinity_left (M A : Nat) (Q : Point Nat) : padd M A .infinity Q = Q := rfl

@[simp] theorem padd_infinity_right (M A : Nat) (P : Point Nat) : padd M A P .infinity = P := by cases P <;> rfl

theorem padd_opposite {M A x y1 y2 : Nat} (h : y1 ≠ y2) : padd M A (.affine x y1) (.affine x y2) = .infinity := by
  simp [padd, h]

theorem padd_self_of_y_zero (M A x : Nat) : padd M A (.affine x 0) (.affine x 0) = .infinity := by
  simp [padd]

/-- The third point of a line, with residues of `M` for coordinates, by its equations in the ring. -/
theorem lineThird_spec {M x1 y1 x2 : Nat} (sl : Nat) (hx1 : x1 < M) (hy1 : y1 < M) (hx2 : x2 < M) :
    ∃ x3 y3 : Nat, lineThird M sl x1 y1 x2 = .affine x3 y3 ∧ x3 < M ∧ y3 < M ∧
      (x3 : ZMod M) = sl * sl - x1 - x2 ∧ (y3 : ZMod M) = sl * (x1 - x3) - y1 := by
  have hpos : 0 < M := Nat.zero_lt_of_lt hx1
  have hx3 : fsub M (fsub M (fmul M sl sl) x1) x2 < M := Nat.mod_lt _ hpos
  refine ⟨_, _, rfl, hx3, Nat.mod_lt _ hpos, ?_, ?_⟩
  · rw [cast_fsub M _ hx2.le, cast_fsub M _ hx1.le, cast_fmul]
  · rw [cast_fsub M _ hy1.le, cast_fmul, cast_fsub M _ hx3.le]

section
variable {M x1 y1 x2 y2 : Nat} (A : Nat) (hp : M.Prime) (hM : LegalModulus M) (hlt : M < 2 ^ 256) (hx1 : x1 < M) (hy1 : y1 < M)
include hp hM hlt hx1 hy1

/-- Case 3 of 43 R211, the chord through two points with different abscissas. -/
theorem padd_chord (hx2 : x2 < M) (hne : x1 ≠ x2) :
    ∃ sl x3 y3 : Nat, padd M A (.affine x1 y1) (.affine x2 y2) = .affine x3 y3 ∧ x3 < M ∧ y3 < M ∧
      (sl : ZMod M) * (x2 - x1) = y2 - y1 ∧ (x3 : ZMod M) = sl * sl - x1 - x2 ∧ (y3 : ZMod M) = sl * (x1 - x3) - y1 := by
  have : Fact M.Prime := ⟨hp⟩
  obtain ⟨x3, y3, hthird, hx3, hy3, hcx, hcy⟩ := lineThird_spec (fdiv M (fsub M y2 y1) (fsub M x2 x1)) hx1 hy1 hx2
  refine ⟨_, x3, y3, ?_, hx3, hy3, ?_, hcx, hcy⟩
  · simpa [padd, hne] using hthird
  · have hdx : (x2 : ZMod M) - x1 ≠ 0 := sub_ne_zero.mpr fun h => hne (eq_of_cast_eq hx2 hx1 h).symm
    rw [cast_fdiv hM hlt, cast_fsub M _ hy1.le, cast_fsub M _ hx1.le, div_mul_cancel₀ _ hdx]

/-- Case 5 of 43 R211, the tangent at a point with `y ≠ 0`. -/
theorem padd_tangent (hy : y1 ≠ 0) :
    ∃ sl x3 y3 : Nat, padd M A (.affine x1 y1) (.affine x1 y1) = .affine x3 y3 ∧ x3 < M ∧ y3 < M ∧
      (sl : ZMod M) * (2 * y1) = 3 * x1 * x1 + A ∧ (x3 : ZMod M) = sl * sl - x1 - x1 ∧ (y3 : ZMod M) = sl * (x1 - x3) - y1 := by
  have : Fact M.Prime := ⟨hp⟩
  obtain ⟨x3, y3, hthird, hx3, hy3, hcx, hcy⟩ := lineThird_spec (fdiv M ((3 * x1 * x1 + A) % M) ((2 * y1) % M)) hx1 hy1 hx1
  refine ⟨_, x3, y3, ?_, hx3, hy3, ?_, hcx, hcy⟩
  · simpa [padd, hy] using hthird
  · have hpos : 0 < M := hp.pos
    have htwo : (2 : ZMod M) ≠ 0 := fun h => two_ne_zero (eq_of_cast_eq hM.2 hpos (mod_cast h))
    have hcy1 : (y1 : ZMod M) ≠ 0 := fun h => hy (eq_of_cast_eq hy1 hpos (by rw [h, Nat.cast_zero]))
    have hden : (2 : ZMod M) * y1 ≠ 0 := mul_ne_zero htwo hcy1
    rw [cast_fdiv hM hlt, ZMod.natCast_mod, ZMod.natCast_mod]
    push_cast
    rw [div_mul_cancel₀ _ hden]

end

/-- Settles O38: the model's cases in their order; the slopes are quotients of the field. -/
theorem groupAdditionCases : Obligations.GroupAdditionCases := by
  intro M A x1 y1 x2 y2 hp hM hlt hx1 hy1 hx2 hy2
  refine ⟨padd_infinity_left M A, padd_infinity_right M A, fun hx hy => ?opposite, padd_chord A hp hM hlt hx1 hy1 hx2,
    fun hy => ?order_two, padd_tangent A hp hM hlt hx1 hy1⟩
  case opposite =>
    subst hx
    exact padd_opposite hy
  case order_two =>
    subst hy
    exact padd_self_of_y_zero M A x1

/-! ### Sums of points of a curve are on it (10 R35 I6) -/

/-- The curve equation in the ring of residues (00 R12). -/
theorem onCurve_iff {M A B x y : Nat} :
    onCurve M A B x y = true ↔ (y : ZMod M) * y = (x : ZMod M) * x * x + A * x + B := by
  rw [onCurve, beq_iff_eq]
  refine (ZMod.natCast_eq_natCast_iff' _ _ M).symm.trans ?_
  push_cast
  rfl

section
variable {F : Type} [Field F] {a b l x1 y1 x2 y2 x3 y3 : F}

/-- Put into the curve equation, a line through a point of the curve leaves a quadratic; if `x2` solves it, so does the third abscissa. -/
theorem third_on_curve (h1 : y1 * y1 = x1 * x1 * x1 + a * x1 + b) (hroot : x2 * x2 + x2 * x1 + x1 * x1 + a = l * l * (x2 - x1) + 2 * l * y1)
    (hx3 : x3 = l * l - x1 - x2) (hy3 : y3 = l * (x1 - x3) - y1) : y3 * y3 = x3 * x3 * x3 + a * x3 + b := by
  subst hy3 hx3
  linear_combination h1 - (l * l - 2 * x1 - x2) * hroot

/-- The second point of a chord solves that quadratic. -/
theorem chord_root (h1 : y1 * y1 = x1 * x1 * x1 + a * x1 + b) (h2 : y2 * y2 = x2 * x2 * x2 + a * x2 + b) (hne : x1 ≠ x2)
    (hl : l * (x2 - x1) = y2 - y1) : x2 * x2 + x2 * x1 + x1 * x1 + a = l * l * (x2 - x1) + 2 * l * y1 := by
  obtain rfl : y2 = l * (x2 - x1) + y1 := by linear_combination -hl
  refine mul_left_cancel₀ (sub_ne_zero.mpr hne.symm) ?_
  linear_combination h1 - h2

end

/-- Over a prime modulus group addition does not leave a curve: by case of 43 R211. -/
theorem padd_pointOn {M A B : Nat} {P Q : Point Nat} (hp : M.Prime) (hM : LegalModulus M) (hlt : M < 2 ^ 256) (hPr : PointReduced M P)
    (hQr : PointReduced M Q) (hP : PointOn M A B P) (hQ : PointOn M A B Q) : PointOn M A B (padd M A P Q) := by
  have : Fact M.Prime := ⟨hp⟩
  cases P with
  | infinity => exact hQ
  | affine x1 y1 =>
  cases Q with
  | infinity => exact hP
  | affine x2 y2 =>
  obtain ⟨hx1, hy1⟩ := hPr x1 y1 rfl
  obtain ⟨hx2, hy2⟩ := hQr x2 y2 rfl
  have h1 := onCurve_iff.mp (hP x1 y1 rfl)
  have h2 := onCurve_iff.mp (hQ x2 y2 rfl)
  by_cases hx : x1 = x2
  case neg =>
    obtain ⟨sl, x3, y3, hsum, -, -, hsl, hx3, hy3⟩ := padd_chord A hp hM hlt hx1 hy1 hx2 hx
    have hne : (x1 : ZMod M) ≠ x2 := fun h => hx (eq_of_cast_eq hx1 hx2 h)
    rintro x y hxy
    cases hsum.symm.trans hxy
    exact onCurve_iff.mpr (third_on_curve h1 (chord_root h1 h2 hne hsl) hx3 hy3)
  subst hx
  by_cases hy : y1 = y2
  case neg =>
    rw [padd_opposite hy]
    exact nofun
  subst hy
  by_cases hzero : y1 = 0
  · subst hzero
    rw [padd_self_of_y_zero]
    exact nofun
  · obtain ⟨sl, x3, y3, hsum, -, -, hsl, hx3, hy3⟩ := padd_tangent A hp hM hlt hx1 hy1 hzero
    rintro x y hxy
    cases hsum.symm.trans hxy
    exact onCurve_iff.mpr (third_on_curve h1 (by linear_combination -hsl) hx3 hy3)

end Sys2Proof.Arith
end

section
/-! PROOFS. Every step keeps the points on their curves (10 R35 I6): the commands by their effects, the host's events because they write no
register but by a reset. -/

namespace Sys2Proof.Machine

/-! ### The commands -/

section
variable {s : State}

/-- The write of a point that is on its curve. -/
theorem PointsOnCurve.writeP (h : PointsOnCurve s) (d : PIdx) {c : CurveIdx} {q : Point Word} (hq : OnItsCurve s c q) :
    PointsOnCurve (writeP d c q s) := by
  intro i r m k hr hm hp hk
  rw [writeP_pReg] at hr
  split at hr
  · cases hr
    exact hq m k hm hp hk
  · exact h i r m k hr hm hp hk

/-- `LDMOD FP` leaves no point; `LDMOD FN` leaves the points and all that they rest on. -/
theorem PointsOnCurve.loadModulus (h : PointsOnCurve s) (b : Bank) (v : Word) : PointsOnCurve (loadModulus b v s) := by
  intro i r m k hr hm hp hk
  rw [loadModulus_pReg] at hr
  cases b with
  | fp => cases hr
  | fn => exact h i r m k hr hm hp hk

/-- `LDCRV` leaves only points of the other curve bank. -/
theorem PointsOnCurve.loadCurve (h : PointsOnCurve s) (c : CurveIdx) (v : Curve) : PointsOnCurve (loadCurve c v s) := by
  intro i r m k hr hm hp hk
  rw [loadCurve_pReg, dropCurve_eq_some] at hr
  obtain ⟨hr, hne⟩ := hr
  rw [loadCurve_curve, if_neg hne] at hk
  exact h i r m k hr hm hp hk

/-- A sum of valid points of a curve over a prime modulus is on that curve: reduced points of it are closed under group addition. -/
theorem onItsCurve_of_groupSum (hs : StateInv s) (h : PointsOnCurve s) {c : CurveIdx} {m : Word} {k : Curve} {Q : Point Nat}
    (hm : s.modFP = some m) (hp : m.toNat.Prime) (hk : s.curve c = some k) (hQ : GroupSum s m.toNat k Q) :
    OnItsCurve s c (Q.map Arith.toWord) := by
  have hsum : PointReduced m.toNat Q ∧ PointOn m.toNat k.a.toNat k.b.toNat Q := by
    refine hQ (fun P => PointReduced m.toNat P ∧ PointOn m.toNat k.a.toNat k.b.toNat P) ⟨nofun, nofun⟩ ?add ?registers
    case add =>
      rintro P P' ⟨hPr, hP⟩ ⟨hPr', hP'⟩
      exact ⟨padd_reduced hp.pos _ hPr hPr', Arith.padd_pointOn hp (hs.moduli .fp m hm) m.isLt hPr hPr' hP hP'⟩
    case registers =>
      intro i q hq hcrv
      obtain ⟨-, m', hm', hr⟩ := hs.points i q hq
      cases hm.symm.trans hm'
      exact ⟨hr, h i q m k hq hm hp hcrv⟩
  intro m' k' hm' _ hk'
  cases hm.symm.trans hm'
  cases hk.symm.trans hk'
  rw [ptOf_map_toWord hsum.1]
  exact hsum.2

/-- Every command keeps the points on their curves; over a composite modulus there is nothing to keep. -/
theorem exec_keeps_pointsOnCurve {i : Instr} {t : State} (hs : StateInv s) (h : PointsOnCurve s) (hexec : exec i s = .next t) :
    PointsOnCurve t := by
  cases exec_cases hexec with
  | fault _ _ ht | field _ _ _ _ _ ht | buffer _ _ _ _ ht | compareF _ _ _ _ _ _ _ ht | compareP _ _ _ _ _ _ _ ht | test _ _ _ _ ht =>
    rw [ht]
    exact h
  | modulus b _ _ ht =>
    rw [ht]
    exact h.loadModulus b s.dbuf
  | curve _ _ c x y _ _ _ ht =>
    rw [ht]
    exact h.loadCurve c ⟨x, y⟩
  | point d c q _ _ hq ht =>
    rw [ht]
    exact h.writeP d (hq h)
  | sum d c m k Q _ hm hp hk hQ ht =>
    rw [ht]
    exact h.writeP d (onItsCurve_of_groupSum hs h hm hp hk hQ)
  | free d c m k _ hm hc _ ht =>
    rw [ht]
    refine h.writeP d fun m' k' hm' hp' => ?_
    cases hm.symm.trans hm'
    exact absurd hp' hc

end

/-! ### The events that do not give the unit its turn -/

/-- The banks and the registers of the unit (10 R21 to R26). -/
def registers (s : State) :
    Option Word × Option Word × Option Curve × Option Curve × Vector (Option FReg) 16 × Vector (Option PReg) 8 :=
  (s.modFP, s.modFN, s.crv0, s.crv1, s.f, s.p)

theorem PointsOnCurve.of_registers_eq {s t : State} (h : PointsOnCurve s) (hsame : registers t = registers s) : PointsOnCurve t := by
  simp only [registers, Prod.mk.injEq] at hsame
  obtain ⟨hmodFP, -, hcrv0, hcrv1, -, hp⟩ := hsame
  have hpReg (i : PIdx) : t.pReg i = s.pReg i := congrArg (fun v : Vector (Option PReg) 8 => v[i]) hp
  have hcurve (c : CurveIdx) : t.curve c = s.curve c := by
    cases c with
    | c0 => exact hcrv0
    | c1 => exact hcrv1
  intro i q m k hq hm hprime hk
  exact h i q m k ((hpReg i).symm.trans hq) (hmodFP.symm.trans hm) hprime ((hcurve q.crv).symm.trans hk)

theorem IsResetState.pointsOnCurve {t : State} (h : IsResetState t) : PointsOnCurve t := by
  obtain ⟨-, -, -, -, -, -, -, -, -, -, -, hP⟩ := h
  intro i q m k hq
  cases (hP i).symm.trans hq

/-- A host write changes no register and no bank, or is a reset (20 R66 to R69). -/
theorem hostWrite_registers (r : WinReg) (v : Word32) (s : State) :
    IsResetState (hostWrite r v s) ∨ registers (hostWrite r v s) = registers s := by
  cases hheld : s.inReset with
  | true =>
    rw [hostWrite_held hheld]
    exact .inr rfl
  | false =>
    cases r with
    | id | status | reserved =>
      rw [hostWrite_ignored (by simp)]
      exact .inr rfl
    | cmd =>
      by_cases hidle : s.run = .idle
      · rw [hostWrite_cmd_idle hheld hidle]
        exact .inr rfl
      · rw [hostWrite_dropped hheld hidle (.inl rfl)]
        exact .inr rfl
    | dbuf k =>
      by_cases hidle : s.run = .idle
      · rw [hostWrite_dbuf_idle hheld hidle]
        exact .inr rfl
      · rw [hostWrite_dropped hheld hidle (.inr ⟨k, rfl⟩)]
        exact .inr rfl
    | ctrl =>
      rw [hostWrite_ctrl hheld]
      split
      · exact .inl (isResetState_unitReset s)
      · exact .inr rfl

/-- An event other than the unit's turn changes no register and no bank, or is a reset (20 R71, 70 R300). -/
theorem applyEvent_registers {e : Event} {s t : State} (he : e ≠ .unitTurn) (h : applyEvent e s = .next t) :
    IsResetState t ∨ registers t = registers s := by
  cases e with
  | unitTurn => exact absurd rfl he
  | read r =>
    cases h
    exact .inr rfl
  | write r v =>
    cases h
    exact hostWrite_registers r v s
  | assertReset =>
    cases h
    exact .inl (isResetState_assertReset s)
  | releaseReset =>
    cases h
    cases hheld : s.inReset with
    | true => exact .inl (isResetState_releaseReset hheld)
    | false =>
      rw [releaseReset_released hheld]
      exact .inr rfl

/-! ### The step -/

theorem unitMove_keeps_pointsOnCurve {s t : State} (hs : StateInv s) (h : PointsOnCurve s) (hmove : unitMove s = .next t) :
    PointsOnCurve t := by
  obtain rfl | ⟨-, -, hcomplete⟩ := unitMove_cases hmove
  · exact h
  obtain ⟨i, -, hexec⟩ | ⟨why, -, rfl⟩ := complete_cases hcomplete
  · exact exec_keeps_pointsOnCurve hs h hexec
  · exact h

/-- The invariant says nothing of the events still to come, but that a unit held in reset is as after reset, whatever they are. -/
theorem StateInv.withEvents {s : State} (h : StateInv s) (events : List Event) : StateInv { s with events := events } where
  moduli := h.moduli
  fields := h.fields
  curves := h.curves
  points := h.points
  code := h.code
  held := fun hheld => congrArg (fun u : State => { u with events := events }) (h.held hheld)

/-- Settles O49: the unit's own step by the effect of its command; every other event keeps all registers or resets the unit. -/
theorem stepKeepsPointsOnCurve : Obligations.StepKeepsPointsOnCurve := by
  intro s t hs h hstep
  obtain ⟨-, hmove⟩ | ⟨e, rest, hne, -, happly⟩ := step_cases hstep
  · exact unitMove_keeps_pointsOnCurve (hs.withEvents s.events.tail) h hmove
  · obtain hreset | hsame := applyEvent_registers hne happly
    · exact hreset.pointsOnCurve
    · exact h.of_registers_eq hsame

end Sys2Proof.Machine
end

section
/-! PROOFS. The point commands (43 R204 to R216): the fields of their words, the faults of their operands and the ends of a command that
writes a point, and from these the commands. -/

namespace Sys2Proof

/-! ### The fields of a point command as numbers (30 R92, R93) -/

@[simp] theorem toNat_ofP (i : PIdx) : (ofP i).toNat = i.val := by
  revert i; decide

/-- The `imm` of `LDP` is the sum of its selectors (43 R204). -/
theorem toNat_ldp_imm (c : CurveIdx) (px py : Bool) :
    (ofCurve c ||| ofSel 1 px ||| ofSel 2 py).toNat = Machine.curveNum c + 2 * px.toNat + 4 * py.toNat := by
  cases c <;> cases px <;> cases py <;> rfl

/-- A point is infinity whatever its coordinates are made into. -/
@[simp] theorem Point.isInf_map {α β : Type} (g : α → β) (q : Point α) : (q.map g).isInf = q.isInf := by cases q <;> rfl

end Sys2Proof

namespace Sys2Proof.Machine

/-! ### Operands and their faults (43 R200, R204, R210, R212) -/

section
variable {s : State}

theorem needCurve_none {c : CurveIdx} (h : s.curve c = none) (k : Curve → Out) : needCurve c s k = .next (faultRecord .nocrv s) := by
  rw [needCurve, h]
  rfl

/-- Of two point registers, one that is not valid makes the command fault with `E_UNINIT`, before any curve is read. -/
theorem pointPair_uninit {a b : PIdx} (h : s.pReg a = none ∨ s.pReg b = none) (k : PReg → PReg → Curve → Out) :
    pointPair a b s k = .next (faultRecord .uninit s) := by
  cases ha : s.pReg a with
  | none => exact srcP_none ha _
  | some qa =>
    have hb : s.pReg b = none := h.resolve_left (by simp [ha])
    exact (srcP_some ha _).trans (srcP_none hb _)

/-- Points of curves with different parameters fault with `E_CURVE`. -/
theorem pointPair_curve {a b : PIdx} {qa qb : PReg} {ka kb : Curve} (ha : s.pReg a = some qa) (hb : s.pReg b = some qb)
    (hka : s.curve qa.crv = some ka) (hkb : s.curve qb.crv = some kb) (hne : ka ≠ kb) (k : PReg → PReg → Curve → Out) :
    pointPair a b s k = .next (faultRecord .curve s) := by
  rw [pointPair, srcP_some ha, srcP_some hb, pointCurve_some hka, pointCurve_some hkb]
  exact require_neg (by simpa using hne)

/-- A point register taken twice is read once: a curve is equal to itself. -/
theorem pointPair_self (a : PIdx) (s : State) (k : PReg → PReg → Curve → Out) :
    pointPair a a s k = srcP a s fun ra => pointCurve ra s fun v => k ra ra v := by
  cases ha : s.pReg a with
  | none => exact (srcP_none ha _).trans (srcP_none ha _).symm
  | some qa =>
    rw [pointPair, srcP_some ha, srcP_some ha, srcP_some ha]
    cases hv : s.curve qa.crv with
    | none => simp [pointCurve, hv]
    | some v => simp [pointCurve_some hv]

/-! ### The end of a command that writes a point (00 R11; 20 R70) -/

theorem map_toWord_ptOf (q : PReg) : (ptOf q).map Arith.toWord = q.pt := by
  obtain ⟨c, _ | ⟨x, y⟩⟩ := q <;> simp [ptOf, Point.map]

theorem retire_writeP (d : PIdx) (c : CurveIdx) (q : Point Nat) :
    retire (writeP d c (q.map Arith.toWord) s) = .next (wroteP d c q s) := by
  rw [wroteP, ← Point.isInf_map Arith.toWord]
  rfl

/-- Over a prime modulus a group command writes the group sum (43 R201). -/
theorem retire_writeGroup {M : Nat} (hp : M.Prime) (d : PIdx) (c : CurveIdx) (q : Point Nat) :
    retire (writeGroup d c M q s) = .next (wroteP d c q s) := by
  rw [writeGroup, if_pos ((Arith.isPrime_iff M).mpr hp), retire_writeP]

end

/-! ### The statements -/

/-- Settles O34: the two absent coordinates need the bank alone; the two present ones are read first, then the bank, the tags and the
curve equation are tested. -/
theorem ldpMeaning : Obligations.LdpMeaning := by
  intro d a b c px py s
  refine ⟨?spelled, fun hne => require_neg (by simpa using hne),
    fun hc => needCurve_none hc _, fun k hk => (needCurve_some hk _).trans (retire_writeP d c .infinity),
    fun h => srcF_srcF_none h _, fun rx ry hx hy => ?present⟩
  case spelled =>
    rw [← toNat_ldp_imm, ← toNat_ofP d]
    exact spells_fieldsOfInstr (.ldp d a b c px py)
  case present =>
    have hexec : exec (.ldp d a b c true true) s = needCurve c s fun k => require (rx.tag = .fp && ry.tag = .fp) .domain s <|
        coordModulus s fun M => require (Arith.onCurve M k.a.toNat k.b.toNat rx.val.toNat ry.val.toNat) .notOnCurve s <|
        retire (writeP d c (.affine rx.val ry.val) s) := (srcF_some hx _).trans (srcF_some hy _)
    rw [hexec]
    refine ⟨fun hc => needCurve_none hc _, fun k hk => ?_⟩
    rw [needCurve_some hk]
    refine ⟨fun htag => require_neg (by simpa [imp_iff_not_or] using htag), fun m htx hty hm => ?_⟩
    rw [require_pos (by simp [htx, hty]), coordModulus_some hm]
    have hwrite := retire_writeP (s := s) d c (.affine rx.val.toNat ry.val.toNat)
    rw [Point.map, Arith.toWord_toNat, Arith.toWord_toNat] at hwrite
    exact ⟨fun hoff => require_neg (by simpa [Arith.onCurve] using hoff),
      fun hon => (require_pos (by simpa [Arith.onCurve] using hon)).trans hwrite⟩

/-- Settles O35: the source, then the point by case. -/
theorem getxGetyMeaning : Obligations.GetxGetyMeaning := by
  intro d a s
  refine ⟨by simpa [fieldsOfInstr] using spells_fieldsOfInstr (.getx d a),
    by simpa [fieldsOfInstr] using spells_fieldsOfInstr (.gety d a),
    fun i hi => ?faults, fun q x y hq hpt => ?coordinates⟩
  case faults =>
    simp only [List.mem_cons, List.not_mem_nil, or_false] at hi
    obtain rfl | rfl := hi <;>
    · refine ⟨fun h => srcP_none h _, fun q hq hpt => (srcP_some hq _).trans ?_⟩
      obtain ⟨c, _ | ⟨x, y⟩⟩ := q
      · rfl
      · cases hpt
  case coordinates =>
    obtain ⟨c, _ | ⟨x', y'⟩⟩ := q
    · cases hpt
    · cases hpt
      exact ⟨(srcP_some hq _).trans (retire_writeF d .fp x'), (srcP_some hq _).trans (retire_writeF d .fp y')⟩

/-- Settles O36: both have the one source; a point is the word form of the mathematical one (`map_toWord_ptOf`). -/
theorem movpTstpMeaning : Obligations.MovpTstpMeaning := by
  intro d a s
  refine ⟨by simpa [fieldsOfInstr] using spells_fieldsOfInstr (.movp d a), by simpa [fieldsOfInstr] using spells_fieldsOfInstr (.tstp a),
    fun h => ⟨srcP_none h _, srcP_none h _⟩, fun q hq => ⟨?copied, ?tested⟩⟩
  case copied =>
    rw [← retire_writeP, map_toWord_ptOf]
    exact srcP_some hq _
  case tested =>
    rw [← infFlag_eq_decide]
    exact srcP_some hq _

/-- Settles O37: the faults are those of two points; points are equal exactly when the mathematical points are. -/
theorem cmppMeaning : Obligations.CmppMeaning := by
  intro a b s
  refine ⟨by simpa [fieldsOfInstr] using spells_fieldsOfInstr (.cmpp a b), fun h => pointPair_uninit h _,
    fun qa qb ka kb ha hb hka hkb => ⟨fun hne => pointPair_curve ha hb hka hkb hne _, fun heq => ?compared⟩⟩
  case compared =>
    subst heq
    have hpt : decide (ptOf qa = ptOf qb) = decide (qa.pt = qb.pt) := by simp only [ptOf_inj]
    rw [hpt]
    exact pointPair_some ha hb hka hkb _

/-- The effect of `PDBL` is that of `PADD` of a point and itself, in every state (43 R214). -/
theorem exec_pdbl (d a : PIdx) (s : State) : exec (.pdbl d a) s = exec (.padd d a a) s :=
  have hpadd : exec (.padd d a a) s = exec (.pdbl d a) s := pointPair_self a s _
  hpadd.symm

/-- `PADD` of two points of one curve over a prime modulus (43 R212). -/
theorem exec_padd_of_prime {s : State} {a b : PIdx} {qa qb : PReg} {k : Curve} {m : Word} (ha : s.pReg a = some qa)
    (hb : s.pReg b = some qb) (hka : s.curve qa.crv = some k) (hkb : s.curve qb.crv = some k) (hm : s.modFP = some m)
    (hp : m.toNat.Prime) (d : PIdx) :
    exec (.padd d a b) s = .next (wroteP d qa.crv (Arith.padd m.toNat k.a.toNat (ptOf qa) (ptOf qb)) s) :=
  (pointPair_some ha hb hka hkb _).trans ((coordModulus_some hm _).trans (retire_writeGroup hp d qa.crv _))

/-- Settles O39: `PADD` by its operands and the group sum; `PDBL` is `PADD` of a point and itself. -/
theorem paddPdblMeaning : Obligations.PaddPdblMeaning := by
  intro d a b s
  refine ⟨by simpa [fieldsOfInstr] using spells_fieldsOfInstr (.padd d a b),
    by simpa [fieldsOfInstr] using spells_fieldsOfInstr (.pdbl d a),
    fun h => pointPair_uninit h _, fun h => srcP_none h _,
    fun qa qb ka kb ha hb hka hkb hne => pointPair_curve ha hb hka hkb hne _,
    fun qa qb k m ha hb hka hkb hm hp => exec_padd_of_prime ha hb hka hkb hm hp d,
    fun qa k m ha hk hm hp => ?doubled, exec_pdbl d a s⟩
  case doubled =>
    rw [exec_pdbl]
    exact exec_padd_of_prime ha ha hk hk hm hp d

/-- Settles O40: the sources, then the scalar's bank, then its tag; the curve and the coordinate modulus are those of the point. -/
theorem smulMeaning : Obligations.SmulMeaning := by
  intro d a b s
  refine ⟨by simpa [fieldsOfInstr] using spells_fieldsOfInstr (.smul d a b), fun h => ?uninit, fun q r hq hr => ?valid⟩
  case uninit =>
    cases hq : s.pReg a with
    | none => exact srcP_none hq _
    | some q =>
      have hb : s.fReg b = none := h.resolve_left (by simp [hq])
      exact (srcP_some hq _).trans (srcF_none hb _)
  case valid =>
    have hexec : exec (.smul d a b) s = needModulus .fn s fun n => require (r.tag ≠ .fp) .domain s <|
        pointCurve q s fun k => coordModulus s fun M =>
        retire (writeGroup d q.crv M (Arith.smul M k.a.toNat (ptOf q) (r.val.toNat % n)) s) := (srcP_some hq _).trans (srcF_some hr _)
    rw [hexec]
    refine ⟨fun hn => needModulus_none (b := .fn) hn _, fun n hn => ?_⟩
    rw [needModulus_some (b := .fn) hn]
    refine ⟨fun htag => require_neg (by simpa using htag), fun k m htag hk hm hp => ?_⟩
    rw [require_pos (by simpa using htag), pointCurve_some hk, coordModulus_some hm]
    exact retire_writeGroup hp d q.crv _

end Sys2Proof.Machine
end

section
/-! PROOFS. The internal datapath (spec file 44). Over a prime modulus a triple stands for the point `(X / Z^2, Y / Z^3)` (44 R241); doubler
and adder carry the points their triples stand for to the third point of the tangent and of the chord (44 R246). On Montgomery forms every
operation of the datapath gives the form of its plain result (44 R247). -/

namespace Sys2Proof.Arith

open Sys2Proof.Machine (LegalModulus PointReduced padd_reduced)

/-! ### Triples of residues (44 R241) -/

/-- The coordinates of a triple are residues of `M` (44 R241). -/
structure TripleReduced (M : Nat) (T : Triple) : Prop where
  X : T.X < M
  Y : T.Y < M
  Z : T.Z < M

section
variable {M : Nat}

theorem fadd_lt (h : 0 < M) (u v : Nat) : fadd M u v < M := Nat.mod_lt _ h

theorem fdbl_lt (h : 0 < M) (u : Nat) : fdbl M u < M := fadd_lt h u u

theorem fsub_lt (h : 0 < M) (u v : Nat) : fsub M u v < M := Nat.mod_lt _ h

theorem fmul_lt (h : 0 < M) (u v : Nat) : fmul M u v < M := Nat.mod_lt _ h

theorem tripleReduced_jinf (h : 1 < M) : TripleReduced M jinf := ⟨h, h, Nat.zero_lt_of_lt h⟩

theorem tripleReduced_jentry (h : 1 < M) {P : Point Nat} (hP : PointReduced M P) : TripleReduced M (jentry P) := by
  cases P with
  | infinity => exact tripleReduced_jinf h
  | affine x y =>
    obtain ⟨hx, hy⟩ := hP x y rfl
    exact ⟨hx, hy, h⟩

/-- The triple the doubler computes where it does not answer infinity (44 R242). -/
def jtangent (M A : Nat) (T : Triple) : Triple :=
  let yy := fmul M T.Y T.Y
  let zz := fmul M T.Z T.Z
  let xx := fmul M T.X T.X
  let S := fdbl M (fdbl M (fmul M T.X yy))
  let m := fadd M (fadd M (fdbl M xx) xx) (fmul M A (fmul M zz zz))
  let X3 := fsub M (fmul M m m) (fdbl M S)
  ⟨X3, fsub M (fmul M m (fsub M S X3)) (fdbl M (fdbl M (fdbl M (fmul M yy yy)))), fdbl M (fmul M T.Y T.Z)⟩

theorem jdbl_of_zero {T : Triple} (A : Nat) (h : T.Z = 0 ∨ T.Y = 0) : jdbl M A T = jinf := if_pos h

theorem jdbl_of_ne_zero {T : Triple} (A : Nat) (h : ¬ (T.Z = 0 ∨ T.Y = 0)) : jdbl M A T = jtangent M A T := if_neg h

/-- The difference `H` of the adder's scaled abscissas (44 R243). -/
def xDiff (M : Nat) (T1 T2 : Triple) : Nat := fsub M (fmul M T2.X (fmul M T1.Z T1.Z)) (fmul M T1.X (fmul M T2.Z T2.Z))

/-- The difference `r` of the adder's scaled ordinates (44 R243). -/
def yDiff (M : Nat) (T1 T2 : Triple) : Nat :=
  fsub M (fmul M T2.Y (fmul M T1.Z (fmul M T1.Z T1.Z))) (fmul M T1.Y (fmul M T2.Z (fmul M T2.Z T2.Z)))

/-- The triple the adder computes for two points with different abscissas (44 R243). -/
def jchord (M : Nat) (T1 T2 : Triple) : Triple :=
  let H := xDiff M T1 T2
  let r := yDiff M T1 T2
  let HH := fmul M H H
  let HHH := fmul M H HH
  let V := fmul M (fmul M T1.X (fmul M T2.Z T2.Z)) HH
  let X3 := fsub M (fsub M (fmul M r r) HHH) (fdbl M V)
  ⟨X3, fsub M (fmul M r (fsub M V X3)) (fmul M (fmul M T1.Y (fmul M T2.Z (fmul M T2.Z T2.Z))) HHH), fmul M H (fmul M T1.Z T2.Z)⟩

theorem xDiff_lt (h : 0 < M) (T1 T2 : Triple) : xDiff M T1 T2 < M := fsub_lt h _ _

theorem yDiff_lt (h : 0 < M) (T1 T2 : Triple) : yDiff M T1 T2 < M := fsub_lt h _ _

theorem jadd_of_left_infinity {T1 : Triple} (A : Nat) (T2 : Triple) (h : T1.Z = 0) : jadd M A T1 T2 = T2 := if_pos h

section
variable {T1 T2 : Triple} (A : Nat) (h1 : T1.Z ≠ 0)
include h1

theorem jadd_of_right_infinity (h2 : T2.Z = 0) : jadd M A T1 T2 = T1 := (if_neg h1).trans (if_pos h2)

variable (h2 : T2.Z ≠ 0)
include h2

theorem jadd_of_equal (hH : xDiff M T1 T2 = 0) (hr : yDiff M T1 T2 = 0) : jadd M A T1 T2 = jdbl M A T1 :=
  (if_neg h1).trans <| (if_neg h2).trans <| (if_pos hH).trans (if_pos hr)

theorem jadd_of_opposite (hH : xDiff M T1 T2 = 0) (hr : yDiff M T1 T2 ≠ 0) : jadd M A T1 T2 = jinf :=
  (if_neg h1).trans <| (if_neg h2).trans <| (if_pos hH).trans (if_neg hr)

theorem jadd_of_distinct (hH : xDiff M T1 T2 ≠ 0) : jadd M A T1 T2 = jchord M T1 T2 :=
  (if_neg h1).trans <| (if_neg h2).trans (if_neg hH)

end

theorem tripleReduced_jdbl (h : 1 < M) (A : Nat) (T : Triple) : TripleReduced M (jdbl M A T) := by
  have hpos : 0 < M := Nat.zero_lt_of_lt h
  by_cases hz : T.Z = 0 ∨ T.Y = 0
  · rw [jdbl_of_zero A hz]
    exact tripleReduced_jinf h
  · rw [jdbl_of_ne_zero A hz]
    exact ⟨fsub_lt hpos _ _, fsub_lt hpos _ _, fdbl_lt hpos _⟩

theorem tripleReduced_jadd (h : 1 < M) (A : Nat) {T1 T2 : Triple} (hT1 : TripleReduced M T1) (hT2 : TripleReduced M T2) :
    TripleReduced M (jadd M A T1 T2) := by
  have hpos : 0 < M := Nat.zero_lt_of_lt h
  by_cases h1 : T1.Z = 0
  · rwa [jadd_of_left_infinity A T2 h1]
  by_cases h2 : T2.Z = 0
  · rwa [jadd_of_right_infinity A h1 h2]
  by_cases hH : xDiff M T1 T2 = 0
  · by_cases hr : yDiff M T1 T2 = 0
    · rw [jadd_of_equal A h1 h2 hH hr]
      exact tripleReduced_jdbl h A T1
    · rw [jadd_of_opposite A h1 h2 hH hr]
      exact tripleReduced_jinf h
  · rw [jadd_of_distinct A h1 h2 hH]
    exact ⟨fsub_lt hpos _ _, fsub_lt hpos _ _, fmul_lt hpos _ _⟩

end

/-! ### The datapath in the ring of residues (44 R242, R243) -/

section
variable {M : Nat}

theorem cast_eq_zero_iff {u : Nat} (hu : u < M) : (u : ZMod M) = 0 ↔ u = 0 :=
  ⟨fun h => eq_of_cast_eq hu (Nat.zero_lt_of_lt hu) (by rw [h, Nat.cast_zero]), fun h => by rw [h, Nat.cast_zero]⟩

theorem cast_fdbl (u : Nat) : (fdbl M u : ZMod M) = 2 * u := by rw [fdbl, cast_fadd, two_mul]

section
variable (h : 0 < M) {A : Nat} {T T1 T2 : Triple}
include h

theorem cast_fsub_fdbl (u v : Nat) : (fsub M u (fdbl M v) : ZMod M) = u - 2 * v := by
  rw [cast_fsub M u (fdbl_lt h v).le, cast_fdbl]

theorem cast_fsub_fmul (u v w : Nat) : (fsub M u (fmul M v w) : ZMod M) = u - v * w := by
  rw [cast_fsub M u (fmul_lt h v w).le, cast_fmul]

theorem cast_fsub_fsub (u v w : Nat) : (fsub M u (fsub M v w) : ZMod M) = u - fsub M v w := cast_fsub M u (fsub_lt h v w).le

/-- The first two coordinates the doubler computes, by its `M`, its `S` and its `8 * Y^4` (44 R242). -/
theorem cast_jtangent {m s t : ZMod M} (hm : m = 3 * T.X ^ 2 + A * T.Z ^ 4) (hs : s = 4 * T.X * T.Y ^ 2) (ht : t = 8 * T.Y ^ 4) :
    ((jtangent M A T).X : ZMod M) = m ^ 2 - s - s ∧ ((jtangent M A T).Y : ZMod M) = m * (s - (jtangent M A T).X) - t := by
  simp only [hm, hs, ht, jtangent, cast_fsub_fsub h, cast_fsub_fdbl h, cast_fdbl, cast_fadd, cast_fmul]
  exact ⟨by ring, by ring⟩

theorem cast_xDiff (T1 T2 : Triple) : (xDiff M T1 T2 : ZMod M) = T2.X * T1.Z ^ 2 - T1.X * T2.Z ^ 2 := by
  simp only [xDiff, cast_fsub_fmul h, cast_fmul, sq]

theorem cast_yDiff (T1 T2 : Triple) : (yDiff M T1 T2 : ZMod M) = T2.Y * T1.Z ^ 3 - T1.Y * T2.Z ^ 3 := by
  simp only [yDiff, cast_fsub_fmul h, cast_fmul, pow_succ', pow_zero, mul_one]

/-- The first two coordinates the adder computes, by its `r`, its `V`, its `V + H^3` and its `S1 * H^3` (44 R243). -/
theorem cast_jchord {r v v' t : ZMod M} (hr : r = yDiff M T1 T2) (hv : v = T1.X * T2.Z ^ 2 * xDiff M T1 T2 ^ 2)
    (hv' : v' = v + xDiff M T1 T2 ^ 3) (ht : t = T1.Y * T2.Z ^ 3 * xDiff M T1 T2 ^ 3) :
    ((jchord M T1 T2).X : ZMod M) = r ^ 2 - v - v' ∧ ((jchord M T1 T2).Y : ZMod M) = r * (v - (jchord M T1 T2).X) - t := by
  simp only [hr, hv, hv', ht, jchord, cast_fsub_fsub h, cast_fsub_fdbl h, cast_fsub_fmul h, cast_fmul]
  exact ⟨by ring, by ring⟩

end

theorem cast_jtangent_Z (A : Nat) (T : Triple) : ((jtangent M A T).Z : ZMod M) = 2 * (T.Y * T.Z) := by
  rw [jtangent, cast_fdbl, cast_fmul]

theorem cast_jchord_Z (T1 T2 : Triple) : ((jchord M T1 T2).Z : ZMod M) = xDiff M T1 T2 * (T1.Z * T2.Z) := by
  rw [jchord, cast_fmul, cast_fmul]

end

/-! ### The point a triple stands for (44 R241, R244) -/

/-- The triple stands for the affine point `(x, y)` modulo `M` (44 R241). -/
structure StandsFor (M : Nat) (T : Triple) (x y : Nat) : Prop where
  z_ne : (T.Z : ZMod M) ≠ 0
  x_eq : (T.X : ZMod M) = x * T.Z ^ 2
  y_eq : (T.Y : ZMod M) = y * T.Z ^ 3

theorem jnorm_of_z_zero {M : Nat} {T : Triple} (h : T.Z = 0) : jnorm M T = .infinity := if_pos h

theorem StandsFor.ne_zero {M x y : Nat} {T : Triple} (h : StandsFor M T x y) : T.Z ≠ 0 := fun h0 => h.z_ne (by rw [h0, Nat.cast_zero])

section
variable {M : Nat} [Fact M.Prime] (hM : LegalModulus M) (hlt : M < 2 ^ 256)
include hM hlt

/-- Normalisation computes the point a triple stands for (44 R244). -/
theorem jnorm_of_standsFor {T : Triple} {x y : Nat} (h : StandsFor M T x y) (hx : x < M) (hy : y < M) : jnorm M T = .affine x y := by
  have hpos : 0 < M := pos_of_legalModulus hM
  have hne : T.Z ≠ 0 := h.ne_zero
  obtain ⟨hz, hX, hY⟩ := h
  rw [jnorm_eq, if_neg hne]
  congr 1
  · refine eq_of_cast_eq (fmul_lt hpos _ _) hx ?_
    simp only [cast_fmul, cast_finv hM hlt, hX]
    field_simp
  · refine eq_of_cast_eq (fmul_lt hpos _ _) hy ?_
    simp only [cast_fmul, cast_finv hM hlt, hY]
    field_simp

/-- A triple with `Z ≠ 0` stands for a point (44 R241). -/
theorem exists_standsFor {T : Triple} (hT : TripleReduced M T) (hz : T.Z ≠ 0) :
    ∃ x y, x < M ∧ y < M ∧ StandsFor M T x y ∧ jnorm M T = .affine x y := by
  have hcz : (T.Z : ZMod M) ≠ 0 := (cast_eq_zero_iff hT.Z).not.mpr hz
  have hsf : StandsFor M T (T.X / T.Z ^ 2 : ZMod M).val (T.Y / T.Z ^ 3 : ZMod M).val :=
    ⟨hcz, by rw [ZMod.natCast_zmod_val]; field_simp, by rw [ZMod.natCast_zmod_val]; field_simp⟩
  exact ⟨_, _, ZMod.val_lt _, ZMod.val_lt _, hsf, jnorm_of_standsFor hM hlt hsf (ZMod.val_lt _) (ZMod.val_lt _)⟩

/-- Normalisation undoes the entry into the datapath (44 R241, R244). -/
theorem jnorm_jentry {P : Point Nat} (hP : PointReduced M P) : jnorm M (jentry P) = P := by
  cases P with
  | infinity => rfl
  | affine x y =>
    obtain ⟨hx, hy⟩ := hP x y rfl
    refine jnorm_of_standsFor hM hlt ⟨?_, ?_, ?_⟩ hx hy
    · rw [jentry, Nat.cast_one]
      exact one_ne_zero
    · simp [jentry]
    · simp [jentry]

end

/-! ### Doubler and adder compute the tangent and the chord (44 R246) -/

section
variable {M A x1 y1 x2 y2 x3 y3 sl : Nat} {T1 T2 : Triple}

/-- The third point of a line, its equations scaled by a triple's `Z`: what tangent and chord share. -/
theorem standsFor_third {T : Triple} {m s s' t : ZMod M} (hz : (T.Z : ZMod M) ≠ 0) (hm : m = sl * T.Z) (hs : s = x1 * T.Z ^ 2)
    (hs' : s' = x2 * T.Z ^ 2) (ht : t = y1 * T.Z ^ 3) (hT : (T.X : ZMod M) = m ^ 2 - s - s' ∧ (T.Y : ZMod M) = m * (s - T.X) - t)
    (hx3 : (x3 : ZMod M) = sl * sl - x1 - x2) (hy3 : (y3 : ZMod M) = sl * (x1 - x3) - y1) : StandsFor M T x3 y3 := by
  obtain ⟨hX, hY⟩ := hT
  subst hm hs hs' ht
  have hX3 : (T.X : ZMod M) = x3 * T.Z ^ 2 := by rw [hX, hx3]; ring
  refine ⟨hz, hX3, ?_⟩
  rw [hY, hX3, hy3]
  ring

theorem cast_xDiff_of_standsFor (h : 0 < M) (h1 : StandsFor M T1 x1 y1) (h2 : StandsFor M T2 x2 y2) :
    (xDiff M T1 T2 : ZMod M) = (x2 - x1) * (T1.Z * T2.Z) ^ 2 := by
  rw [cast_xDiff h, h1.x_eq, h2.x_eq]
  ring

theorem cast_yDiff_of_standsFor (h : 0 < M) (h1 : StandsFor M T1 x1 y1) (h2 : StandsFor M T2 x2 y2) :
    (yDiff M T1 T2 : ZMod M) = (y2 - y1) * (T1.Z * T2.Z) ^ 3 := by
  rw [cast_yDiff h, h1.y_eq, h2.y_eq]
  ring

variable [Fact M.Prime]

theorem cast_sub_mul_eq_zero_iff {u v : Nat} {z : ZMod M} (hu : u < M) (hv : v < M) (hz : z ≠ 0) :
    ((u : ZMod M) - v) * z = 0 ↔ u = v := by
  rw [mul_eq_zero_iff_right hz, sub_eq_zero]
  exact ⟨eq_of_cast_eq hu hv, congrArg _⟩

/-- The doubler's test for a point of order two (44 R242). -/
theorem StandsFor.y_eq_zero_iff (h : StandsFor M T1 x1 y1) (hY : T1.Y < M) (hy : y1 < M) : T1.Y = 0 ↔ y1 = 0 := by
  rw [← cast_eq_zero_iff hY, h.y_eq, mul_eq_zero_iff_right (pow_ne_zero 3 h.z_ne), cast_eq_zero_iff hy]

/-- The adder's test for equal abscissas (44 R243). -/
theorem xDiff_eq_zero_iff (h1 : StandsFor M T1 x1 y1) (h2 : StandsFor M T2 x2 y2) (hx1 : x1 < M) (hx2 : x2 < M) :
    xDiff M T1 T2 = 0 ↔ x2 = x1 := by
  have hpos : 0 < M := Nat.zero_lt_of_lt hx1
  rw [← cast_eq_zero_iff (xDiff_lt hpos T1 T2), cast_xDiff_of_standsFor hpos h1 h2]
  exact cast_sub_mul_eq_zero_iff hx2 hx1 (pow_ne_zero 2 (mul_ne_zero h1.z_ne h2.z_ne))

/-- The adder's test for equal ordinates (44 R243). -/
theorem yDiff_eq_zero_iff (h1 : StandsFor M T1 x1 y1) (h2 : StandsFor M T2 x2 y2) (hy1 : y1 < M) (hy2 : y2 < M) :
    yDiff M T1 T2 = 0 ↔ y2 = y1 := by
  have hpos : 0 < M := Nat.zero_lt_of_lt hy1
  rw [← cast_eq_zero_iff (yDiff_lt hpos T1 T2), cast_yDiff_of_standsFor hpos h1 h2]
  exact cast_sub_mul_eq_zero_iff hy2 hy1 (pow_ne_zero 3 (mul_ne_zero h1.z_ne h2.z_ne))

/-- The doubler's triple stands for the tangent's third point. -/
theorem standsFor_jtangent (htwo : (2 : ZMod M) ≠ 0) (h : StandsFor M T1 x1 y1) (hy : (y1 : ZMod M) ≠ 0)
    (hsl : (sl : ZMod M) * (2 * y1) = 3 * x1 * x1 + A) (hx3 : (x3 : ZMod M) = sl * sl - x1 - x1)
    (hy3 : (y3 : ZMod M) = sl * (x1 - x3) - y1) : StandsFor M (jtangent M A T1) x3 y3 := by
  have hpos : 0 < M := (Fact.out : M.Prime).pos
  have hZ3 : ((jtangent M A T1).Z : ZMod M) = 2 * (y1 * T1.Z ^ 3 * T1.Z) := by rw [cast_jtangent_Z, h.y_eq]
  refine standsFor_third ?nonzero rfl rfl rfl rfl (cast_jtangent hpos ?slope ?abscissa ?ordinate) hx3 hy3
  case nonzero =>
    rw [hZ3]
    exact mul_ne_zero htwo (mul_ne_zero (mul_ne_zero hy (pow_ne_zero 3 h.z_ne)) h.z_ne)
  case slope =>
    rw [hZ3, h.x_eq]
    linear_combination (T1.Z : ZMod M) ^ 4 * hsl
  case abscissa =>
    rw [hZ3, h.x_eq, h.y_eq]
    ring
  case ordinate =>
    rw [hZ3, h.y_eq]
    ring

/-- The adder's triple stands for the chord's third point. -/
theorem standsFor_jchord (h1 : StandsFor M T1 x1 y1) (h2 : StandsFor M T2 x2 y2) (hH : (xDiff M T1 T2 : ZMod M) ≠ 0)
    (hsl : (sl : ZMod M) * (x2 - x1) = y2 - y1) (hx3 : (x3 : ZMod M) = sl * sl - x1 - x2)
    (hy3 : (y3 : ZMod M) = sl * (x1 - x3) - y1) : StandsFor M (jchord M T1 T2) x3 y3 := by
  have hpos : 0 < M := (Fact.out : M.Prime).pos
  have hZ3 := cast_jchord_Z (M := M) T1 T2
  have hxd := cast_xDiff_of_standsFor hpos h1 h2
  have hyd := cast_yDiff_of_standsFor hpos h1 h2
  refine standsFor_third ?nonzero rfl rfl rfl rfl (cast_jchord hpos ?slope ?abscissa ?second ?ordinate) hx3 hy3
  case nonzero =>
    rw [hZ3]
    exact mul_ne_zero hH (mul_ne_zero h1.z_ne h2.z_ne)
  case slope =>
    rw [hZ3, hxd, hyd]
    linear_combination ((T1.Z : ZMod M) * T2.Z) ^ 3 * hsl
  case abscissa =>
    rw [hZ3, h1.x_eq]
    ring
  case second =>
    rw [hZ3, hxd]
    ring
  case ordinate =>
    rw [hZ3, h1.y_eq]
    ring

end

/-! ### Normalised, doubler and adder are the affine law (44 R246) -/

section
variable {M : Nat} (A : Nat) {T1 T2 : Triple} (hp : M.Prime) (hM : LegalModulus M) (hlt : M < 2 ^ 256) (hT1 : TripleReduced M T1)
include hp hM hlt hT1

theorem jnorm_jdbl : jnorm M (jdbl M A T1) = padd M A (jnorm M T1) (jnorm M T1) := by
  have : Fact M.Prime := ⟨hp⟩
  by_cases hz : T1.Z = 0
  · rw [jdbl_of_zero A (.inl hz), jnorm_of_z_zero hz]
    rfl
  obtain ⟨x, y, hx, hy, hstands, hnorm⟩ := exists_standsFor hM hlt hT1 hz
  have hYiff : T1.Y = 0 ↔ y = 0 := hstands.y_eq_zero_iff hT1.Y hy
  rw [hnorm]
  by_cases hy0 : y = 0
  · rw [jdbl_of_zero A (.inr (hYiff.mpr hy0)), hy0, padd_self_of_y_zero]
    rfl
  · obtain ⟨sl, x3, y3, hsum, hx3, hy3, hsl, hcx3, hcy3⟩ := padd_tangent A hp hM hlt hx hy hy0
    have htwo : (2 : ZMod M) ≠ 0 := fun h => two_ne_zero ((cast_eq_zero_iff hM.2).mp (mod_cast h))
    have hcy : (y : ZMod M) ≠ 0 := (cast_eq_zero_iff hy).not.mpr hy0
    have hY : T1.Y ≠ 0 := fun h => hy0 (hYiff.mp h)
    rw [jdbl_of_ne_zero A (not_or.mpr ⟨hz, hY⟩), hsum]
    exact jnorm_of_standsFor hM hlt (standsFor_jtangent htwo hstands hcy hsl hcx3 hcy3) hx3 hy3

/-- By case of 44 R243: infinity on either side, the same point, opposite points, the chord. -/
theorem jnorm_jadd (hT2 : TripleReduced M T2) : jnorm M (jadd M A T1 T2) = padd M A (jnorm M T1) (jnorm M T2) := by
  have : Fact M.Prime := ⟨hp⟩
  by_cases hz1 : T1.Z = 0
  · rw [jadd_of_left_infinity A T2 hz1, jnorm_of_z_zero hz1, padd_infinity_left]
  by_cases hz2 : T2.Z = 0
  · rw [jadd_of_right_infinity A hz1 hz2, jnorm_of_z_zero hz2, padd_infinity_right]
  obtain ⟨x1, y1, hx1, hy1, hs1, hn1⟩ := exists_standsFor hM hlt hT1 hz1
  obtain ⟨x2, y2, hx2, hy2, hs2, hn2⟩ := exists_standsFor hM hlt hT2 hz2
  have hH := xDiff_eq_zero_iff hs1 hs2 hx1 hx2
  have hr := yDiff_eq_zero_iff hs1 hs2 hy1 hy2
  by_cases hx : x2 = x1
  · by_cases hy : y2 = y1
    · rw [jadd_of_equal A hz1 hz2 (hH.mpr hx) (hr.mpr hy), jnorm_jdbl A hp hM hlt hT1, hn1, hn2, hx, hy]
    · rw [jadd_of_opposite A hz1 hz2 (hH.mpr hx) (hr.not.mpr hy), hn1, hn2, hx, padd_opposite (Ne.symm hy)]
      rfl
  · obtain ⟨sl, x3, y3, hsum, hx3, hy3, hsl, hcx3, hcy3⟩ := padd_chord A hp hM hlt hx1 hy1 hx2 (Ne.symm hx)
    have hcH : (xDiff M T1 T2 : ZMod M) ≠ 0 := (cast_eq_zero_iff (xDiff_lt hp.pos T1 T2)).not.mpr (hH.not.mpr hx)
    rw [jadd_of_distinct A hz1 hz2 (hH.not.mpr hx), hn1, hn2, hsum]
    exact jnorm_of_standsFor hM hlt (standsFor_jchord hs1 hs2 hcH hsl hcx3 hcy3) hx3 hy3

end

/-- Settles O44: normalisation carries doubler and adder to the cases of 43 R211. -/
theorem jacobianRefinesGroupLaw : Obligations.JacobianRefinesGroupLaw := by
  intro M A T1 T2 hp hM hlt _ hX1 hY1 hZ1 hX2 hY2 hZ2
  have hT1 : TripleReduced M T1 := ⟨hX1, hY1, hZ1⟩
  exact ⟨jnorm_jadd A hp hM hlt hT1 ⟨hX2, hY2, hZ2⟩, jnorm_jdbl A hp hM hlt hT1⟩

/-! ### The commands on the datapath (44 R245) -/

/-- Normalisation carries the loop on triples to the loop on points. -/
theorem jnorm_jsmulLoop {M : Nat} (A : Nat) (hp : M.Prime) (hM : LegalModulus M) (hlt : M < 2 ^ 256) :
    ∀ (fuel : Nat) (acc cur : Triple) (k : Nat), TripleReduced M acc → TripleReduced M cur →
      jnorm M (jsmulLoop M A fuel acc cur k) = smulLoop M A fuel (jnorm M acc) (jnorm M cur) k
  | 0, _, _, _, _, _ => rfl
  | fuel + 1, acc, cur, k, hacc, hcur => by
    rw [jsmulLoop_succ, smulLoop]
    split
    · rfl
    have hdbl : TripleReduced M (jdbl M A cur) := tripleReduced_jdbl hp.one_lt A cur
    split
    · rw [jnorm_jsmulLoop A hp hM hlt fuel _ _ _ (tripleReduced_jadd hp.one_lt A hacc hcur) hdbl, jnorm_jadd A hp hM hlt hacc hcur,
        jnorm_jdbl A hp hM hlt hcur]
    · rw [jnorm_jsmulLoop A hp hM hlt fuel _ _ _ hacc hdbl, jnorm_jdbl A hp hM hlt hcur]

/-- Settles O45: normalisation undoes the entry, and carries each command's triples to the affine rule. -/
theorem jacobianCommandsRefineAffine : Obligations.JacobianCommandsRefineAffine := by
  intro M A k P Q hp hM hlt _ hP hQ
  have : Fact M.Prime := ⟨hp⟩
  have hTP : TripleReduced M (jentry P) := tripleReduced_jentry hp.one_lt hP
  have hTQ : TripleReduced M (jentry Q) := tripleReduced_jentry hp.one_lt hQ
  refine ⟨?padd, ?pdbl, ?smul⟩
  case padd => rw [jPadd, jnorm_jadd A hp hM hlt hTP hTQ, jnorm_jentry hM hlt hP, jnorm_jentry hM hlt hQ]
  case pdbl => rw [jPdbl, jnorm_jdbl A hp hM hlt hTP, jnorm_jentry hM hlt hP]
  case smul =>
    rw [jSmul, jnorm_jsmulLoop A hp hM hlt _ _ _ _ (tripleReduced_jinf hp.one_lt) hTP, jnorm_jentry hM hlt hP]
    rfl

/-! ### The datapath on Montgomery forms (44 R247) -/

section
variable {M : Nat} (hM : LegalModulus M)
include hM

theorem mont_eq_zero_iff {v : Nat} (hv : v < M) : mont M v = 0 ↔ v = 0 := by
  constructor
  · intro h
    rw [← unmont_mont hM hv, h, unmont, zero_mul, Nat.zero_mod]
  · intro h
    rw [h, mont, zero_mul, Nat.zero_mod]

/-- Infinity on Montgomery forms is what doubler and adder answer there (44 R247). -/
theorem montTriple_jinf : montTriple M jinf = ⟨mont M 1, mont M 1, 0⟩ := by
  rw [montTriple, jinf, (mont_eq_zero_iff hM (pos_of_legalModulus hM)).mpr rfl]

theorem fdbl_mont (x : Nat) : fdbl M (mont M x) = mont M (fdbl M x) := fadd_mont_mont hM x x

theorem fsub_mont_fsub (x u v : Nat) : fsub M (mont M x) (mont M (fsub M u v)) = mont M (fsub M x (fsub M u v)) :=
  fsub_mont_mont hM x (fsub_lt (pos_of_legalModulus hM) u v).le

theorem fsub_mont_fdbl (x u : Nat) : fsub M (mont M x) (mont M (fdbl M u)) = mont M (fsub M x (fdbl M u)) :=
  fsub_mont_mont hM x (fdbl_lt (pos_of_legalModulus hM) u).le

theorem fsub_mont_fmul (x u v : Nat) : fsub M (mont M x) (mont M (fmul M u v)) = mont M (fsub M x (fmul M u v)) :=
  fsub_mont_mont hM x (fmul_lt (pos_of_legalModulus hM) u v).le

/-- The adder's zero tests of its differences are unaffected (44 R247). -/
theorem mont_fsub_eq_zero_iff (u v : Nat) : mont M (fsub M u v) = 0 ↔ fsub M u v = 0 :=
  mont_eq_zero_iff hM (fsub_lt (pos_of_legalModulus hM) u v)

/-- The engine's inverse on Montgomery forms is the form of the plain one (42 R188). -/
theorem finvMont_mont (u : Nat) : finvMont M (mont M u) = mont M (finv M u) := by
  rw [finvMont, powMont, finv, powmod, powLoop, powLoopWith_map fun a b => (mp_mont_mont hM a b).symm]

section
variable (A : Nat) {T1 T2 : Triple} (hT1 : TripleReduced M T1)
include hT1

theorem jdblMont_montTriple : jdblMont M A (montTriple M T1) = montTriple M (jdbl M A T1) := by
  have htest : (mont M T1.Z = 0 ∨ mont M T1.Y = 0) ↔ (T1.Z = 0 ∨ T1.Y = 0) :=
    or_congr (mont_eq_zero_iff hM hT1.Z) (mont_eq_zero_iff hM hT1.Y)
  by_cases hz : T1.Z = 0 ∨ T1.Y = 0
  · rw [jdbl_of_zero A hz, montTriple_jinf hM]
    exact if_pos (htest.mpr hz)
  · simp only [jdblMont, jdbl, jdblWith, montTriple, htest, if_neg hz, mp_mont_mont hM, fdbl_mont hM, fadd_mont_mont hM,
      fsub_mont_fsub hM, fsub_mont_fdbl hM]

theorem jaddMont_montTriple (hT2 : TripleReduced M T2) :
    jaddMont M A (montTriple M T1) (montTriple M T2) = montTriple M (jadd M A T1 T2) := by
  have hdbl : jdblWith (mp M) (mont M 1) M (mont M A) (montTriple M T1) = montTriple M (jdbl M A T1) := jdblMont_montTriple hM A hT1
  simp only [jaddMont, jaddWith, hdbl]
  simp only [montTriple, mont_eq_zero_iff hM hT1.Z, mont_eq_zero_iff hM hT2.Z, mp_mont_mont hM, fsub_mont_fmul hM,
    mont_fsub_eq_zero_iff hM, fdbl_mont hM, fsub_mont_fdbl hM, fsub_mont_fsub hM, jadd, jaddWith]
  split_ifs
  · rfl
  · rfl
  · rfl
  · exact (montTriple_jinf hM).symm
  · rfl

/-- Normalisation on Montgomery forms gives the point, as its results leave the forms (44 R247). -/
theorem jnormMont_montTriple : jnormMont M (montTriple M T1) = jnorm M T1 :=
  jnormWith_map (mp_mont_mont hM) (finvMont_mont hM) (fun a b => unmont_mont hM (fmul_lt (pos_of_legalModulus hM) a b))
    (mont_eq_zero_iff hM hT1.Z)

end

/-- The loop of `SMUL` on Montgomery forms computes the form of the plain loop's triple (44 R245, R247). -/
theorem jsmulLoopMont_montTriple (A fuel k : Nat) {acc cur : Triple} (hacc : TripleReduced M acc) (hcur : TripleReduced M cur) :
    TripleReduced M (jsmulLoop M A fuel acc cur k) ∧
      jsmulLoopWith (jaddMont M A) (jdblMont M A) fuel (montTriple M acc) (montTriple M cur) k =
        montTriple M (jsmulLoop M A fuel acc cur k) := by
  have h1 : 1 < M := Nat.lt_of_succ_lt hM.2
  exact jsmulLoopWith_map (add := jadd M A) (dbl := jdbl M A) (g := montTriple M) (S := TripleReduced M)
    (fun T T' hT hT' => ⟨tripleReduced_jadd h1 A hT hT', jaddMont_montTriple hM A hT hT'⟩)
    (fun T hT => ⟨tripleReduced_jdbl h1 A T, jdblMont_montTriple hM A hT⟩) fuel acc cur k hacc hcur

end

/-- Settles O46: each operation of the datapath commutes with the form, so the commands, which compose them, do. -/
theorem montgomeryDatapathAgrees : Obligations.MontgomeryDatapathAgrees := by
  intro M A hM _
  have h1 : 1 < M := Nat.lt_of_succ_lt hM.2
  refine ⟨fun v hv => mont_eq_zero_iff hM hv, ?operations, ?commands⟩
  case operations =>
    intro T1 T2 hX1 hY1 hZ1 hX2 hY2 hZ2
    have hT1 : TripleReduced M T1 := ⟨hX1, hY1, hZ1⟩
    exact ⟨jdblMont_montTriple hM A hT1, jaddMont_montTriple hM A hT1 ⟨hX2, hY2, hZ2⟩, jnormMont_montTriple hM hT1⟩
  case commands =>
    intro P Q k hP hQ
    have hTP : TripleReduced M (jentry P) := tripleReduced_jentry h1 hP
    have hTQ : TripleReduced M (jentry Q) := tripleReduced_jentry h1 hQ
    refine ⟨?padd, ?pdbl, ?smul⟩
    case padd =>
      rw [jPaddMont, jentryMont, jentryMont, jaddMont_montTriple hM A hTP hTQ, jnormMont_montTriple hM (tripleReduced_jadd h1 A hTP hTQ)]
      rfl
    case pdbl =>
      rw [jPdblMont, jentryMont, jdblMont_montTriple hM A hTP, jnormMont_montTriple hM (tripleReduced_jdbl h1 A _)]
      rfl
    case smul =>
      obtain ⟨hreduced, hloop⟩ := jsmulLoopMont_montTriple hM A 256 k (tripleReduced_jinf h1) hTP
      rw [jSmulMont, jentryMont, hloop, jnormMont_montTriple hM hreduced]
      rfl

end Sys2Proof.Arith
end

section
/-! PROOFS. Faults: the code that each cause shows (60 R262, 10 R34), the fault of an invalid source (60 R263), what a fault and the unit in
FAULT change (60 R270), and the only way out of FAULT (60 R271). -/

namespace Sys2Proof.Machine

/-! ### The codes (60 R262) -/

/-- `ERRCODE` is 0 or the code of one of the twelve causes (10 R34). -/
theorem toNat_errByte_mem (e : Option ErrCode) :
    (errByte e).toNat ∈ [0x00, 0x01, 0x02, 0x03, 0x04, 0x05, 0x10, 0x11, 0x12, 0x20, 0x21, 0x30, 0x31] := by
  cases e with
  | none => decide
  | some e => cases e <;> decide

/-- Settles O52: above its low byte `STATUS` is `ERRCODE` (`statusWord_high`), and the table is that of `errCode`. -/
theorem faultCodes : Obligations.FaultCodes := by
  refine ⟨fun s c hc => ?table, fun s => ?range⟩
  case table =>
    refine (statusWord_high _).trans ?_
    change (errCode c.1).toNat = c.2
    revert c
    decide
  case range =>
    rw [statusWord_high]
    exact toNat_errByte_mem s.err

/-! ### Invalid sources (60 R263) -/

/-- Settles O58: every command reads its sources first, by one of the operand forms; `LDP` does so once both coordinates are present. -/
theorem invalidSourceFaults : Obligations.InvalidSourceFaults := by
  intro i s h
  cases i with
  | ldmod | ldf | ldi => simp [readsF, readsP] at h
  | stf | movf | red | inv | tomont | frommont => exact srcF_none (by simpa [readsF, readsP] using h) _
  | ldcrv | add | sub | mul | pow | div | cmpf | mmul => exact srcF_srcF_none (by simpa [readsF, readsP] using h) _
  | getx | gety | movp | tstp | pdbl => exact srcP_none (by simpa [readsF, readsP] using h) _
  | cmpp | padd => exact pointPair_uninit (by simpa [readsF, readsP] using h) _
  | smul d a b =>
    obtain ⟨-, huninit, -⟩ := smulMeaning d a b s
    exact huninit (by simpa [readsF, readsP, or_comm] using h)
  | ldp d a b c px py =>
    have hpresent : (px = true ∧ py = true) ∧ (s.fReg a = none ∨ s.fReg b = none) := by
      cases px <;> cases py <;> simp_all [readsF, readsP]
    obtain ⟨⟨rfl, rfl⟩, hnone⟩ := hpresent
    exact srcF_srcF_none hnone _

/-! ### The unit in FAULT (60 R270, R271) -/

theorem readDraws_of_not_busy {s : State} (hrun : s.run ≠ .busy) (r : WinReg) : readDraws r s = false := by
  cases r <;> simp [readDraws, hrun]

section
variable {s : State} (hrun : s.run = .fault)
include hrun

theorem unitMove_of_fault : unitMove s = .next s := unitMove_quiet (.inr (by simp [hrun]))

/-- In FAULT a host write keeps the fault and its code, but as a soft reset (70 R301). -/
theorem hostWrite_of_fault (r : WinReg) (v : Word32) :
    ((hostWrite r v s).run = .fault ∧ (hostWrite r v s).err = s.err) ∨
      (r = .ctrl ∧ v.getLsbD 0 = true ∧ hostWrite r v s = unitReset s) := by
  cases hheld : s.inReset with
  | true =>
    rw [hostWrite_held hheld]
    exact .inl ⟨hrun, rfl⟩
  | false =>
    cases r with
    | id | status | reserved =>
      rw [hostWrite_ignored (by simp)]
      exact .inl ⟨hrun, rfl⟩
    | cmd | dbuf =>
      rw [hostWrite_dropped hheld (by simp [hrun]) (by simp)]
      exact .inl ⟨hrun, rfl⟩
    | ctrl =>
      rw [hostWrite_ctrl hheld]
      split_ifs with hbit
      · exact .inr ⟨rfl, hbit, rfl⟩
      · exact .inl ⟨hrun, rfl⟩

end

/-- Settles O51: a command by `exec_completes_or_faults`, and in FAULT each event by its own rule. -/
theorem faultsArePrecise : Obligations.FaultsArePrecise := by
  refine ⟨fun i s t h hfault => ?record, fun s rest hrun hheld => ⟨fun hev => ?turn, fun r v hev hr => ?write, fun r hev => ?read⟩⟩
  case record =>
    obtain hidle | ⟨-, hrecord⟩ := exec_completes_or_faults h
    · cases hfault.symm.trans hidle
    · exact hrecord
  case turn => exact (step_event hev).trans (unitMove_of_fault (s := { s with events := rest }) hrun)
  case write => rw [step_write hev, hostWrite_dropped (s := { s with events := rest }) hheld (by simp [hrun]) hr]
  case read => simp [step_read hheld hev, readDraws_of_not_busy (s := s) (by simp [hrun])]

/-- Settles O53: the unit does not move, a read changes no state of the unit, a write is `hostWrite_of_fault`, and the reset input resets. -/
theorem faultLeftOnlyByReset : Obligations.FaultLeftOnlyByReset := by
  intro s t hrun h
  obtain ⟨-, hmove⟩ | ⟨e, rest, hne, hev, happly⟩ := step_cases h
  · cases (unitMove_of_fault (s := { s with events := s.events.tail }) hrun).symm.trans hmove
    exact .inl ⟨hrun, rfl⟩
  have hhead : s.events.head? = some e := by rw [hev, List.head?_cons]
  cases e with
  | unitTurn => exact absurd rfl hne
  | read r =>
    cases happly
    exact .inl ⟨hrun, rfl⟩
  | write r v =>
    cases happly
    obtain hkept | ⟨rfl, hbit, ht⟩ := hostWrite_of_fault (s := { s with events := rest }) hrun r v
    · exact .inl hkept
    · rw [ht]
      exact .inr ⟨.inr (.inr ⟨v, hbit, hhead⟩), isResetState_unitReset _⟩
  | assertReset =>
    cases happly
    exact .inr ⟨.inl hhead, isResetState_assertReset _⟩
  | releaseReset =>
    cases happly
    obtain hheld | hheld := Bool.eq_false_or_eq_true s.inReset
    · exact .inr ⟨.inr (.inl hhead), isResetState_releaseReset (s := { s with events := rest }) hheld⟩
    · rw [releaseReset_released (s := { s with events := rest }) hheld]
      exact .inl ⟨hrun, rfl⟩

end Sys2Proof.Machine
end

section
/-! PROOFS. Every step keeps the invariant of 10 R35 (I1 to I5, I7) and the reset values of a unit held in reset (70 R300): the registers by
the effects of the commands, the fault code with `RUN`, and the host's events one by one. -/

namespace Sys2Proof.Machine

/-! ### The banks and the registers (10 R35 I1 to I5) -/

/-- What the invariant says of the banks and the registers; I3 holds by the width of a word. -/
structure RegistersLegal (s : State) : Prop where
  moduli : ModuliLegal s
  fields : FieldsReduced s
  curves : CurvesReduced s
  points : PointsReduced s

section
variable {s t : State}

theorem StateInv.registersLegal (h : StateInv s) : RegistersLegal s := ⟨h.moduli, h.fields, h.curves, h.points⟩

/-- A unit that is not held in reset meets the invariant by its registers and its fault code alone. -/
theorem RegistersLegal.stateInv (h : RegistersLegal t) (hcode : CodeIffFault t) (hheld : t.inReset = false) : StateInv t where
  moduli := h.moduli
  fields := h.fields
  curves := h.curves
  points := h.points
  code := hcode
  held := fun hset => nomatch hheld.symm.trans hset

theorem RegistersLegal.of_registers_eq (h : RegistersLegal s) (hsame : registers t = registers s) : RegistersLegal t := by
  obtain ⟨⟩ := s
  obtain ⟨⟩ := t
  simp only [registers, Prod.mk.injEq] at hsame
  obtain ⟨rfl, rfl, rfl, rfl, rfl, rfl⟩ := hsame
  exact ⟨h.moduli, h.fields, h.curves, h.points⟩

/-- A unit that keeps its registers and is not held in reset meets the invariant again by its fault code alone. -/
theorem StateInv.of_registers_eq (h : StateInv s) (hsame : registers t = registers s) (hcode : CodeIffFault t)
    (hheld : t.inReset = false) : StateInv t :=
  (h.registersLegal.of_registers_eq hsame).stateInv hcode hheld

theorem RegistersLegal.writeF (h : RegistersLegal s) (d : FIdx) {tg : Tag} {v : Word} (hv : FieldValue s tg v) :
    RegistersLegal (writeF d tg v s) where
  moduli := h.moduli
  curves := h.curves
  points := h.points
  fields := by
    intro i r b hr htag
    rw [writeF_fReg] at hr
    split at hr
    · cases hr
      obtain hraw | ⟨n, m, rfl, hm, hlt⟩ := hv
      · exact absurd (htag.symm.trans hraw) (bankTag_ne_raw b)
      · have hbank : n = b := by simpa using congrArg tagBank htag
        exact ⟨m, hbank ▸ hm, hlt⟩
    · exact h.fields i r b hr htag

theorem RegistersLegal.writeP (h : RegistersLegal s) (d : PIdx) {c : CurveIdx} {q : Point Word} (hq : PointValue s c q) :
    RegistersLegal (writeP d c q s) where
  moduli := h.moduli
  fields := h.fields
  curves := h.curves
  points := by
    intro i r hr
    rw [writeP_pReg] at hr
    split at hr
    · cases hr
      exact hq
    · exact h.points i r hr

/-- `LDMOD` leaves no register and no curve that rests on the bank's old modulus (10 R36). -/
theorem RegistersLegal.loadModulus (h : RegistersLegal s) (b : Bank) {v : Word} (hv : LegalModulus v.toNat) :
    RegistersLegal (loadModulus b v s) where
  moduli := by
    intro n m hm
    rw [loadModulus_modulus] at hm
    split at hm
    · cases hm
      exact hv
    · exact h.moduli n m hm
  fields := by
    intro i r n hr htag
    rw [loadModulus_fReg, dropTag_eq_some] at hr
    obtain ⟨hr, hne⟩ := hr
    rw [loadModulus_modulus, if_neg (fun hnb : n = b => hne (hnb ▸ htag))]
    exact h.fields i r n hr htag
  curves := by
    intro c k hk
    rw [loadModulus_curve] at hk
    cases b with
    | fp => cases hk
    | fn => exact h.curves c k hk
  points := by
    intro i q hq
    rw [loadModulus_pReg] at hq
    cases b with
    | fp => cases hq
    | fn => exact h.points i q hq

/-- `LDCRV` leaves only points of the other curve bank (10 R36). -/
theorem RegistersLegal.loadCurve (h : RegistersLegal s) (c : CurveIdx) {m : Word} {v : Curve} (hm : s.modFP = some m)
    (ha : v.a.toNat < m.toNat) (hb : v.b.toNat < m.toNat) : RegistersLegal (loadCurve c v s) where
  moduli := h.moduli
  fields := h.fields
  curves := by
    intro n k hk
    rw [loadCurve_curve] at hk
    split at hk
    · cases hk
      exact ⟨m, hm, ha, hb⟩
    · exact h.curves n k hk
  points := by
    intro i q hq
    rw [loadCurve_pReg, dropCurve_eq_some] at hq
    obtain ⟨hq, hne⟩ := hq
    rw [loadCurve_curve, if_neg hne]
    exact h.points i q hq

theorem pointValue_map_toWord {c : CurveIdx} {m : Word} {k : Curve} {Q : Point Nat} (hm : s.modFP = some m) (hk : s.curve c = some k)
    (hQ : PointReduced m.toNat Q) : PointValue s c (Q.map Arith.toWord) :=
  ⟨⟨k, hk⟩, m, hm, by rwa [ptOf_map_toWord hQ]⟩

/-- A sum of valid points is reduced: reduced points are closed under group addition. -/
theorem GroupSum.pointReduced (hs : StateInv s) {m : Word} {k : Curve} {Q : Point Nat} (hm : s.modFP = some m)
    (hQ : GroupSum s m.toNat k Q) : PointReduced m.toNat Q := by
  have hpos : 0 < m.toNat := Arith.pos_of_legalModulus (hs.moduli .fp m hm)
  refine hQ (PointReduced m.toNat) nofun (fun P P' => padd_reduced hpos k.a.toNat) ?registers
  case registers =>
    intro i q hq _
    obtain ⟨-, m', hm', hr⟩ := hs.points i q hq
    cases hm.symm.trans hm'
    exact hr

/-- Every command keeps the banks and the registers legal, by its effect. -/
theorem exec_keeps_registersLegal {i : Instr} (hs : StateInv s) (hexec : exec i s = .next t) : RegistersLegal t := by
  have h := hs.registersLegal
  cases exec_cases hexec with
  | fault _ _ ht | buffer _ _ _ _ ht | compareF _ _ _ _ _ _ _ ht | compareP _ _ _ _ _ _ _ ht | test _ _ _ _ ht =>
    rw [ht]
    exact h.of_registers_eq rfl
  | modulus b _ hm ht =>
    rw [ht]
    exact (h.loadModulus b hm).of_registers_eq rfl
  | curve a b c x y _ ha hb ht =>
    obtain ⟨m, hm, hx⟩ := h.fields a _ .fp ha rfl
    obtain ⟨m', hm', hy⟩ := h.fields b _ .fp hb rfl
    cases hm.symm.trans hm'
    rw [ht]
    exact (h.loadCurve c hm hx hy).of_registers_eq rfl
  | field d _ _ _ hv ht =>
    rw [ht]
    exact (h.writeF d (hv hs)).of_registers_eq rfl
  | point d _ _ _ hv _ ht =>
    rw [ht]
    exact (h.writeP d (hv hs)).of_registers_eq rfl
  | sum d _ _ _ _ _ hm _ hk hQ ht =>
    rw [ht]
    exact (h.writeP d (pointValue_map_toWord hm hk (hQ.pointReduced hs hm))).of_registers_eq rfl
  | free d _ m _ _ hm _ hk ht =>
    have hfree := freePoint_reduced (Arith.pos_of_legalModulus (hs.moduli .fp m hm)) s.draws
    rw [ht]
    exact (h.writeP d (pointValue_map_toWord hm hk hfree)).of_registers_eq rfl

/-! ### The unit's own step -/

/-- Outside FAULT no fault is recorded (10 R35 I7). -/
theorem CodeIffFault.err_eq_none (h : CodeIffFault s) (hrun : s.run ≠ .fault) : s.err = none :=
  not_not.mp (mt h.mp hrun)

theorem codeIffFault_of_err_eq_none (herr : s.err = none) (hrun : s.run ≠ .fault) : CodeIffFault s :=
  iff_of_false (not_not.mpr herr) hrun

theorem faultRecord_codeIffFault (e : ErrCode) (s : State) : CodeIffFault (faultRecord e s) :=
  iff_of_true nofun rfl

/-- A fault is recorded with its code, and a command that completes records none (20 R70, 60 R270). -/
theorem exec_codeIffFault {i : Instr} (herr : s.err = none) (hexec : exec i s = .next t) : CodeIffFault t := by
  obtain hidle | ⟨-, e, -, rfl⟩ := exec_completes_or_faults hexec
  · obtain ⟨-, herr', -⟩ := (completion_of_exec hexec hidle).untouched
    exact codeIffFault_of_err_eq_none (herr'.trans herr) (by rw [hidle]; nofun)
  · exact faultRecord_codeIffFault e s

theorem exec_inReset {i : Instr} (hexec : exec i s = .next t) : t.inReset = s.inReset := by
  obtain hidle | ⟨-, e, -, rfl⟩ := exec_completes_or_faults hexec
  · obtain ⟨-, -, -, hheld, -⟩ := (completion_of_exec hexec hidle).untouched
    exact hheld
  · rfl

theorem unitMove_keeps_stateInv (hs : StateInv s) (hmove : unitMove s = .next t) : StateInv t := by
  obtain rfl | ⟨hbusy, hheld, hcomplete⟩ := unitMove_cases hmove
  · exact hs
  obtain ⟨i, -, hexec⟩ | ⟨why, -, rfl⟩ := complete_cases hcomplete
  · have herr := hs.code.err_eq_none (by rw [hbusy]; nofun)
    exact (exec_keeps_registersLegal hs hexec).stateInv (exec_codeIffFault herr hexec) ((exec_inReset hexec).trans hheld)
  · exact hs.of_registers_eq rfl (faultRecord_codeIffFault .illegal s) hheld

/-! ### The host's events and the reset input -/

/-- The reset values meet the invariant, whatever stands outside the unit (10 R45). -/
theorem stateInv_outside (held : Bool) (events : List Event) (replies : List Word32) (draws : Nat) :
    StateInv { State.reset with inReset := held, events := events, replies := replies, draws := draws } where
  moduli := reset_stateInv.moduli
  fields := reset_stateInv.fields
  curves := reset_stateInv.curves
  points := reset_stateInv.points
  code := reset_stateInv.code
  held := by
    rintro rfl
    rfl

/-- A read changes only what lies outside the unit (20 R62). -/
theorem hostRead_keeps_stateInv (hs : StateInv s) (r : WinReg) : StateInv (hostRead r s) where
  moduli := hs.moduli
  fields := hs.fields
  curves := hs.curves
  points := hs.points
  code := hs.code
  held := fun hheld => congrArg
    (fun u : State => { u with replies := (hostRead r s).replies, draws := (hostRead r s).draws }) (hs.held hheld)

theorem hostWrite_keeps_stateInv (hs : StateInv s) (r : WinReg) (v : Word32) : StateInv (hostWrite r v s) := by
  cases hheld : s.inReset with
  | true => rwa [hostWrite_held hheld]
  | false =>
    cases r with
    | id | status | reserved => rwa [hostWrite_ignored (by simp)]
    | cmd =>
      by_cases hidle : s.run = .idle
      · rw [hostWrite_cmd_idle hheld hidle]
        have herr := hs.code.err_eq_none (by rw [hidle]; nofun)
        exact hs.of_registers_eq rfl (codeIffFault_of_err_eq_none herr nofun) hheld
      · rw [hostWrite_dropped hheld hidle (.inl rfl)]
        exact hs.of_registers_eq rfl hs.code hheld
    | dbuf k =>
      by_cases hidle : s.run = .idle
      · rw [hostWrite_dbuf_idle hheld hidle]
        exact hs.of_registers_eq rfl hs.code hheld
      · rw [hostWrite_dropped hheld hidle (.inr ⟨k, rfl⟩)]
        exact hs.of_registers_eq rfl hs.code hheld
    | ctrl =>
      rw [hostWrite_ctrl hheld]
      split
      · exact stateInv_outside _ _ _ _
      · exact hs

theorem releaseReset_keeps_stateInv (hs : StateInv s) : StateInv (releaseReset s) := by
  cases hheld : s.inReset with
  | true =>
    rw [releaseReset_held hheld]
    exact stateInv_outside _ _ _ _
  | false => rwa [releaseReset_released hheld]

theorem applyEvent_keeps_stateInv {e : Event} (hs : StateInv s) (happly : applyEvent e s = .next t) : StateInv t := by
  cases e with
  | unitTurn => exact unitMove_keeps_stateInv hs happly
  | read r =>
    cases happly
    exact hostRead_keeps_stateInv hs r
  | write r v =>
    cases happly
    exact hostWrite_keeps_stateInv hs r v
  | assertReset =>
    cases happly
    exact stateInv_outside _ _ _ _
  | releaseReset =>
    cases happly
    exact releaseReset_keeps_stateInv hs

end

/-- Settles O48: the unit's own step by the effect of its command, every other event by its own rule. -/
theorem stepKeepsInvariant : Obligations.StepKeepsInvariant := by
  intro s t hs hstep
  obtain ⟨-, hmove⟩ | ⟨e, rest, -, -, happly⟩ := step_cases hstep
  · exact unitMove_keeps_stateInv (hs.withEvents s.events.tail) hmove
  · exact applyEvent_keeps_stateInv (hs.withEvents rest) happly

end Sys2Proof.Machine
end

section
/-! PROOFS. The group law (43 R216, R218). The reduced points of a non-singular curve over a prime modulus are the points of Mathlib's
elliptic curve over the field `ZMod M`, and group addition is the addition of that group: the laws are the group's, and double-and-add
keeps the value of `acc + k • cur`. -/

namespace Sys2Proof.Arith

open Sys2Proof.Machine (LegalModulus PointOn PointReduced)
open WeierstrassCurve

/-! ### The curve over the field of residues (10 R23) -/

/-- The curve `y^2 = x^3 + A*x + B` over the residues of `M`. -/
def residueCurve (M A B : Nat) : Affine (ZMod M) := ⟨0, 0, 0, A, B⟩

/-- A point of the curve over the residues, with its coordinates as naturals below `M`. -/
def ofCurvePoint {M A B : Nat} : (residueCurve M A B).Point → Point Nat
  | .zero => .infinity
  | .some x y _ => .affine x.val y.val

section
variable {M A B : Nat}

@[simp] theorem ofCurvePoint_zero : ofCurvePoint (0 : (residueCurve M A B).Point) = .infinity := rfl

@[simp] theorem ofCurvePoint_some {x y : ZMod M} (h : (residueCurve M A B).Nonsingular x y) :
    ofCurvePoint (Affine.Point.some x y h) = .affine x.val y.val := rfl

theorem residueCurve_negY (x y : ZMod M) : (residueCurve M A B).negY x y = -y := by
  simp [Affine.negY, residueCurve]

theorem residueCurve_equation_iff (x y : ZMod M) : (residueCurve M A B).Equation x y ↔ y * y = x * x * x + A * x + B := by
  simp only [Affine.equation_iff, residueCurve, zero_mul, add_zero]
  ring_nf

theorem residueCurve_addX (x1 x2 l : ZMod M) : (residueCurve M A B).addX x1 x2 l = l * l - x1 - x2 := by
  simp only [Affine.addX, residueCurve, zero_mul]
  ring

theorem residueCurve_addY (x1 x2 y1 l : ZMod M) :
    (residueCurve M A B).addY x1 x2 y1 l = l * (x1 - (l * l - x1 - x2)) - y1 := by
  simp only [Affine.addY, Affine.negAddY, residueCurve_negY, residueCurve_addX]
  ring

section
variable [Fact M.Prime] (hM : LegalModulus M)
include hM

theorem two_ne_zero_of_legalModulus : (2 : ZMod M) ≠ 0 :=
  fun h => two_ne_zero (eq_of_cast_eq hM.2 (pos_of_legalModulus hM) (mod_cast h))

/-- The discriminant of the curve is `-16 * (4*A^3 + 27*B^2)`, and 2 is no zero divisor. -/
theorem residueCurve_discriminant_ne_zero (hdisc : (4 * A ^ 3 + 27 * B ^ 2) % M ≠ 0) : (residueCurve M A B).Δ ≠ 0 := by
  have hΔ : (residueCurve M A B).Δ = -2 ^ 4 * ((4 * A ^ 3 + 27 * B ^ 2 : Nat) : ZMod M) := by
    simp only [Δ, b₂, b₄, b₆, b₈, residueCurve]
    push_cast
    ring
  rw [hΔ]
  refine mul_ne_zero (neg_ne_zero.mpr (pow_ne_zero 4 (two_ne_zero_of_legalModulus hM))) fun h => hdisc ?_
  rwa [← Nat.dvd_iff_mod_eq_zero, ← ZMod.natCast_eq_zero_iff]

/-- On a non-singular curve every reduced point is one of the group's (43 R218). -/
theorem exists_ofCurvePoint_eq (hdisc : (4 * A ^ 3 + 27 * B ^ 2) % M ≠ 0) {P : Point Nat} (hPr : PointReduced M P)
    (hP : PointOn M A B P) : ∃ p : (residueCurve M A B).Point, ofCurvePoint p = P := by
  cases P with
  | infinity => exact ⟨0, rfl⟩
  | affine x y =>
    obtain ⟨hx, hy⟩ := hPr x y rfl
    have heq : (residueCurve M A B).Equation x y := (residueCurve_equation_iff _ _).mpr (onCurve_iff.mp (hP x y rfl))
    have hns := (Affine.equation_iff_nonsingular_of_Δ_ne_zero (residueCurve_discriminant_ne_zero hM hdisc)).mp heq
    exact ⟨.some _ _ hns, by rw [ofCurvePoint, ZMod.val_natCast_of_lt hx, ZMod.val_natCast_of_lt hy]⟩

/-- Cases 2 and 4 of 43 R211: two points of one abscissa with opposite ordinates, which are equal only where both are 0. -/
theorem padd_of_cast_y_eq_neg {x y1 y2 : Nat} (hy1 : y1 < M) (hy2 : y2 < M) (hneg : (y1 : ZMod M) = -y2) :
    padd M A (.affine x y1) (.affine x y2) = .infinity := by
  by_cases hy : y1 = y2
  · subst hy
    have hdbl : (2 : ZMod M) * y1 = 0 := by linear_combination hneg
    have hzero : (y1 : ZMod M) = 0 := (mul_eq_zero.mp hdbl).resolve_left (two_ne_zero_of_legalModulus hM)
    rw [(cast_eq_zero_iff hy1).mp hzero, padd_self_of_y_zero]
  · exact padd_opposite hy

end

/-! ### Group addition is the addition of the group (43 R211) -/

section
variable [Fact M.Prime] {x1 y1 x2 y2 : ZMod M} {h1 : (residueCurve M A B).Nonsingular x1 y1} {h2 : (residueCurve M A B).Nonsingular x2 y2}

/-- A sum that is not infinity is the third point of the line of Mathlib's slope. -/
theorem ofCurvePoint_add_of_slope {sl : ZMod M} {x3 y3 : Nat} (hne : ¬ (x1 = x2 ∧ y1 = -y2))
    (hsl : (residueCurve M A B).slope x1 x2 y1 y2 = sl) (hx3 : x3 < M) (hy3 : y3 < M)
    (hcx : (x3 : ZMod M) = sl * sl - x1 - x2) (hcy : (y3 : ZMod M) = sl * (x1 - x3) - y1) :
    ofCurvePoint (Affine.Point.some x1 y1 h1 + Affine.Point.some x2 y2 h2) = .affine x3 y3 := by
  rw [Affine.Point.add_some (by rwa [residueCurve_negY]), ofCurvePoint, residueCurve_addX, residueCurve_addY, hsl, ← hcx, ← hcy,
    ZMod.val_natCast_of_lt hx3, ZMod.val_natCast_of_lt hy3]

variable (hM : LegalModulus M) (hlt : M < 2 ^ 256)
include hM hlt

/-- Case 3 of 43 R211: the chord. -/
theorem ofCurvePoint_add_of_x_ne (hx : x1 ≠ x2) :
    ofCurvePoint (Affine.Point.some x1 y1 h1 + Affine.Point.some x2 y2 h2) = padd M A (.affine x1.val y1.val) (.affine x2.val y2.val) := by
  obtain ⟨sl, x3, y3, hsum, hx3, hy3, hsl, hcx, hcy⟩ := padd_chord A Fact.out hM hlt x1.val_lt y1.val_lt (y2 := y2.val) x2.val_lt
    fun h => hx (ZMod.val_injective M h)
  simp only [ZMod.natCast_zmod_val] at hsl hcx hcy
  rw [hsum]
  refine ofCurvePoint_add_of_slope (fun h => hx h.1) ?_ hx3 hy3 hcx hcy
  rw [Affine.slope_of_X_ne hx, div_eq_iff (sub_ne_zero.mpr hx)]
  linear_combination hsl

/-- Case 5 of 43 R211: the tangent. -/
theorem ofCurvePoint_add_self (hy : y1 ≠ 0) :
    ofCurvePoint (Affine.Point.some x1 y1 h1 + Affine.Point.some x1 y1 h1) = padd M A (.affine x1.val y1.val) (.affine x1.val y1.val) := by
  obtain ⟨sl, x3, y3, hsum, hx3, hy3, hsl, hcx, hcy⟩ := padd_tangent A Fact.out hM hlt x1.val_lt y1.val_lt
    fun h => hy ((ZMod.val_eq_zero y1).mp h)
  simp only [ZMod.natCast_zmod_val] at hsl hcx hcy
  have hdbl : 2 * y1 ≠ 0 := mul_ne_zero (two_ne_zero_of_legalModulus hM) hy
  have hneg : y1 ≠ -y1 := fun h => hdbl (by linear_combination h)
  rw [hsum]
  refine ofCurvePoint_add_of_slope (fun h => hneg h.2) ?_ hx3 hy3 hcx hcy
  rw [Affine.slope_of_Y_ne rfl (by rwa [residueCurve_negY]), residueCurve_negY, sub_neg_eq_add, ← two_mul, div_eq_iff hdbl, hsl]
  simp only [residueCurve]
  ring

/-- Group addition is the addition of the group, by case of 43 R211. -/
theorem ofCurvePoint_add (p q : (residueCurve M A B).Point) :
    ofCurvePoint (p + q) = padd M A (ofCurvePoint p) (ofCurvePoint q) := by
  obtain _ | ⟨x1, y1, h1⟩ := p
  · exact congrArg ofCurvePoint (zero_add q)
  obtain _ | ⟨x2, y2, h2⟩ := q
  · exact congrArg ofCurvePoint (add_zero _)
  by_cases hx : x1 = x2
  case neg => exact ofCurvePoint_add_of_x_ne hM hlt hx
  subst hx
  by_cases hneg : y1 = -y2
  · rw [Affine.Point.add_of_Y_eq rfl (by rwa [residueCurve_negY]), ofCurvePoint_some, ofCurvePoint_some,
      padd_of_cast_y_eq_neg hM y1.val_lt y2.val_lt (by simpa using hneg), ofCurvePoint_zero]
  · obtain rfl : y1 = y2 := Affine.Y_eq_of_Y_ne h1.1 h2.1 rfl (by rwa [residueCurve_negY])
    exact ofCurvePoint_add_self hM hlt fun hy => hneg (by rw [hy, neg_zero])

/-! ### Sums of one point (43 R216) -/

/-- Repeated addition is the group's multiple. -/
theorem nfold_ofCurvePoint (p : (residueCurve M A B).Point) : ∀ k : Nat, nfold M A (ofCurvePoint p) k = ofCurvePoint (k • p)
  | 0 => by rw [nfold, zero_nsmul, ofCurvePoint_zero]
  | k + 1 => by rw [nfold, nfold_ofCurvePoint p k, ← ofCurvePoint_add hM hlt, succ_nsmul]

/-- Each iteration of double-and-add keeps the value of `acc + k • cur`. -/
theorem smulLoop_ofCurvePoint : ∀ (fuel k : Nat) (acc cur : (residueCurve M A B).Point), k < 2 ^ fuel →
    smulLoop M A fuel (ofCurvePoint acc) (ofCurvePoint cur) k = ofCurvePoint (acc + k • cur)
  | 0, k, acc, cur, hk => by
    obtain rfl : k = 0 := by simpa using hk
    rw [smulLoop, zero_nsmul, add_zero]
  | fuel + 1, k, acc, cur, hk => by
    rw [smulLoop]
    split
    · next hzero => rw [hzero, zero_nsmul, add_zero]
    have hhalf : k / 2 < 2 ^ fuel := by rw [pow_succ] at hk; omega
    rw [← ofCurvePoint_add hM hlt, ← ofCurvePoint_add hM hlt, ← two_nsmul]
    split
    · next hodd =>
      rw [smulLoop_ofCurvePoint fuel _ _ _ hhalf, add_assoc, ← mul_nsmul, ← succ_nsmul', show 2 * (k / 2) + 1 = k by omega]
    · next heven =>
      rw [smulLoop_ofCurvePoint fuel _ _ _ hhalf, ← mul_nsmul, show 2 * (k / 2) = k by omega]

end

end

/-! ### The statements -/

/-- Settles O42: the laws are those of the group that the points of the curve are (`ofCurvePoint_add`). -/
theorem groupLaws : Obligations.GroupLaws := by
  intro M A B P Q T hp hM hlt _ _ hdisc hPr hQr hTr hP hQ hT
  have : Fact M.Prime := ⟨hp⟩
  refine ⟨?comm, ?assoc, padd_infinity_right M A P, ?inverse⟩
  case comm =>
    obtain ⟨p, rfl⟩ := exists_ofCurvePoint_eq hM hdisc hPr hP
    obtain ⟨q, rfl⟩ := exists_ofCurvePoint_eq hM hdisc hQr hQ
    rw [← ofCurvePoint_add hM hlt, ← ofCurvePoint_add hM hlt, add_comm]
  case assoc =>
    obtain ⟨p, rfl⟩ := exists_ofCurvePoint_eq hM hdisc hPr hP
    obtain ⟨q, rfl⟩ := exists_ofCurvePoint_eq hM hdisc hQr hQ
    obtain ⟨t, rfl⟩ := exists_ofCurvePoint_eq hM hdisc hTr hT
    simp only [← ofCurvePoint_add hM hlt, add_assoc]
  case inverse =>
    rintro x y rfl
    obtain ⟨-, hy⟩ := hPr x y rfl
    refine padd_of_cast_y_eq_neg hM hy (fsub_lt hp.pos 0 y) ?_
    rw [cast_fsub M 0 hy.le, Nat.cast_zero, zero_sub, neg_neg]

/-- Settles O43: both are the group's multiple, from infinity as its zero. -/
theorem smulIsRepeatedAddition : Obligations.SmulIsRepeatedAddition := by
  intro M A B k P hp hM hlt _ _ hdisc hPr hP hk
  have : Fact M.Prime := ⟨hp⟩
  obtain ⟨p, rfl⟩ := exists_ofCurvePoint_eq hM hdisc hPr hP
  calc smul M A (ofCurvePoint p) k
    _ = ofCurvePoint (0 + k • p) := smulLoop_ofCurvePoint hM hlt 256 k 0 p hk
    _ = nfold M A (ofCurvePoint p) k := by rw [zero_add, nfold_ofCurvePoint hM hlt]

end Sys2Proof.Arith
end

section
/-! PROOFS. The laws of the field commands' values (41 R164), and what the group commands write over a composite coordinate modulus
(43 R201). -/

namespace Sys2Proof.Arith

/-- Settles O27: residues are equal when they are in `ZMod M`, where addition and subtraction are the ring's; the inverse is Fermat's. -/
theorem fieldLaws : Obligations.FieldLaws := by
  intro M x y w hM hlt hx hy _
  have hpos : 0 < M := pos_of_legalModulus hM
  refine ⟨?comm, ?assoc, fun hp hne => ?inverse, fun c hc => ⟨fun hsum => ?difference, fun hdiff => ?sum⟩, rfl⟩
  case comm => rw [fadd, fadd, add_comm]
  case assoc => exact eq_of_cast_eq (fadd_lt hpos _ _) (fadd_lt hpos _ _) (by simp only [cast_fadd, add_assoc])
  case inverse =>
    rw [finv_eq_powmodSpec hM hlt]
    exact mul_powmodSpec_sub_two hp (Nat.pos_of_ne_zero hne) hx
  case difference =>
    refine eq_of_cast_eq hc (fsub_lt hpos x y) ?_
    rw [cast_fsub M x hy.le, ← hsum, cast_fadd, add_sub_cancel_right]
  case sum =>
    refine eq_of_cast_eq (fadd_lt hpos c y) hx ?_
    rw [cast_fadd, hdiff, cast_fsub M x hy.le, sub_add_cancel]

end Sys2Proof.Arith

namespace Sys2Proof.Machine

section
variable {s : State}

/-- Over a composite modulus a group command writes the free point, whatever the group sum, and uses up its draw (43 R201). -/
theorem retire_writeGroup_of_not_prime {M : Nat} (hp : ¬ M.Prime) (d : PIdx) (c : CurveIdx) (q : Point Nat) :
    retire (writeGroup d c M q s) = .next { wroteP d c (freePoint M s.draws) s with draws := s.draws + 1 } := by
  rw [writeGroup, if_neg (mt (Arith.isPrime_iff M).mp hp), wroteP, ← Point.isInf_map Arith.toWord]
  rfl

/-- `PADD` of two points of one curve ends in its write (43 R212). -/
theorem exec_padd_eq_retire {a b : PIdx} {qa qb : PReg} {k : Curve} {m : Word} (ha : s.pReg a = some qa) (hb : s.pReg b = some qb)
    (hka : s.curve qa.crv = some k) (hkb : s.curve qb.crv = some k) (hm : s.modFP = some m) (d : PIdx) :
    exec (.padd d a b) s = retire (writeGroup d qa.crv m.toNat (Arith.padd m.toNat k.a.toNat (ptOf qa) (ptOf qb)) s) :=
  (pointPair_some ha hb hka hkb _).trans (coordModulus_some hm _)

/-- `SMUL` of a point with a scalar that is not tagged `FP` ends in its write (43 R216). -/
theorem exec_smul_eq_retire {a : PIdx} {b : FIdx} {q : PReg} {r : FReg} {k : Curve} {n m : Word} (hq : s.pReg a = some q)
    (hr : s.fReg b = some r) (hn : s.modFN = some n) (htag : r.tag ≠ .fp) (hk : s.curve q.crv = some k) (hm : s.modFP = some m)
    (d : PIdx) :
    exec (.smul d a b) s =
      retire (writeGroup d q.crv m.toNat (Arith.smul m.toNat k.a.toNat (ptOf q) (r.val.toNat % n.toNat)) s) :=
  calc exec (.smul d a b) s
    _ = needModulus .fn s _ := (srcP_some hq _).trans (srcF_some hr _)
    _ = require (r.tag ≠ .fp) .domain s _ := needModulus_some (b := .fn) hn _
    _ = pointCurve q s _ := require_pos (by simpa using htag)
    _ = retire _ := (pointCurve_some hk _).trans (coordModulus_some hm _)

end

/-- Settles O41: the operands are as over a prime modulus; the point written is the free one. -/
theorem compositeModulusCompletes : Obligations.CompositeModulusCompletes := by
  intro d a qa k m s hmod ha hk hm hp
  have hfree : PointReduced m.toNat (freePoint m.toNat s.draws) :=
    freePoint_reduced (Arith.pos_of_legalModulus (hmod .fp m hm)) s.draws
  have hpadd (b : PIdx) (qb : PReg) (hb : s.pReg b = some qb) (hkb : s.curve qb.crv = some k) :
      exec (.padd d a b) s = .next { wroteP d qa.crv (freePoint m.toNat s.draws) s with draws := s.draws + 1 } :=
    (exec_padd_eq_retire ha hb hk hkb hm d).trans (retire_writeGroup_of_not_prime hp d qa.crv _)
  refine ⟨fun b qb hb hkb => ⟨_, hfree, hpadd b qb hb hkb⟩, ⟨_, hfree, ?pdbl⟩, fun b r n hr hn htag => ⟨_, hfree, ?smul⟩⟩
  case pdbl => exact (exec_pdbl d a s).trans (hpadd a qa ha hk)
  case smul => exact (exec_smul_eq_retire ha hr hn htag hk hm d).trans (retire_writeGroup_of_not_prime hp d qa.crv _)

end Sys2Proof.Machine
end

section
/-! PROOFS. Completion (10 R35, 20 R68 to R71, 70 R320): a step at the unit's turn or at a read; under the invariant no operand form meets a
register whose bank is not valid, so every command answers a next state; each step takes an event, so a busy unit comes to its own. -/

namespace Sys2Proof.Machine

/-! ### The unit's turn and the busy read (20 R68, R70) -/

section
variable {s : State}

/-- With no event pending the unit out of FAULT takes its own step. -/
theorem step_eq_unitMove (hev : s.events = []) (hrun : s.run ≠ .fault) : step s = unitMove s := by
  rw [step_alone hev, unitAlone, if_neg fun h => hrun h.2]

theorem unitMove_decoded {i : Instr} (hdec : decode s.cmd = .ok i) (hrun : s.run = .busy) (hheld : s.inReset = false) :
    unitMove s = exec i s := by
  rw [unitMove_busy hheld hrun, complete, hdec]

end

/-- Settles O6: with no event pending, or its turn first, the busy unit completes the word in `CMD`. -/
theorem stepRunsDecodedCommand : Obligations.StepRunsDecodedCommand := by
  intro s i hrun hheld hdec _
  refine ⟨fun hev => ?alone, fun rest hev => ?turn⟩
  case alone => rw [step_eq_unitMove hev (by simp [hrun]), unitMove_decoded hdec hrun hheld]
  case turn => exact (step_event hev).trans (unitMove_decoded (s := { s with events := rest }) hdec hrun hheld)

/-- Settles O15: `step_read`; only a read of a word of `DBUF` while BUSY draws. -/
theorem busyReadIsAFreeDraw : Obligations.BusyReadIsAFreeDraw := by
  intro s r rest hheld hev
  rw [step_read hheld hev]
  refine ⟨fun hrun k hr => ?draws, fun hother => ⟨windowRead r s, ?keeps⟩⟩
  case draws =>
    subst hr
    simp [windowRead, readDraws, hrun]
  case keeps =>
    have hdraws : readDraws r s = false := by
      obtain hrun | hr := hother
      · exact readDraws_of_not_busy hrun r
      · cases r with
        | dbuf k => exact absurd rfl (hr k)
        | id | ctrl | status | cmd | reserved => rfl
    rw [hdraws]
    rfl

/-! ### Every operand form answers (00 R11; 41 R151; 43 R200) -/

/-- The evaluation answers a next state: it meets no stop of the model (log entry 8). -/
def Answers (o : Out) : Prop := ∃ t, o = .next t

section
variable {s : State}

theorem answers_next (t : State) : Answers (.next t) := ⟨t, rfl⟩

theorem answers_require {c : Bool} {e : ErrCode} {k : Out} (hk : c = true → Answers k) : Answers (require c e s k) := by
  cases c with
  | false => exact answers_next _
  | true => exact hk rfl

theorem answers_srcF {a : FIdx} {k : FReg → Out} (hk : ∀ r, s.fReg a = some r → Answers (k r)) : Answers (srcF a s k) := by
  cases hr : s.fReg a with
  | none => exact ⟨_, srcF_none hr k⟩
  | some r => exact srcF_some hr k ▸ hk r hr

theorem answers_srcP {a : PIdx} {k : PReg → Out} (hk : ∀ q, s.pReg a = some q → Answers (k q)) : Answers (srcP a s k) := by
  cases hq : s.pReg a with
  | none => exact ⟨_, srcP_none hq k⟩
  | some q => exact srcP_some hq k ▸ hk q hq

theorem answers_needModulus {b : Bank} {k : Nat → Out} (hk : ∀ M, Answers (k M)) : Answers (needModulus b s k) := by
  cases hm : s.modulus b with
  | none => exact ⟨_, needModulus_none hm k⟩
  | some m => exact needModulus_some hm k ▸ hk m.toNat

theorem answers_needCurve {c : CurveIdx} {k : Curve → Out} (hk : ∀ v, s.curve c = some v → Answers (k v)) :
    Answers (needCurve c s k) := by
  cases hv : s.curve c with
  | none => exact ⟨_, needCurve_none hv k⟩
  | some v => exact needCurve_some hv k ▸ hk v hv

/-! The three forms with a stop of the model: the invariant makes the bank of a valid register valid (10 R35 I2, I4, I5). -/

section
variable (hs : StateInv s)
include hs

theorem answers_tagModulus {a : FIdx} {r : FReg} (hr : s.fReg a = some r) (htag : r.tag ≠ .raw) {k : Nat → Out}
    (hk : ∀ M, Answers (k M)) : Answers (tagModulus r.tag s k) := by
  obtain ⟨b, hb⟩ := exists_bank_of_ne_raw htag
  obtain ⟨m, hm, -⟩ := hs.fields a r b hr hb
  rw [hb, tagModulus_some hm]
  exact hk m.toNat

theorem answers_coordModulus {c : CurveIdx} {v : Curve} (hv : s.curve c = some v) {k : Nat → Out} (hk : ∀ M, Answers (k M)) :
    Answers (coordModulus s k) := by
  obtain ⟨m, hm, -⟩ := hs.curves c v hv
  exact coordModulus_some hm k ▸ hk m.toNat

theorem answers_pointCurve {a : PIdx} {q : PReg} (hq : s.pReg a = some q) {k : Curve → Out}
    (hk : ∀ v, s.curve q.crv = some v → Answers (k v)) : Answers (pointCurve q s k) := by
  obtain ⟨⟨v, hv⟩, -⟩ := hs.points a q hq
  exact pointCurve_some hv k ▸ hk v hv

theorem answers_fieldPair {a b : FIdx} {k : FReg → FReg → Nat → Out} (hk : ∀ ra rb M, Answers (k ra rb M)) :
    Answers (fieldPair a b s k) :=
  answers_srcF fun ra ha => answers_srcF fun rb _ => answers_require fun hc =>
    answers_tagModulus hs ha (by simp only [ne_eq, Bool.and_eq_true, decide_eq_true_eq] at hc; exact hc.1) (hk ra rb)

theorem answers_fieldOne {a : FIdx} {k : FReg → Nat → Out} (hk : ∀ ra M, Answers (k ra M)) : Answers (fieldOne a s k) :=
  answers_srcF fun ra ha => answers_require fun hc => answers_tagModulus hs ha (of_decide_eq_true hc) (hk ra)

theorem answers_pointPair {a b : PIdx} {k : PReg → PReg → Curve → Out}
    (hk : ∀ qa qb v, s.curve qa.crv = some v → Answers (k qa qb v)) : Answers (pointPair a b s k) :=
  answers_srcP fun qa ha => answers_srcP fun qb hb => answers_pointCurve hs ha fun va hva => answers_pointCurve hs hb fun _ _ =>
    answers_require fun _ => hk qa qb va hva

/-- Every command answers a next state: its operand forms do, and it ends in a write or in a fault. -/
theorem exec_answers (i : Instr) : Answers (exec i s) := by
  cases i with
  | ldmod => exact answers_require fun _ => answers_next _
  | ldi => exact answers_next _
  | ldf =>
    rw [exec, execLdf]
    exact answers_needModulus fun _ => answers_require fun _ => answers_next _
  | stf | movf => exact answers_srcF fun _ _ => answers_next _
  | red => exact answers_srcF fun _ _ => answers_needModulus fun _ => answers_next _
  | ldcrv | cmpf => exact answers_srcF fun _ _ => answers_srcF fun _ _ => answers_require fun _ => answers_next _
  | add | sub | mul | mmul => exact answers_fieldPair hs fun _ _ _ => answers_next _
  | div => exact answers_fieldPair hs fun _ _ _ => answers_require fun _ => answers_next _
  | tomont | frommont => exact answers_fieldOne hs fun _ _ => answers_next _
  | inv => exact answers_fieldOne hs fun _ _ => answers_require fun _ => answers_next _
  | pow =>
    exact answers_srcF fun ra ha => answers_srcF fun _ _ => answers_require fun htag => answers_require fun _ =>
      answers_tagModulus hs ha (of_decide_eq_true htag) fun _ => answers_next _
  | ldp =>
    refine answers_require fun _ => ?_
    split
    · exact answers_needCurve fun _ _ => answers_next _
    · exact answers_srcF fun _ _ => answers_srcF fun _ _ => answers_needCurve fun _ hv => answers_require fun _ =>
        answers_coordModulus hs hv fun _ => answers_require fun _ => answers_next _
  | getx | gety =>
    refine answers_srcP fun q _ => ?_
    obtain ⟨_, _ | _⟩ := q
    · exact answers_next _
    · exact answers_next _
  | movp | tstp => exact answers_srcP fun _ _ => answers_next _
  | cmpp => exact answers_pointPair hs fun _ _ _ _ => answers_next _
  | padd => exact answers_pointPair hs fun _ _ _ hv => answers_coordModulus hs hv fun _ => answers_next _
  | pdbl =>
    exact answers_srcP fun _ hq => answers_pointCurve hs hq fun _ hv => answers_coordModulus hs hv fun _ => answers_next _
  | smul =>
    exact answers_srcP fun _ hq => answers_srcF fun _ _ => answers_needModulus fun _ => answers_require fun _ =>
      answers_pointCurve hs hq fun _ hv => answers_coordModulus hs hv fun _ => answers_next _

/-! ### Every step answers, but in FAULT (60 R271; 93 U12) -/

theorem complete_answers : Answers (complete s) := by
  cases hdec : decode s.cmd with
  | error why => exact ⟨_, complete_illegal hdec⟩
  | ok i =>
    rw [complete, hdec]
    exact exec_answers hs i

theorem unitMove_answers : Answers (unitMove s) := by
  by_cases hquiet : s.inReset = true ∨ s.run ≠ .busy
  · exact ⟨s, unitMove_quiet hquiet⟩
  · obtain ⟨hheld, hrun⟩ := not_or.mp hquiet
    rw [unitMove_busy (Bool.not_eq_true _ ▸ hheld) (not_not.mp hrun)]
    exact complete_answers hs

theorem applyEvent_answers (e : Event) : Answers (applyEvent e s) := by
  cases e with
  | unitTurn => exact unitMove_answers hs
  | read | write | assertReset | releaseReset => exact answers_next _

/-- A unit held in reset is in IDLE (70 R300). -/
theorem StateInv.released (hrun : s.run ≠ .idle) : s.inReset = false := by
  refine Bool.not_eq_true _ ▸ fun hheld => hrun ?_
  rw [hs.held hheld]
  rfl

/-- Only reset leaves FAULT, so a step with no event pending there is the one that may not answer. -/
theorem step_answers (h : s.run ≠ .fault ∨ s.events ≠ []) : Answers (step s) := by
  cases hev : s.events with
  | nil =>
    rw [step_eq_unitMove hev (h.resolve_right (not_not.mpr hev))]
    exact unitMove_answers hs
  | cons e rest =>
    rw [step_event hev]
    exact applyEvent_answers (hs.withEvents rest) e

end

end

/-- Settles O50: the commands by `exec_answers`, the steps by `step_answers`; a unit held in reset is not in FAULT. -/
theorem everyCommandCompletes : Obligations.EveryCommandCompletes := by
  intro s hs
  have hstuck (hrun : s.run = .fault) (hheld : s.inReset = false) (hev : s.events = []) : step s = .fault .stuckInFault := by
    rw [step_alone hev, unitAlone, if_pos ⟨hheld, hrun⟩]
  refine ⟨exec_answers hs, ?step, hstuck⟩
  case step =>
    by_cases h : s.run = .fault ∧ s.events = []
    · obtain ⟨hrun, hev⟩ := h
      exact .inr ⟨hstuck hrun (hs.released (by simp [hrun])) hev, hrun, hev⟩
    · exact .inl (step_answers hs (not_and_or.mp h))

/-- The premises of the last clause of O50 are met: after reset but for a recorded fault, the unit is stuck. -/
theorem step_reset_faulted (e : ErrCode) :
    StateInv (faultRecord e State.reset) ∧ step (faultRecord e State.reset) = .fault .stuckInFault := by
  have hs : StateInv (faultRecord e State.reset) := reset_stateInv.of_registers_eq rfl (faultRecord_codeIffFault e _) rfl
  obtain ⟨-, -, hstuck⟩ := everyCommandCompletes _ hs
  exact ⟨hs, hstuck rfl rfl rfl⟩

/-! ### A busy unit completes (70 R320) -/

section
variable {s t : State}

/-- *complete* leaves BUSY, with the effect of the command or with a fault (20 R70). -/
theorem complete_run_ne_busy (h : complete s = .next t) : t.run ≠ .busy := by
  obtain ⟨i, -, hexec⟩ | ⟨why, -, rfl⟩ := complete_cases h
  · obtain hidle | ⟨hfault, -⟩ := exec_completes_or_faults hexec
    · simp [hidle]
    · simp [hfault]
  · nofun

theorem exec_events {i : Instr} (h : exec i s = .next t) : t.events = s.events := by
  obtain hidle | ⟨-, e, -, rfl⟩ := exec_completes_or_faults h
  · obtain ⟨-, -, -, -, hevents, -⟩ := (completion_of_exec h hidle).untouched
    exact hevents
  · rfl

theorem unitMove_events (h : unitMove s = .next t) : t.events = s.events := by
  obtain rfl | ⟨-, -, hcomplete⟩ := unitMove_cases h
  · rfl
  obtain ⟨i, -, hexec⟩ | ⟨why, -, rfl⟩ := complete_cases hcomplete
  · exact exec_events hexec
  · rfl

theorem hostWrite_events (r : WinReg) (v : Word32) (s : State) : (hostWrite r v s).events = s.events := by
  cases hheld : s.inReset with
  | true => rw [hostWrite_held hheld]
  | false =>
    cases r with
    | id | status | reserved => rw [hostWrite_ignored (by simp)]
    | cmd | dbuf =>
      by_cases hidle : s.run = .idle
      · simp [hostWrite_cmd_idle hheld hidle, hostWrite_dbuf_idle hheld hidle]
      · rw [hostWrite_dropped hheld hidle (by simp)]
    | ctrl =>
      rw [hostWrite_ctrl hheld]
      split
      · rfl
      · rfl

theorem releaseReset_events (s : State) : (releaseReset s).events = s.events := by
  cases hheld : s.inReset with
  | true =>
    rw [releaseReset_held hheld]
    rfl
  | false => rw [releaseReset_released hheld]

theorem applyEvent_events {e : Event} (h : applyEvent e s = .next t) : t.events = s.events := by
  cases e with
  | unitTurn => exact unitMove_events h
  | read | assertReset =>
    cases h
    rfl
  | write r v =>
    cases h
    exact hostWrite_events r v s
  | releaseReset =>
    cases h
    exact releaseReset_events s

/-- A step takes the first pending event, if there is one, off the list (20 R71). -/
theorem step_events (h : step s = .next t) : t.events = s.events.tail := by
  obtain ⟨-, hmove⟩ | ⟨e, rest, -, hev, happly⟩ := step_cases h
  · exact unitMove_events hmove
  · rw [hev, applyEvent_events happly, List.tail_cons]

theorem stepN_succ (n : Nat) (h : step s = .next t) : stepN (n + 1) s = stepN n t := by
  rw [stepN, h]

/-- One step is enough where it leaves BUSY. -/
theorem stepN_one (h : step s = .next t) : stepN 1 s = .next t := stepN_succ 0 h

end

/-- A busy unit with the events `events` still to come leaves BUSY: at one of them, or at its own step after the last. -/
theorem exists_stepN_run_ne_busy : ∀ (events : List Event) (s : State), s.events = events → StateInv s → s.run = .busy →
    ∃ n t, n ≤ events.length + 1 ∧ stepN n s = .next t ∧ t.run ≠ .busy := by
  intro events
  induction events with
  | nil =>
    intro s hev hs hrun
    obtain ⟨t, hcomplete⟩ := complete_answers hs
    have hstep : step s = .next t := by
      rw [step_eq_unitMove hev (by simp [hrun]), unitMove_busy (hs.released (by simp [hrun])) hrun, hcomplete]
    exact ⟨1, t, le_rfl, stepN_one hstep, complete_run_ne_busy hcomplete⟩
  | cons e rest ih =>
    intro s hev hs hrun
    obtain ⟨t, hstep⟩ := step_answers hs (.inl (by simp [hrun]))
    by_cases hbusy : t.run = .busy
    · have hrest : t.events = rest := by rw [step_events hstep, hev, List.tail_cons]
      obtain ⟨n, u, hn, hsteps, hu⟩ := ih t hrest (stepKeepsInvariant s t hs hstep) hbusy
      exact ⟨n + 1, u, Nat.succ_le_succ hn, (stepN_succ n hstep).trans hsteps, hu⟩
    · exact ⟨1, t, Nat.le_add_left 1 _, stepN_one hstep, hbusy⟩

/-- Settles O60, by induction on the events still to come. -/
theorem busyUnitCompletes : Obligations.BusyUnitCompletes :=
  fun s => exists_stepN_run_ne_busy s.events s rfl

end Sys2Proof.Machine
end
